-- ==== Sys2Proof/Word.lean ====
section
/-! DEFINITION. The two word types of UMSG-CORE: 32-bit registers, pointers, lengths and command words
(00_scope.md R14), and the byte that every memory access moves (20_memory.md R221). -/

namespace Sys2Proof

/-- A 32-bit register value, pointer, length or command word (00_scope.md R14, 10_state.md R101). -/
abbrev Word := BitVec 32

/-- A byte of memory, of the wire, or of an immediate (20_memory.md R221, 30_encoding.md R302). -/
abbrev Byte := BitVec 8

end Sys2Proof
end

