-- ==== Sys2Proof/Config.lean ====
section
/-! DEFINITION. The construction parameters of an instance (00_scope.md R10, R15 to R17; 10_state.md R142), the
parameters of the common launch state of 95_test_vectors.md, and the free values: constants without a body, so that no
proof can learn what they are. -/

namespace Sys2Proof

/-- A run of host addresses `base .. base + size − 1`. -/
structure Region where
  base : Nat
  size : Nat
deriving DecidableEq, Repr

/-- What the construction of an instance fixes (10_state.md R142). `hostMem` lists the bytes for which the parameter
`HostMem` of 00_scope.md R15 is true, as runs of addresses; any finite set of addresses can be listed so (DESIGN CHOICE, log 25). -/
structure Config where
  /-- `MaxPacketSize` (00_scope.md R10). -/
  maxPacketSize : Nat
  /-- `RX_BASE` (00_scope.md R17). -/
  rxBase : Nat
  /-- `REG_BASE` (00_scope.md R16). -/
  regBase : Nat
  /-- `HostMem` (00_scope.md R15). -/
  hostMem : List Region
deriving DecidableEq, Repr

/-- The bytes the register file takes on the host's bus, `REG_BASE .. REG_BASE + 0x57` (00_scope.md R16). -/
def Config.regSize : Nat := 0x58

/-- The parameters of the common launch state of 95_test_vectors.md: MaxPacketSize = 30, RX_BASE = 0x8000,
REG_BASE = 0xF0000000, HostMem = 0x1000 .. 0x7FFF. DESIGN CHOICE, log 1: the spec leaves the parameters open; the
machine's statements hold for every value of them. -/
def Config.launch : Config where
  maxPacketSize := 30
  rxBase := 0x8000
  regBase := 0xF0000000
  hostMem := [⟨0x1000, 0x7000⟩]

/-- `draw` of 00_scope.md R24 at its `n`-th use. DESIGN CHOICE, log 6: no body, so nothing can be proved of a value. -/
opaque Config.freeByte : Nat → Byte

/-- What the host byte at an address held at launch, before any write. DESIGN CHOICE, log 5: the spec gives no launch
contents, so the value is free; a byte keeps one value until it is written (20_memory.md R222). -/
opaque Config.launchByte : Nat → Byte

/-- Which byte of a 32-bit register access made by address carries bits 31:24: the one at the lowest address when this is
`true`, the one at the highest when it is `false`. DESIGN CHOICE, log 20: the spec gives no byte order for such an access,
so it is free; one instance has one. -/
opaque Config.busBigEndian : Bool

end Sys2Proof
end

