-- ==== Sys2Proof/Syntax.lean ====
section
/-! DEFINITION. The ten commands of UMSG-CORE (30_encoding.md R305), one constructor per row of opcode_table.json. Every
operand but the 8-bit immediate is implicit: a fixed argument register per position (30_encoding.md R303, R310). -/

namespace Sys2Proof

/-- A legal command (30_encoding.md R305). The immediate IMM8 is an argument where R305's column gives it a meaning. -/
inductive Instr where
  /-- CRC32: CRC-32/ISO-HDLC of a span (40_crc.md R410). -/
  | crc32
  /-- COBS.BEGIN: start an incremental encoding (41_cobs.md R451). -/
  | cobsBegin
  /-- COBS.PUT: feed the byte IMM8 to the incremental encoder (41_cobs.md R455). -/
  | cobsPut (b : Byte)
  /-- COBS.END: finish the incremental encoding (41_cobs.md R460). -/
  | cobsEnd
  /-- COBS.ENC2: encode two concatenated inputs (41_cobs.md R465). -/
  | cobsEnc2
  /-- COBS.DEC: decode a buffer in place (41_cobs.md R480). -/
  | cobsDec
  /-- FR.PKT: build a packet from a frame (42_framer.md R540). -/
  | frPkt
  /-- FR.BYTE: feed the received byte IMM8 to the framer (42_framer.md R510). -/
  | frByte (b : Byte)
  /-- FR.REG: register the framer's consumer (42_framer.md R530). -/
  | frReg
  /-- FB.BUILD: build a frame whose msg_id is IMM8 (43_frame_builder.md R601). -/
  | fbBuild (id : Byte)
deriving DecidableEq, Repr

end Sys2Proof
end

