-- ==== Sys2Proof/WellFormed.lean ====
section
/-! DEFINITION. The checks on raw data: the construction parameters (00_scope.md R10, R15 to R17, 20_memory.md R223),
command words (30_encoding.md R306) and the assembler's immediates (30_encoding.md R320). An `Instr` itself needs no
check: its only operand is a byte, and every byte is allowed (30_encoding.md R306). -/

namespace Sys2Proof

/-- Two runs of addresses with no byte in common; an empty run has none. -/
def Region.disjoint (r q : Region) : Bool :=
  r.size == 0 || q.size == 0 || decide (r.base + r.size ≤ q.base) || decide (q.base + q.size ≤ r.base)

/-- The RX window `RX_BASE .. RX_BASE + MaxPacketSize − 1` (00_scope.md R17). -/
def Config.window (c : Config) : Region := ⟨c.rxBase, c.maxPacketSize⟩

/-- The register file `REG_BASE .. REG_BASE + 0x57` (00_scope.md R16). -/
def Config.regFile (c : Config) : Region := ⟨c.regBase, Config.regSize⟩

/-- 00_scope.md R10: 1 ≤ MaxPacketSize ≤ 2^32 − 1. -/
def Config.sizeOk (c : Config) : Bool := decide (1 ≤ c.maxPacketSize ∧ c.maxPacketSize ≤ 2 ^ 32 - 1)

/-- 00_scope.md R17: RX_BASE ≠ 0 and RX_BASE + MaxPacketSize ≤ 2^32. -/
def Config.windowOk (c : Config) : Bool := decide (c.rxBase ≠ 0 ∧ c.rxBase + c.maxPacketSize ≤ 2 ^ 32)

/-- The register file does not overlap the RX window (20_memory.md R223), and its 0x58 bytes (00_scope.md R16) lie below
2^32, a bound the spec does not put on REG_BASE (DESIGN CHOICE, log 31). -/
def Config.regFileOk (c : Config) : Bool :=
  decide (c.regBase + Config.regSize ≤ 2 ^ 32) && c.window.disjoint c.regFile

/-- 00_scope.md R15: HostMem never contains address 0, a byte of the RX window or of the register file, and has
32-bit addresses only (00_scope.md R14). -/
def Config.hostMemOk (c : Config) : Bool :=
  c.hostMem.all fun r =>
    decide (r.base ≠ 0 ∧ r.base + r.size ≤ 2 ^ 32) && r.disjoint c.window && r.disjoint c.regFile

/-- The parameters obey 00_scope.md R10 and R15 to R17, and the bound of log 31 on REG_BASE. -/
def Config.ok (c : Config) : Bool := c.sizeOk && c.windowOk && c.regFileOk && c.hostMemOk

/-- OPC of a command word, bits 7:0 (30_encoding.md R302). -/
def fieldOpc (w : Word) : Byte := w.extractLsb' 0 8

/-- IMM8 of a command word, bits 15:8 (30_encoding.md R302). -/
def fieldImm8 (w : Word) : Byte := w.extractLsb' 8 8

/-- RSV of a command word, bits 31:16 (30_encoding.md R302). -/
def fieldRsv (w : Word) : BitVec 16 := w.extractLsb' 16 16

/-- The operation codes of 30_encoding.md R305, each with whether its IMM8 carries an operand. -/
def opcodes : List (Byte × Bool) :=
  [(0x01, false), (0x10, false), (0x11, true), (0x12, false), (0x13, false), (0x14, false),
   (0x20, false), (0x21, true), (0x22, false), (0x30, true)]

/-- 30_encoding.md R306 (a): OPC is assigned. -/
def opcAssigned (w : Word) : Bool := opcodes.any fun p => p.1 == fieldOpc w

/-- 30_encoding.md R306 (b): RSV = 0. -/
def rsvZero (w : Word) : Bool := fieldRsv w == 0

/-- 30_encoding.md R306 (c): IMM8 = 0 where the command has no immediate. -/
def imm8Allowed (w : Word) : Bool := fieldImm8 w == 0 || opcodes.contains (fieldOpc w, true)

/-- A legal command word, by the three checks of 30_encoding.md R306. -/
def legalWord (w : Word) : Bool := opcAssigned w && rsvZero w && imm8Allowed w

/-- An immediate the assembler accepts: 0..255 (30_encoding.md R320). -/
def immInRange (n : Nat) : Bool := decide (n ≤ 255)

end Sys2Proof
end

