-- ==== Sys2Proof/Decode.lean ====
section
/-! DEFINITION. The decoder of 30_encoding.md R300 to R306, total on 32-bit words and refusing by name, then the
encoder, written from the fields of R302 and the codes of R305. A command word reaches the block as the value of one
32-bit bus write (R300), so no byte order enters (DEDUCED, log 15). -/

namespace Sys2Proof

/-- Why a word is no command: the three cases of 30_encoding.md R306. -/
inductive IllegalWord where
  /-- (a) OPC is not in R305's table. -/
  | unassignedOpcode (opc : Byte)
  /-- (b) RSV ≠ 0. -/
  | reservedBits (rsv : BitVec 16)
  /-- (c) IMM8 ≠ 0 for a command whose IMM8 column is 0. -/
  | immediateNotZero (opc imm : Byte)
deriving DecidableEq, Repr

/-- A row of the opcode table: the bits `mask` of a word must be those of `pattern`. -/
structure OpcodeRow where
  pattern : Word
  mask    : Word
  /-- The command, given the word's IMM8. -/
  command : Byte → Instr

/-- The opcode table, row for row as opcode_table.json has it (30_encoding.md R305, R306). -/
def opcodeTable : List OpcodeRow :=
  [⟨0x00000001, 0xFFFFFFFF, fun _ => .crc32⟩,
   ⟨0x00000010, 0xFFFFFFFF, fun _ => .cobsBegin⟩,
   ⟨0x00000011, 0xFFFF00FF, .cobsPut⟩,
   ⟨0x00000012, 0xFFFFFFFF, fun _ => .cobsEnd⟩,
   ⟨0x00000013, 0xFFFFFFFF, fun _ => .cobsEnc2⟩,
   ⟨0x00000014, 0xFFFFFFFF, fun _ => .cobsDec⟩,
   ⟨0x00000020, 0xFFFFFFFF, fun _ => .frPkt⟩,
   ⟨0x00000021, 0xFFFF00FF, .frByte⟩,
   ⟨0x00000022, 0xFFFFFFFF, fun _ => .frReg⟩,
   ⟨0x00000030, 0xFFFF00FF, .fbBuild⟩]

/-- The word has the row's fixed bits. -/
def OpcodeRow.fits (r : OpcodeRow) (w : Word) : Bool := (w &&& r.mask) == r.pattern

/-- The name of what is wrong with a word that fits no row (30_encoding.md R306, in the order (a), (b), (c)). -/
def rejectWord (w : Word) : IllegalWord :=
  if opcAssigned w = false then .unassignedOpcode (fieldOpc w)
  else if rsvZero w = false then .reservedBits (fieldRsv w)
  else .immediateNotZero (fieldOpc w) (fieldImm8 w)

/-- Decode a command word (30_encoding.md R300, R305, R306). -/
def decode (w : Word) : Except IllegalWord Instr :=
  match opcodeTable.find? fun r => r.fits w with
  | some r => .ok (r.command (fieldImm8 w))
  | none => .error (rejectWord w)

/-- OPC of a command (30_encoding.md R305). -/
def Instr.opc : Instr → Byte
  | .crc32 => 0x01
  | .cobsBegin => 0x10
  | .cobsPut _ => 0x11
  | .cobsEnd => 0x12
  | .cobsEnc2 => 0x13
  | .cobsDec => 0x14
  | .frPkt => 0x20
  | .frByte _ => 0x21
  | .frReg => 0x22
  | .fbBuild _ => 0x30

/-- IMM8 of a command: its byte, or 0 (30_encoding.md R305). -/
def Instr.imm8 : Instr → Byte
  | .crc32 => 0
  | .cobsBegin => 0
  | .cobsPut b => b
  | .cobsEnd => 0
  | .cobsEnc2 => 0
  | .cobsDec => 0
  | .frPkt => 0
  | .frByte b => b
  | .frReg => 0
  | .fbBuild id => id

/-- The word of a command: RSV = 0, IMM8, OPC (30_encoding.md R302). -/
def encode (i : Instr) : Word := (0 : BitVec 16) ++ i.imm8 ++ i.opc

/-- The instruction this decoder reads from the bits `w` of an opcode-table row of `nbits` bits; every bit above
`nbits` is 0. A command is one 32-bit word (30_encoding.md R301). -/
def decodeTableWord (nbits w : Nat) : Option Instr :=
  match decode (BitVec.ofNat 32 (w % 2 ^ nbits)) with
  | .ok i => some i
  | .error _ => none

end Sys2Proof
end

