-- ==== Sys2Proof/Machine/State.lean ====
section
/-! DEFINITION. The state of one UMSG-CORE instance (10_state.md R100) with the host memory beside it, as plain data; the
two ways a step can stop; the host's bus operations; and the state after reset (10_state.md R140, R141). -/

namespace Sys2Proof.Machine

/-- PHASE (10_state.md R110). -/
inductive Phase where
  | idle
  | delivering
deriving DecidableEq, Repr

/-- ENC_STATE (10_state.md R117); the field value 3 never occurs. -/
inductive EncState where
  | idle
  | active
  | failed
deriving DecidableEq, Repr

/-- The ten status kinds, in the order of their codes 0 to 9 (60_exceptions.md R700). -/
inductive Status where
  | ok
  | frameTooLarge
  | cobsDecodeFailed
  | crcMismatch
  | frameHeaderSize
  | msgVersionMismatch
  | msgIdUnknown
  | msgLengthMismatch
  | invalidParameter
  | transportError
deriving DecidableEq, Repr

/-- The names of the argument registers A0 to A5 (10_state.md R101). -/
inductive ArgIdx where
  | a0
  | a1
  | a2
  | a3
  | a4
  | a5
deriving DecidableEq, Repr

/-- An argument register: its value and its written mark (10_state.md R101, R103). -/
structure ArgReg where
  value   : Word
  written : Bool
deriving DecidableEq, Repr

/-- The direction of a host access. -/
inductive Dir where
  | read
  | write
deriving DecidableEq, Repr

/-- A span `(p, n)`: the host bytes `p .. p + n − 1` (20_memory.md R211). -/
structure Span where
  ptr : Word
  len : Word
deriving DecidableEq, Repr

/-- An encoder context: output pointer, capacity, code-byte index, write index, current code and state
(41_cobs.md R450). The architected one is ENC (10_state.md R116). -/
structure Enc where
  state : EncState
  out   : Word
  cap   : Word
  ci    : Word
  wi    : Word
  code  : Byte
deriving DecidableEq, Repr

/-- The fault reasons of 60_exceptions.md R720, each with the information recorded. -/
inductive FaultReason where
  | illegalCommand (word : Word)
  | reentrant (word : Word)
  | unwrittenArg (i : ArgIdx)
  | unwrittenResult
  | busMisuse (offset width : Nat) (dir : Dir)
  | spanWrap (ptr len : Word)
  | memNotAdmitted (address : Nat)
  | spanOverlap (output input : Span)
  | rxWindowMisuse (address : Nat) (dir : Dir)
  | ackWithoutDelivery (value : Word)
  | badAckCode (value : Word)
deriving DecidableEq, Repr

/-- One bus operation of the host, the block's only input (30_encoding.md R321, 20_memory.md R231). -/
inductive HostOp where
  /-- A write of `value` to the register file at `offset`, `width` bits wide (10_state.md R131, R132; DESIGN CHOICE, log 21). -/
  | wr (offset width : Nat) (value : Word)
  /-- A read of the register file at `offset`, `width` bits wide (10_state.md R131, R132). -/
  | rd (offset width : Nat)
  /-- A read of the register at `offset` after which the host goes on only if the read value masked is `value`
  (30_encoding.md R321). -/
  | chk (offset : Nat) (mask value : Word)
  /-- One write access by address, to host memory, the RX window or the register file, its bytes in address order; one
  of no bytes touches nothing (20_memory.md R201, R216; 10_state.md R131; DESIGN CHOICE, log 29). -/
  | memWr (address : Word) (bytes : List Byte)
  /-- One read access of `count` bytes by address, to host memory, the RX window or the register file; one of no bytes
  touches nothing (20_memory.md R201, R215; 10_state.md R131; DESIGN CHOICE, log 29). -/
  | memRd (address : Word) (count : Nat)
  /-- The reset signal, which falls between two bus operations (70_reset_and_hazards.md R800). -/
  | reset
deriving DecidableEq, Repr

/-- What the host's latest read gave it. -/
inductive BusData where
  | none
  | word (value : Word)
  | bytes (values : List Byte)
deriving DecidableEq, Repr

/-- Host memory: the bytes written so far, by address (20_memory.md R200, R222). The one form is that of `Memory.wf` in
Machine/Memory.lean; an unlisted address has no value here and its byte is `Config.launchByte` (DESIGN CHOICE, log 5). -/
abbrev Memory := List Host.Cell

/-- The whole state: 10_state.md R100, the construction constants of R142, host memory, and the model's own
`hostOps` (DESIGN CHOICE, log 2), `busData` (DESIGN CHOICE, log 11) and `draws` (DESIGN CHOICE, log 6). -/
structure State where
  /-- MaxPacketSize, RX_BASE, REG_BASE and HostMem; no step changes them (10_state.md R142). -/
  cfg : Config
  a0 : ArgReg
  a1 : ArgReg
  a2 : ArgReg
  a3 : ArgReg
  a4 : ArgReg
  a5 : ArgReg
  /-- RESULT (10_state.md R104). -/
  result : Word
  /-- RESULT's written mark (10_state.md R104). -/
  resultWritten : Bool
  /-- STATUS.CODE (10_state.md R107). -/
  code : Status
  /-- PHASE (10_state.md R110). -/
  phase : Phase
  /-- VERSION (10_state.md R112). -/
  version : Byte
  /-- CB_VALID (10_state.md R113). -/
  cbValid : Bool
  /-- CB_HANDLE (10_state.md R113). -/
  cbHandle : Word
  /-- RX_INDEX (10_state.md R114). -/
  rxIndex : Nat
  /-- RXBUF, MaxPacketSize bytes (10_state.md R115). -/
  rxbuf : List Byte
  /-- ENC_STATE, ENC_OUT, ENC_CAP, ENC_CI, ENC_WI, ENC_CODE (10_state.md R116). -/
  enc : Enc
  /-- DELIV_LEN (10_state.md R118). -/
  delivLen : Word
  /-- FAULT (10_state.md R119). -/
  fault : Option FaultReason
  /-- Host memory (20_memory.md R200). -/
  mem : Memory
  /-- The host's operations still to come, the next one first. -/
  hostOps : List HostOp
  /-- What the host's latest read gave it. -/
  busData : BusData
  /-- How many free values have been drawn. -/
  draws : Nat
deriving DecidableEq, Repr

/-- Why a run stops. -/
inductive Fault where
  /-- Raised by every command and every host operation but reset when FAULT is `some reason`: no further operation has
  a step (60_exceptions.md R721). Safe: the model stops (DEDUCED, log 7, DEDUCED, log 8). -/
  | halted (reason : FaultReason)
deriving DecidableEq, Repr

/-- What has no meaning in the model. -/
inductive Refusal where
  /-- Raised by an arm of `exec` whose command has no meaning yet; no arm is left so. Safe: the model stops. -/
  | notModelled (mnemonic : String)
  /-- Raised by a host memory access that touches a byte outside HostMem, and none of the RX window or the register file,
  which the spec gives no effect (20_memory.md R223). Safe: the model stops (DESIGN CHOICE, log 9). No command raises it. -/
  | addressOutsideMap (address : Nat)
deriving DecidableEq, Repr

/-- What one step answers. -/
abbrev Result := Host.Outcome State Fault Refusal

/-- The encoder context after reset (10_state.md R116, R140). -/
def Enc.reset : Enc := ⟨.idle, 0, 0, 0, 0, 0⟩

/-- The state right after reset of an instance built with `cfg` (10_state.md R140, R141). The values of A0 to A5,
RESULT and RXBUF are the model's (DESIGN CHOICE, log 3, log 4). -/
def State.resetWith (cfg : Config) : State where
  cfg := cfg
  a0 := ⟨0, false⟩
  a1 := ⟨0, false⟩
  a2 := ⟨0, false⟩
  a3 := ⟨0, false⟩
  a4 := ⟨0, false⟩
  a5 := ⟨0, false⟩
  result := 0
  resultWritten := false
  code := .ok
  phase := .idle
  version := 1
  cbValid := false
  cbHandle := 0
  rxIndex := 0
  rxbuf := List.replicate cfg.maxPacketSize 0
  enc := Enc.reset
  delivLen := 0
  fault := none
  mem := []
  hostOps := []
  busData := .none
  draws := 0

/-- The machine right after reset (10_state.md R140, R141), built with the parameters of `Config.launch` (DESIGN CHOICE, log 1). -/
def State.reset : State := State.resetWith Config.launch

end Sys2Proof.Machine
end

