-- ==== Sys2Proof/Machine/Bytes.lean ====
section
/-! DEFINITION. Byte order and free bytes: the assembly of big-endian fields (00_scope.md R21, 20_memory.md R220), the
bytes of a register access made by address, and runs of draws (00_scope.md R24). -/

namespace Sys2Proof.Machine

/-- `be16(b0, b1)` (00_scope.md R21). -/
def be16 (b0 b1 : Byte) : BitVec 16 := b0 ++ b1

/-- `be32(b0, b1, b2, b3)` (00_scope.md R21). -/
def be32 (b0 b1 b2 b3 : Byte) : Word := b0 ++ b1 ++ b2 ++ b3

/-- `bytes_be16(v)` (00_scope.md R21). -/
def bytesBe16 (v : BitVec 16) : List Byte := [v.extractLsb' 8 8, v.extractLsb' 0 8]

/-- `bytes_be32(v)` (00_scope.md R21). -/
def bytesBe32 (v : Word) : List Byte :=
  [v.extractLsb' 24 8, v.extractLsb' 16 8, v.extractLsb' 8 8, v.extractLsb' 0 8]

/-- The 32-bit value that the bytes of a register access made by address carry, in the order of addresses. Only four
bytes carry one: every other access is BusMisuse, whatever its value (10_state.md R132; DESIGN CHOICE, log 20, log 21). -/
def busWord (bs : List Byte) : Word :=
  match bs with
  | [b0, b1, b2, b3] => if Config.busBigEndian then be32 b0 b1 b2 b3 else be32 b3 b2 b1 b0
  | _ => 0

/-- The bytes, in the order of addresses, that a register read made by address gives (DESIGN CHOICE, log 20). -/
def busBytes (v : Word) : List Byte := if Config.busBigEndian then bytesBe32 v else (bytesBe32 v).reverse

/-- `n` draws, the first taken at counter `k` (00_scope.md R24; DESIGN CHOICE, log 6). -/
def freeBytes (k : Nat) : Nat → List Byte
  | 0 => []
  | n + 1 => Config.freeByte k :: freeBytes (k + 1) n

end Sys2Proof.Machine
end

