-- ==== Sys2Proof/Machine/Memory.lean ====
section
/-! DEFINITION. Host memory as a list of cells: the one form it is kept in, the read and the write of one byte, and the
runs of bytes built from them (20_memory.md R221, R222; 00_scope.md R23). -/

namespace Sys2Proof.Machine

/-- The one form of a memory: addresses strictly rising. An unlisted address has no value, so no entry can equal what
an unlisted address reads as. -/
abbrev Memory.wf (m : Memory) : Prop := m.Pairwise fun x y => x.1 < y.1

/-- The byte listed at an address, if there is one. -/
def Memory.find (m : Memory) (a : Nat) : Option Byte :=
  match m with
  | [] => none
  | (k, b) :: rest => if k = a then some b else Memory.find rest a

/-- Write one byte, keeping the order of addresses (00_scope.md R23, `MemWrite`). -/
def Memory.write (m : Memory) (a : Nat) (b : Byte) : Memory :=
  match m with
  | [] => [(a, b)]
  | (k, c) :: rest =>
    if a < k then (a, b) :: (k, c) :: rest
    else if a = k then (a, b) :: rest
    else (k, c) :: Memory.write rest a b

/-- Write bytes at `a`, `a + 1`, … in order. -/
def Memory.writeBytes (m : Memory) (a : Nat) : List Byte → Memory
  | [] => m
  | b :: bs => Memory.writeBytes (m.write a b) (a + 1) bs

/-- The byte at an address: the one written last, or the free launch byte (20_memory.md R222; DESIGN CHOICE, log 5). -/
def Memory.read (m : Memory) (a : Nat) : Byte := (m.find a).getD (Config.launchByte a)

end Sys2Proof.Machine
end

