-- ==== Sys2Proof/Machine/Ops.lean ====
section
/-! DEFINITION. The operations every command is made of: completing with a status (10_state.md R120), raising a fault
(60_exceptions.md R720) and refusing to go on after one (R721), the handover of a frame and its acknowledgement
(42_framer.md R520, R524), and the bytes a command reads and writes (20_memory.md). -/

namespace Sys2Proof.Machine

/-- `complete(c)`: STATUS.CODE <- c, RESULT unchanged (10_state.md R120). -/
def complete (c : Status) (s : State) : State := { s with code := c }

/-- `complete(OK, r)`: RESULT <- r and its mark set, STATUS.CODE <- OK (10_state.md R120). -/
def completeWith (r : Word) (s : State) : State :=
  { s with result := r, resultWritten := true, code := .ok }

/-- `raise Fault(reason)`: FAULT <- Some(reason) and no other effect (60_exceptions.md R720). It is the machine's one
exception, and it has no vector and no saved state (60_exceptions.md R731). -/
def raise (r : FaultReason) (s : State) : Result := .next { s with fault := some r }

/-- Go on only if FAULT = None: a faulted block performs nothing and no operation has a step (60_exceptions.md R721). -/
def unlessFaulted (s : State) (k : Result) : Result :=
  match s.fault with
  | some r => .fault (.halted r)
  | none => k

/-- Go on only if PHASE = Idle; the command `i` during a delivery raises Reentrant with its word (30_encoding.md
R307). -/
def unlessDelivering (i : Instr) (s : State) (k : Result) : Result :=
  match s.phase with
  | .delivering => raise (.reentrant (encode i)) s
  | .idle => k

/-- The handover of a frame of `flen` bytes: DELIV_LEN <- flen, PHASE <- Delivering; STATUS.CODE waits for the
acknowledgement (42_framer.md R520, 10_state.md R107; DEDUCED, log 27). -/
def handOver (flen : Nat) (s : State) : State :=
  { s with delivLen := BitVec.ofNat 32 flen, phase := .delivering }

/-- The return from a delivery: PHASE <- Idle and the open FR.BYTE completes with `c` (42_framer.md R524). -/
def endDelivery (c : Status) (s : State) : State := complete c { s with phase := .idle }

/-- The host address is in HostMem (00_scope.md R15). -/
def State.inHostMem (s : State) (a : Nat) : Bool :=
  s.cfg.hostMem.any fun r => decide (r.base ≤ a ∧ a < r.base + r.size)

/-- The host address is in the RX window (00_scope.md R17). -/
def State.inWindow (s : State) (a : Nat) : Bool :=
  decide (s.cfg.rxBase ≤ a ∧ a < s.cfg.rxBase + s.cfg.maxPacketSize)

/-- The address is a readable byte of the RX window: PHASE = Delivering and i < DELIV_LEN (20_memory.md R215). -/
def State.windowReadable (s : State) (a : Nat) : Bool :=
  s.inWindow a && decide (s.phase = .delivering) && decide (a - s.cfg.rxBase < s.delivLen.toNat)

/-- The address may be a byte of an input span (20_memory.md R213). -/
def State.inputAdmitted (s : State) (a : Nat) : Bool := s.inHostMem a || s.windowReadable a

/-- The address may be a byte of an output span (20_memory.md R214). -/
def State.outputAdmitted (s : State) (a : Nat) : Bool := s.inHostMem a

/-- `MemRead(a, 1)`: a host byte, or RXBUF[i] at RX_BASE + i (00_scope.md R23, 20_memory.md R215). -/
def State.byteAt (s : State) (a : Nat) : Byte :=
  if s.inWindow a then s.rxbuf.getD (a - s.cfg.rxBase) 0 else s.mem.read a

/-- `MemReadSpan`: the `n` bytes from `a` on (00_scope.md R23). -/
def State.bytesFrom (s : State) (a : Nat) : Nat → List Byte
  | 0 => []
  | n + 1 => s.byteAt a :: State.bytesFrom s (a + 1) n

/-- The bytes of a span (20_memory.md R211). -/
def State.readSpan (s : State) (p : Span) : List Byte := s.bytesFrom p.ptr.toNat p.len.toNat

/-- Write bytes to host memory from address `a` on, in order (00_scope.md R23). -/
def storeBytes (a : Nat) (bs : List Byte) (s : State) : State := { s with mem := s.mem.writeBytes a bs }

/-- Make every byte of a span unspecified: `for k in 0 .. n-1: MemWrite(p + k, 1, draw)` (00_scope.md R24). -/
def scrambleSpan (p : Span) (s : State) : State :=
  { s with
    mem := s.mem.writeBytes p.ptr.toNat (freeBytes s.draws p.len.toNat)
    draws := s.draws + p.len.toNat }

/-- Make every byte of RXBUF unspecified, which is how a packet that failed leaves it (42_framer.md R513; DEDUCED, log 13). -/
def scrambleRx (s : State) : State :=
  { s with
    rxbuf := freeBytes s.draws s.cfg.maxPacketSize
    draws := s.draws + s.cfg.maxPacketSize }

end Sys2Proof.Machine
end

