-- ==== Sys2Proof/Machine/Operands.lean ====
section
/-! DEFINITION. The operands of commands: the argument registers with their written marks (10_state.md R101, R103;
30_encoding.md R310), and the checks on spans in their order (20_memory.md R212 to R218). -/

namespace Sys2Proof.Machine

/-- Argument register Ai (10_state.md R101). -/
def State.arg (s : State) : ArgIdx → ArgReg
  | .a0 => s.a0
  | .a1 => s.a1
  | .a2 => s.a2
  | .a3 => s.a3
  | .a4 => s.a4
  | .a5 => s.a5

/-- The host's write of Ai, which sets its written mark (10_state.md R102, R103). -/
def setArg (i : ArgIdx) (v : Word) (s : State) : State :=
  match i with
  | .a0 => { s with a0 := ⟨v, true⟩ }
  | .a1 => { s with a1 := ⟨v, true⟩ }
  | .a2 => { s with a2 := ⟨v, true⟩ }
  | .a3 => { s with a3 := ⟨v, true⟩ }
  | .a4 => { s with a4 := ⟨v, true⟩ }
  | .a5 => { s with a5 := ⟨v, true⟩ }

/-- The argument registers a command reads, in the order A0 to A5 (30_encoding.md R310). -/
def commandArgs : Instr → List ArgIdx
  | .crc32 => [.a0, .a1]
  | .cobsBegin => [.a0, .a1]
  | .cobsPut _ => []
  | .cobsEnd => []
  | .cobsEnc2 => [.a0, .a1, .a2, .a3, .a4, .a5]
  | .cobsDec => [.a0, .a1]
  | .frPkt => [.a0, .a1, .a2, .a3]
  | .frByte _ => []
  | .frReg => [.a0]
  | .fbBuild _ => [.a0, .a1, .a2, .a3, .a4]

/-- The first of the listed argument registers whose written mark is clear (30_encoding.md R310). -/
def State.firstUnwritten (s : State) (is : List ArgIdx) : Option ArgIdx :=
  is.find? fun i => !(s.arg i).written

/-- Go on only if the listed argument registers are written; else raise UnwrittenArg (10_state.md R103). -/
def withArgs (is : List ArgIdx) (s : State) (k : Result) : Result :=
  match s.firstUnwritten is with
  | some i => raise (.unwrittenArg i) s
  | none => k

/-- The span held in two argument registers (20_memory.md R211). -/
def State.span (s : State) (p n : ArgIdx) : Span := ⟨(s.arg p).value, (s.arg n).value⟩

/-- The span passes the top of the address space: n > 0 and p + n > 2^32 (20_memory.md R212). -/
def Span.wraps (p : Span) : Bool :=
  decide (0 < p.len.toNat ∧ 2 ^ 32 < p.ptr.toNat + p.len.toNat)

/-- The first of the `n` addresses from `a` on for which `ok` fails. -/
def firstRefused (ok : Nat → Bool) (a : Nat) : Nat → Option Nat
  | 0 => none
  | n + 1 => if ok a then firstRefused ok (a + 1) n else some a

/-- The first byte of a span for which `ok` fails. -/
def Span.firstRefused (p : Span) (ok : Nat → Bool) : Option Nat :=
  Machine.firstRefused ok p.ptr.toNat p.len.toNat

/-- The two spans have a byte in common (20_memory.md R217); a span of length 0 names no byte (R211). -/
def Span.overlaps (p q : Span) : Bool :=
  decide (0 < p.len.toNat ∧ 0 < q.len.toNat ∧
    p.ptr.toNat < q.ptr.toNat + q.len.toNat ∧ q.ptr.toNat < p.ptr.toNat + p.len.toNat)

/-- 20_memory.md R212 over spans in operand order. -/
def wrapFault (ps : List Span) : Option FaultReason :=
  (ps.find? Span.wraps).map fun p => .spanWrap p.ptr p.len

/-- 20_memory.md R213 over the input spans in operand order. -/
def inputFault (s : State) (ps : List Span) : Option FaultReason :=
  (ps.findSome? fun p => p.firstRefused s.inputAdmitted).map .memNotAdmitted

/-- 20_memory.md R214 over the output spans in operand order. -/
def outputFault (s : State) (ps : List Span) : Option FaultReason :=
  (ps.findSome? fun p => p.firstRefused s.outputAdmitted).map .memNotAdmitted

/-- 20_memory.md R217: the first input span the output span overlaps (DEDUCED, log 19). -/
def overlapFault (ins : List Span) (out : Span) : Option FaultReason :=
  (ins.find? fun p => out.overlaps p).map fun p => .spanOverlap out p

/-- The fault of a command with one input span and no output (20_memory.md R218). -/
def readFault (s : State) (ins : List Span) : Option FaultReason :=
  wrapFault ins <|> inputFault s ins

/-- The fault of a command with one output span, in place or not (20_memory.md R218). -/
def writeFault (s : State) (out : Span) : Option FaultReason :=
  wrapFault [out] <|> outputFault s [out]

/-- The fault of a command with input spans and one output span that must not overlap them: rules R212, R213, R214 and
R217, in that order (20_memory.md R218). -/
def copyFault (s : State) (ins : List Span) (out : Span) : Option FaultReason :=
  wrapFault (ins ++ [out]) <|> inputFault s ins <|> outputFault s [out] <|> overlapFault ins out

/-- Go on only if the span checks found no fault. -/
def onceAdmitted (f : Option FaultReason) (s : State) (k : Result) : Result :=
  match f with
  | some r => raise r s
  | none => k

end Sys2Proof.Machine
end

