-- ==== Sys2Proof/Machine/Cobs.lean ====
section
/-! DEFINITION. The COBS encoder and decoder (41_cobs.md): the four encoder helpers of R450 over a context and host
memory, the in-place decoder of R475, and the commands COBS.BEGIN, COBS.PUT, COBS.END, COBS.ENC2 and COBS.DEC. -/

namespace Sys2Proof.Machine

/-- What an encoder helper leaves: whether it succeeded, the context and host memory (41_cobs.md R450). -/
structure EncStep where
  ok  : Bool
  enc : Enc
  mem : Memory
deriving DecidableEq, Repr

/-- `EncBegin` past its null check, the placeholder byte given (41_cobs.md R450). -/
def encBegin (out cap : Word) (placeholder : Byte) (m : Memory) : EncStep :=
  ⟨true, ⟨.active, out, cap, 0, 1, 1⟩, m.write out.toNat placeholder⟩

/-- `EncFlush`: store the code, open a group, fail if no slot is left (41_cobs.md R450). -/
def encFlush (e : Enc) (m : Memory) : EncStep :=
  let m := m.write (e.out.toNat + e.ci.toNat) e.code
  let e := { e with ci := e.wi }
  if e.cap ≤ e.wi then ⟨false, { e with state := .failed }, m⟩
  else ⟨true, { e with wi := e.wi + 1, code := 1 }, m⟩

/-- `EncPut` (41_cobs.md R450). When the flush after a 254th byte fails, the data byte, the write index and the code
already written stay, as the pseudocode leaves them (41_cobs.md R456; DEDUCED, log 12). The span was admitted by COBS.BEGIN and is
not checked again (41_cobs.md R455; DEDUCED, log 26). -/
def encPut (e : Enc) (m : Memory) (b : Byte) : EncStep :=
  if e.state ≠ .active then ⟨false, e, m⟩
  else if b = 0 then encFlush e m
  else if e.cap ≤ e.wi then ⟨false, { e with state := .failed }, m⟩
  else
    let m := m.write (e.out.toNat + e.wi.toNat) b
    let e := { e with wi := e.wi + 1, code := e.code + 1 }
    if e.code = 0xFF then encFlush e m else ⟨true, e, m⟩

/-- `EncEnd` on an active context; the encoded length is `e.wi` (41_cobs.md R450). -/
def encEnd (e : Enc) (m : Memory) : EncStep :=
  ⟨true, { e with state := .idle }, m.write (e.out.toNat + e.ci.toNat) e.code⟩

/-- `EncPut` over a sequence, stopping at the first failure (41_cobs.md R465). -/
def encPutAll (e : Enc) (m : Memory) : List Byte → EncStep
  | [] => ⟨true, e, m⟩
  | b :: bs =>
    let r := encPut e m b
    if r.ok then encPutAll r.enc r.mem bs else r

/-- The context and memory after an encoder helper, in a state whose architected context it worked on. -/
def withEnc (r : EncStep) (s : State) : State := { s with enc := r.enc, mem := r.mem }

/-- COBS.BEGIN (41_cobs.md R451). -/
def execCobsBegin (s : State) : Result :=
  unlessFaulted s <| withArgs (commandArgs .cobsBegin) s <|
    let p := s.span .a0 .a1
    if p.ptr = 0 ∨ p.len = 0 then
      .next (complete .invalidParameter { s with enc := { s.enc with state := .failed } })
    else onceAdmitted (writeFault s p) s <|
      .next (complete .ok
        (withEnc (encBegin p.ptr p.len (Config.freeByte s.draws) s.mem) { s with draws := s.draws + 1 }))

/-- COBS.PUT (41_cobs.md R455). -/
def execCobsPut (b : Byte) (s : State) : Result :=
  unlessFaulted s <| withArgs (commandArgs (.cobsPut b)) s <|
    if s.enc.state ≠ .active then .next (complete .invalidParameter s)
    else
      let r := encPut s.enc s.mem b
      .next (complete (if r.ok then .ok else .invalidParameter) (withEnc r s))

/-- COBS.END (41_cobs.md R460). -/
def execCobsEnd (s : State) : Result :=
  unlessFaulted s <| withArgs (commandArgs .cobsEnd) s <|
    if s.enc.state ≠ .active then .next (complete .invalidParameter s)
    else .next (completeWith s.enc.wi (withEnc (encEnd s.enc s.mem) s))

/-- An encoding of `bs` by an encoder of the command's own into `(out, cap)`, from EncBegin to EncEnd; `none` if a step
fails (41_cobs.md R465). It draws the placeholder. -/
def encodeSpan (out cap : Word) (bs : List Byte) (s : State) : Option (Word × State) :=
  let b := encBegin out cap (Config.freeByte s.draws) s.mem
  let r := encPutAll b.enc b.mem bs
  if r.ok then some (r.enc.wi, { s with mem := (encEnd r.enc r.mem).mem, draws := s.draws + 1 }) else none

/-- COBS.ENC2 (41_cobs.md R465). -/
def execCobsEnc2 (s : State) : Result :=
  unlessFaulted s <| withArgs (commandArgs .cobsEnc2) s <|
    let p1 := s.span .a0 .a1
    let p2 := s.span .a2 .a3
    let out := s.span .a4 .a5
    if out.ptr = 0 ∨ out.len = 0 then .next (complete .invalidParameter s)
    else if p1.len ≠ 0 ∧ p1.ptr = 0 then .next (complete .invalidParameter s)
    else if p2.len ≠ 0 ∧ p2.ptr = 0 then .next (complete .invalidParameter s)
    else onceAdmitted (copyFault s [p1, p2] out) s <|
      match encodeSpan out.ptr out.len (s.readSpan p1 ++ s.readSpan p2) s with
      | some (len, t) => .next (completeWith len t)
      | none => .next (complete .invalidParameter (scrambleSpan out s))

/-- A decoding in progress: the buffer, the read index and the write index (41_cobs.md R475). -/
structure Dec where
  buf : List Byte
  r   : Nat
  w   : Nat
deriving DecidableEq, Repr

/-- `B[i]`. -/
def Dec.at (d : Dec) (i : Nat) : Byte := d.buf.getD i 0

/-- `B[w] <- v ; w <- w + 1` (41_cobs.md R475). -/
def Dec.emit (d : Dec) (v : Byte) : Dec := { d with buf := d.buf.set d.w v, w := d.w + 1 }

/-- `for k in 1 .. code-1`: copy the data bytes of a group (41_cobs.md R475). -/
def decodeGroup (n : Nat) : Nat → Dec → Option Dec
  | 0, d => some d
  | k + 1, d =>
    if d.r = n then none
    else if d.at d.r = 0 then none
    else decodeGroup n k { d.emit (d.at d.r) with r := d.r + 1 }

/-- `while r < n`, for at most the given number of groups (41_cobs.md R475). -/
def decodeLoop (n : Nat) : Nat → Dec → Option Dec
  | 0, d => if d.r < n then none else some d
  | fuel + 1, d =>
    if d.r < n then
      let code := d.at d.r
      if code = 0 then none
      else
        (decodeGroup n (code.toNat - 1) { d with r := d.r + 1 }).bind fun d =>
          decodeLoop n fuel (if code ≠ 0xFF ∧ d.r < n then d.emit 0 else d)
    else some d

/-- `Decode(B, n)` in place: the buffer afterwards and the decoded length (41_cobs.md R475). Every group reads at least
its code byte, so `n` groups are enough (70_reset_and_hazards.md R841). -/
def cobsDecode (buf : List Byte) (n : Nat) : Option (List Byte × Nat) :=
  if n = 0 then none
  else (decodeLoop n n ⟨buf, 0, 0⟩).map fun d => (d.buf, d.w)

/-- COBS.DEC (41_cobs.md R480). On success the bytes written are those below the decoded length (41_cobs.md R476;
DEDUCED, log 14). -/
def execCobsDec (s : State) : Result :=
  unlessFaulted s <| withArgs (commandArgs .cobsDec) s <|
    let p := s.span .a0 .a1
    if p.len = 0 then .next (complete .cobsDecodeFailed s)
    else if p.ptr = 0 then .next (complete .invalidParameter s)
    else onceAdmitted (writeFault s p) s <|
      match cobsDecode (s.readSpan p) p.len.toNat with
      | none => .next (complete .cobsDecodeFailed (scrambleSpan p s))
      | some (buf, w) => .next (completeWith (BitVec.ofNat 32 w) (storeBytes p.ptr.toNat (buf.take w) s))

end Sys2Proof.Machine
end

