-- ==== Sys2Proof/Machine/Crc.lean ====
section
/-! DEFINITION. CRC-32/ISO-HDLC (40_crc.md): the bit-serial function of R401, the table form of R402, and the command
CRC32 of R410. -/

namespace Sys2Proof.Machine

/-- The reflected polynomial (40_crc.md R400). -/
def crcPoly : Word := 0xEDB88320

/-- One shift step: `if c[0] == 1: c <- (c >> 1) ^ 0xEDB88320 else: c <- c >> 1` (40_crc.md R401). -/
def crcShift (c : Word) : Word := if c.getLsbD 0 then (c >>> 1) ^^^ crcPoly else c >>> 1

/-- `repeat 8 times` (40_crc.md R401). -/
def crcShift8 (c : Word) : Word :=
  crcShift (crcShift (crcShift (crcShift (crcShift (crcShift (crcShift (crcShift c)))))))

/-- One byte: it enters at bits 7:0, then eight shift steps (40_crc.md R401). -/
def crcByte (c : Word) (b : Byte) : Word := crcShift8 (c ^^^ b.zeroExtend 32)

/-- CRC32(s) (40_crc.md R401). -/
def crc32 (s : List Byte) : Word := s.foldl crcByte 0xFFFFFFFF ^^^ 0xFFFFFFFF

/-- The entry T[k] of the 256-entry table (40_crc.md R402). -/
def crcEntry (k : Byte) : Word := crcShift8 (k.zeroExtend 32)

/-- One byte by the table: `c <- (c >> 8) ^ T[(c ^ s[i])[7:0]]` (40_crc.md R402). -/
def crcByteTable (c : Word) (b : Byte) : Word :=
  (c >>> 8) ^^^ crcEntry ((c ^^^ b.zeroExtend 32).extractLsb' 0 8)

/-- CRC32 by the table form (40_crc.md R402). -/
def crc32Table (s : List Byte) : Word := s.foldl crcByteTable 0xFFFFFFFF ^^^ 0xFFFFFFFF

/-- CRC32 (40_crc.md R410). -/
def execCrc32 (s : State) : Result :=
  unlessFaulted s <| withArgs (commandArgs .crc32) s <|
    let p := s.span .a0 .a1
    if p.len ≠ 0 ∧ p.ptr = 0 then .next (complete .invalidParameter s)
    else onceAdmitted (readFault s [p]) s <|
      .next (completeWith (crc32 (s.readSpan p)) s)

end Sys2Proof.Machine
end

