-- ==== Sys2Proof/Machine/FrameBuilder.lean ====
section
/-! DEFINITION. The frame header builder FB.BUILD (43_frame_builder.md). -/

namespace Sys2Proof.Machine

/-- The 8-byte frame header: version, msg_id, msg_hash and len, big-endian (43_frame_builder.md R600, R602). -/
def frameHeader (version id : Byte) (hash : Word) (len : Nat) : List Byte :=
  [version, id] ++ bytesBe32 hash ++ bytesBe16 (BitVec.ofNat 16 len)

/-- FB.BUILD (43_frame_builder.md R601). -/
def execFbBuild (id : Byte) (s : State) : Result :=
  unlessFaulted s <| withArgs (commandArgs (.fbBuild id)) s <|
    let payload := s.span .a1 .a2
    let out := s.span .a3 .a4
    if out.ptr = 0 then .next (complete .invalidParameter s)
    else if payload.len ≠ 0 ∧ payload.ptr = 0 then .next (complete .invalidParameter s)
    else if 65535 < payload.len.toNat then .next (complete .invalidParameter s)
    else if out.len.toNat < 8 + payload.len.toNat then .next (complete .invalidParameter s)
    else onceAdmitted (copyFault s [payload] out) s <|
      let header := frameHeader s.version id (s.arg .a0).value payload.len.toNat
      .next (completeWith (BitVec.ofNat 32 (8 + payload.len.toNat))
        (storeBytes out.ptr.toNat (header ++ s.readSpan payload) s))

end Sys2Proof.Machine
end

