-- ==== Sys2Proof/Machine/Framer.lean ====
section
/-! DEFINITION. The framer (42_framer.md): the receive state machine FR.BYTE with its delivery, the consumer's
registration FR.REG, and the packet builder FR.PKT. -/

namespace Sys2Proof.Machine

/-- The CRC a decoded packet of `w` bytes carries: `be32(decoded[w-4..w])` (42_framer.md R512). -/
def receivedCrc (buf : List Byte) (w : Nat) : Word :=
  be32 (buf.getD (w - 4) 0) (buf.getD (w - 4 + 1) 0) (buf.getD (w - 4 + 2) 0) (buf.getD (w - 4 + 3) 0)

/-- A packet that failed: its status, RX_INDEX = 0 and RXBUF unspecified (42_framer.md R512, R513). -/
def dropPacket (c : Status) (s : State) : State := complete c (scrambleRx { s with rxIndex := 0 })

/-- A delimiter: idle, or the end of a packet, whose index is reset before any check (42_framer.md R510 to R513, R520,
R521). -/
def frDelimiter (s : State) : Result :=
  if s.rxIndex = 0 then .next (complete .ok s)
  else
    match cobsDecode s.rxbuf s.rxIndex with
    | none => .next (dropPacket .cobsDecodeFailed s)
    | some (buf, w) =>
      if w < 4 then .next (dropPacket .frameHeaderSize s)
      else if crc32 (buf.take (w - 4)) ≠ receivedCrc buf w then .next (dropPacket .crcMismatch s)
      else
        let s := { s with rxIndex := 0, rxbuf := buf }
        if s.cbValid then .next (handOver (w - 4) s) else .next (complete .invalidParameter s)

/-- A non-zero byte: append it, or on overflow drop it and reset the index (42_framer.md R514, R515). -/
def frAppend (b : Byte) (s : State) : Result :=
  if s.rxIndex = s.cfg.maxPacketSize then .next (complete .frameTooLarge { s with rxIndex := 0 })
  else .next (complete .ok { s with rxbuf := s.rxbuf.set s.rxIndex b, rxIndex := s.rxIndex + 1 })

/-- FR.BYTE (42_framer.md R510). -/
def execFrByte (b : Byte) (s : State) : Result :=
  unlessFaulted s <| unlessDelivering (.frByte b) s <| withArgs (commandArgs (.frByte b)) s <|
    if b = 0 then frDelimiter s else frAppend b s

/-- FR.REG (42_framer.md R530). -/
def execFrReg (s : State) : Result :=
  unlessFaulted s <| unlessDelivering .frReg s <| withArgs (commandArgs .frReg) s <|
    let h := (s.arg .a0).value
    if h = 0 then .next (complete .invalidParameter s)
    else .next (complete .ok { s with cbHandle := h, cbValid := true })

/-- FR.PKT (42_framer.md R540, R541). -/
def execFrPkt (s : State) : Result :=
  unlessFaulted s <| withArgs (commandArgs .frPkt) s <|
    let f := s.span .a0 .a1
    let pk := s.span .a2 .a3
    if f.ptr = 0 ∨ pk.ptr = 0 then .next (complete .invalidParameter s)
    else if pk.len < 2 then .next (complete .invalidParameter s)
    else onceAdmitted (copyFault s [f] pk) s <|
      let frame := s.readSpan f
      match encodeSpan pk.ptr (pk.len - 1) (frame ++ bytesBe32 (crc32 frame)) s with
      | some (len, t) =>
        .next (completeWith (len + 1) (storeBytes (pk.ptr.toNat + len.toNat) [0] t))
      | none => .next (complete .invalidParameter (scrambleSpan pk s))

end Sys2Proof.Machine
end

