-- ==== Sys2Proof/Machine/Dispatch.lean ====
section
/-! DEFINITION. The performance of a legal command by the rule 30_encoding.md R305 names for it. -/

namespace Sys2Proof.Machine

/-- Perform a command (30_encoding.md R300, R305). -/
def exec (i : Instr) (s : State) : Host.Outcome State Fault Refusal :=
  match i with
  | .crc32 => Sys2Proof.Machine.execCrc32 s
  | .cobsBegin => Sys2Proof.Machine.execCobsBegin s
  | .cobsPut b => Sys2Proof.Machine.execCobsPut b s
  | .cobsEnd => Sys2Proof.Machine.execCobsEnd s
  | .cobsEnc2 => Sys2Proof.Machine.execCobsEnc2 s
  | .cobsDec => Sys2Proof.Machine.execCobsDec s
  | .frPkt => Sys2Proof.Machine.execFrPkt s
  | .frByte b => Sys2Proof.Machine.execFrByte b s
  | .frReg => Sys2Proof.Machine.execFrReg s
  | .fbBuild id => Sys2Proof.Machine.execFbBuild id s

end Sys2Proof.Machine
end

