-- ==== Sys2Proof/Machine/Flags.lean ====
section
/-! DEFINITION. STATUS and its fields: the numeric codes (60_exceptions.md R700) and the register's value
(10_state.md R105 to R109). There are no arithmetic flags (R106). -/

namespace Sys2Proof.Machine

/-- The numeric status code (60_exceptions.md R700). -/
def Status.toCode : Status → Byte
  | .ok => 0
  | .frameTooLarge => 1
  | .cobsDecodeFailed => 2
  | .crcMismatch => 3
  | .frameHeaderSize => 4
  | .msgVersionMismatch => 5
  | .msgIdUnknown => 6
  | .msgLengthMismatch => 7
  | .invalidParameter => 8
  | .transportError => 9

/-- The ten statuses in the order of their codes (60_exceptions.md R700). -/
def Status.all : List Status :=
  [.ok, .frameTooLarge, .cobsDecodeFailed, .crcMismatch, .frameHeaderSize, .msgVersionMismatch, .msgIdUnknown,
   .msgLengthMismatch, .invalidParameter, .transportError]

/-- The status an acknowledgement value stands for: bits 31:8 zero and bits 7:0 at most 9 (42_framer.md R524, R525). -/
def Status.ofWord (v : Word) : Option Status := Status.all.find? fun c => v == c.toCode.zeroExtend 32

/-- STATUS.DELIV: 1 exactly when PHASE = Delivering (10_state.md R108). -/
def State.deliv (s : State) : Bool := decide (s.phase = .delivering)

/-- STATUS: CODE in bits 7:0, DELIV in bit 8, CB_VALID in bit 9, 0 above (10_state.md R105, R108, R109). -/
def State.status (s : State) : Word :=
  (0 : BitVec 22) ++ BitVec.ofBool s.cbValid ++ BitVec.ofBool s.deliv ++ s.code.toCode

/-- ENC_STATE as its two-bit field (10_state.md R117). -/
def EncState.toCode : EncState → BitVec 2
  | .idle => 0
  | .active => 1
  | .failed => 2

end Sys2Proof.Machine
end

