-- ==== Sys2Proof/Machine/Bus.lean ====
section
/-! DEFINITION. The host's bus operations: the register file (10_state.md R130 to R133), the issue of a command
(30_encoding.md R300), the acknowledgement of a delivery (42_framer.md R524), host memory and the RX window
(20_memory.md R215, R216, R222), reset (70_reset_and_hazards.md R800 to R803), and the host's `chk` (30_encoding.md
R321). -/

namespace Sys2Proof.Machine

/-- The registers of the register file (10_state.md R130). -/
inductive Reg where
  | cmd
  | status
  | result
  | arg (i : ArgIdx)
  | version
  | cbHandle
  | rxIndex
  | encState
  | encCode
  | encCi
  | encWi
  | encOut
  | encCap
  | delivLen
  | delivAck
  | cfgMaxpkt
  | cfgRxbase
deriving DecidableEq, Repr

/-- The offset of a register from REG_BASE (10_state.md R130). -/
def Reg.offset : Reg → Nat
  | .cmd => 0x00
  | .status => 0x04
  | .result => 0x08
  | .arg .a0 => 0x0C
  | .arg .a1 => 0x10
  | .arg .a2 => 0x14
  | .arg .a3 => 0x18
  | .arg .a4 => 0x1C
  | .arg .a5 => 0x20
  | .version => 0x24
  | .cbHandle => 0x28
  | .rxIndex => 0x2C
  | .encState => 0x30
  | .encCode => 0x34
  | .encCi => 0x38
  | .encWi => 0x3C
  | .encOut => 0x40
  | .encCap => 0x44
  | .delivLen => 0x48
  | .delivAck => 0x4C
  | .cfgMaxpkt => 0x50
  | .cfgRxbase => 0x54

/-- Every register, in the order of the map (10_state.md R130). -/
def Reg.all : List Reg :=
  [.cmd, .status, .result, .arg .a0, .arg .a1, .arg .a2, .arg .a3, .arg .a4, .arg .a5, .version, .cbHandle,
   .rxIndex, .encState, .encCode, .encCi, .encWi, .encOut, .encCap, .delivLen, .delivAck, .cfgMaxpkt, .cfgRxbase]

/-- The access column has R (10_state.md R130). -/
def Reg.readable : Reg → Bool
  | .cmd => false
  | .delivAck => false
  | _ => true

/-- The access column has W (10_state.md R130). -/
def Reg.writable : Reg → Bool
  | .cmd => true
  | .arg _ => true
  | .version => true
  | .delivAck => true
  | _ => false

/-- The register an access of `width` bits at `offset` reaches: 32 bits wide at an offset of the map (10_state.md
R131). Every other offset or width reaches none (R132). -/
def Reg.select (offset width : Nat) : Option Reg :=
  if width = 32 then Reg.all.find? fun r => r.offset == offset else none

/-- The register that a read of `width` bits at `offset` may read (10_state.md R131, R132). -/
def Reg.forRead (offset width : Nat) : Option Reg := (Reg.select offset width).filter Reg.readable

/-- The register that a write of `width` bits at `offset` may write (10_state.md R131, R132). -/
def Reg.forWrite (offset width : Nat) : Option Reg := (Reg.select offset width).filter Reg.writable

/-- The value a read of a register returns (10_state.md R130); CMD and DELIV_ACK are never read. -/
def State.regValue (s : State) : Reg → Word
  | .cmd => 0
  | .status => s.status
  | .result => s.result
  | .arg i => (s.arg i).value
  | .version => s.version.zeroExtend 32
  | .cbHandle => s.cbHandle
  | .rxIndex => BitVec.ofNat 32 s.rxIndex
  | .encState => s.enc.state.toCode.zeroExtend 32
  | .encCode => s.enc.code.zeroExtend 32
  | .encCi => s.enc.ci
  | .encWi => s.enc.wi
  | .encOut => s.enc.out
  | .encCap => s.enc.cap
  | .delivLen => s.delivLen
  | .delivAck => 0
  | .cfgMaxpkt => BitVec.ofNat 32 s.cfg.maxPacketSize
  | .cfgRxbase => BitVec.ofNat 32 s.cfg.rxBase

/-- The fault of reading a register whose written mark is clear (10_state.md R103, R104, R131). -/
def State.unwrittenFault (s : State) : Reg → Option FaultReason
  | .arg i => if (s.arg i).written then none else some (.unwrittenArg i)
  | .result => if s.resultWritten then none else some .unwrittenResult
  | _ => none

/-- What a register read gives: a value, or a fault (10_state.md R131, R132; 60_exceptions.md R722). -/
def State.readReg (s : State) (offset width : Nat) : Except FaultReason Word :=
  match Reg.forRead offset width with
  | none => .error (.busMisuse offset width .read)
  | some r =>
    match s.unwrittenFault r with
    | some f => .error f
    | none => .ok (s.regValue r)

/-- A register read by the host, without side effect on the block (10_state.md R131, R133). -/
def hostRead (offset width : Nat) (s : State) : Result :=
  match s.readReg offset width with
  | .error f => raise f s
  | .ok v => .next { s with busData := .word v }

/-- `chk REG, mask, v`: the host reads and goes on only if the masked value is `v`; otherwise its program stops there,
which drops the operations to come (30_encoding.md R321; DEDUCED, log 17). -/
def hostChk (offset : Nat) (mask value : Word) (s : State) : Result :=
  match s.readReg offset 32 with
  | .error f => raise f s
  | .ok v =>
    if v &&& mask = value then .next { s with busData := .word v }
    else .next { s with busData := .word v, hostOps := [] }

/-- The issue of a command: an illegal word raises IllegalCommand, a legal one is performed (30_encoding.md R300, R306). -/
def issueCommand (w : Word) (s : State) : Result :=
  match decode w with
  | .error _ => raise (.illegalCommand w) s
  | .ok i => exec i s

/-- The DELIV_ACK write (42_framer.md R524, R525). -/
def acknowledge (v : Word) (s : State) : Result :=
  match s.phase with
  | .idle => raise (.ackWithoutDelivery v) s
  | .delivering =>
    match Status.ofWord v with
    | none => raise (.badAckCode v) s
    | some c => .next (endDelivery c s)

/-- A register write by the host (10_state.md R131, R132). -/
def hostWrite (offset width : Nat) (v : Word) (s : State) : Result :=
  match Reg.forWrite offset width with
  | some .cmd => issueCommand v s
  | some (.arg i) => .next (setArg i v s)
  | some .version => .next { s with version := v.extractLsb' 0 8 }
  | some .delivAck => acknowledge v s
  | _ => raise (.busMisuse offset width .write) s

/-- Where a host access of `n` bytes at the address `a` goes. -/
inductive HostTarget where
  /-- Every byte is in HostMem (20_memory.md R222), or the access has no byte (DESIGN CHOICE, log 29). -/
  | memory
  /-- Some byte is in the RX window, the first at this address (20_memory.md R216). -/
  | window (address : Nat)
  /-- No byte is in the RX window and some byte is in the register file (10_state.md R131, R132). -/
  | registers
  /-- No byte is in the RX window or the register file and some byte is outside HostMem, the first at this address
  (DESIGN CHOICE, log 9). -/
  | outside (address : Nat)
deriving DecidableEq, Repr

/-- The host address is in the register file (00_scope.md R16). -/
def State.inRegFile (s : State) (a : Nat) : Bool :=
  decide (s.cfg.regBase ≤ a ∧ a < s.cfg.regBase + Config.regSize)

/-- The target of a host access by address (10_state.md R131, R132; 20_memory.md R216, R223). Two points are the model's:
an access that touches the RX window goes there, also when it touches the register file or bytes outside the map, and the
address it is known by is that of its first byte in the window, also when it begins before the window (DESIGN CHOICE,
log 28); an access of no bytes touches nothing (DESIGN CHOICE, log 29). -/
def State.hostTarget (s : State) (a n : Nat) : HostTarget :=
  match firstRefused (fun x => !s.inWindow x) a n with
  | some x => .window x
  | none =>
    match firstRefused (fun x => !s.inRegFile x) a n with
    | some _ => .registers
    | none =>
      match firstRefused s.inHostMem a n with
      | some x => .outside x
      | none => .memory

/-- A host write of bytes at an address that touches the register file: the register write of that offset and width
(10_state.md R131, R132), its value by `busWord`; one that begins below the file is BusMisuse at offset 0 (DESIGN CHOICE,
log 20). -/
def hostRegWrite (a : Nat) (bs : List Byte) (s : State) : Result :=
  if a < s.cfg.regBase then raise (.busMisuse 0 (8 * bs.length) .write) s
  else hostWrite (a - s.cfg.regBase) (8 * bs.length) (busWord bs) s

/-- A host read of `n` bytes at an address that touches the register file: the register read of that offset and width
(10_state.md R131, R132), its bytes by `busBytes`; one that begins below the file is BusMisuse at offset 0 (DESIGN CHOICE,
log 20). -/
def hostRegRead (a n : Nat) (s : State) : Result :=
  if a < s.cfg.regBase then raise (.busMisuse 0 (8 * n) .read) s
  else
    match s.readReg (a - s.cfg.regBase) (8 * n) with
    | .error f => raise f s
    | .ok v => .next { s with busData := .bytes (busBytes v) }

/-- A host write of bytes by address: to host memory, or to the register file; the RX window is never written (20_memory.md
R216, R222; 10_state.md R131). -/
def hostMemWrite (a : Word) (bs : List Byte) (s : State) : Result :=
  match s.hostTarget a.toNat bs.length with
  | .memory => .next (storeBytes a.toNat bs s)
  | .window x => raise (.rxWindowMisuse x .write) s
  | .registers => hostRegWrite a.toNat bs s
  | .outside x => .refused (.addressOutsideMap x)

/-- A host read of `n` bytes by address: from host memory, of one readable byte of the RX window, or from the register
file (20_memory.md R215, R216; 10_state.md R131). -/
def hostMemRead (a : Word) (n : Nat) (s : State) : Result :=
  match s.hostTarget a.toNat n with
  | .memory => .next { s with busData := .bytes (s.bytesFrom a.toNat n) }
  | .window x =>
    if n = 1 ∧ s.windowReadable a.toNat then .next { s with busData := .bytes (s.bytesFrom a.toNat n) }
    else raise (.rxWindowMisuse x .read) s
  | .registers => hostRegRead a.toNat n s
  | .outside x => .refused (.addressOutsideMap x)

/-- Reset: the state of 10_state.md R140 and R141 for the same construction constants, host memory untouched
(70_reset_and_hazards.md R800 to R803); the host's own fields and the draw counter stay (DESIGN CHOICE, log 18). -/
def hostReset (s : State) : State :=
  { State.resetWith s.cfg with mem := s.mem, hostOps := s.hostOps, busData := s.busData, draws := s.draws }

/-- Perform one host operation. Once FAULT ≠ None only reset has a step (60_exceptions.md R721, R722; DEDUCED, log 8). -/
def perform (op : HostOp) (s : State) : Result :=
  match op with
  | .wr offset width v => unlessFaulted s (hostWrite offset width v s)
  | .rd offset width => unlessFaulted s (hostRead offset width s)
  | .chk offset mask v => unlessFaulted s (hostChk offset mask v s)
  | .memWr a bs => unlessFaulted s (hostMemWrite a bs s)
  | .memRd a n => unlessFaulted s (hostMemRead a n s)
  | .reset => .next (hostReset s)

/-- The host operation that issues the command word `w` (30_encoding.md R321). -/
def issueOp (w : Word) : HostOp := .wr 0x00 32 w

/-- The command word of an opcode-table row, its bits above `nbits` zero (30_encoding.md R301). -/
def tableWord (nbits w : Nat) : Word := BitVec.ofNat 32 (w % 2 ^ nbits)

/-- One step: the host's next operation; with none left the block waits and keeps its state (70_reset_and_hazards.md
R804, 60_exceptions.md R745; DEDUCED, log 16). -/
def hostStep (s : State) : Result :=
  match s.hostOps with
  | [] => .next s
  | op :: rest => perform op { s with hostOps := rest }

end Sys2Proof.Machine
end

