-- ==== Sys2Proof/Machine/Step.lean ====
section
/-! DEFINITION. The machine's step: one bus operation of the host (20_memory.md R230, R231), and the placing of a command
word where the next step takes it. -/

namespace Sys2Proof.Machine

/-- One step (20_memory.md R230). -/
def step (s : State) : Host.Outcome State Fault Refusal := hostStep s

/-- `s` with the command word of an opcode-table row written to CMD by the host's next operation. The block fetches
nothing; the host's list of operations is where a step takes its next command (10_state.md R110; DESIGN CHOICE, log 2). -/
def State.withFetchWord (s : State) (nbits w : Nat) : State :=
  { s with hostOps := issueOp (tableWord nbits w) :: s.hostOps }

end Sys2Proof.Machine
end

