-- ==== Sys2Proof/Machine/Assembly.lean ====
section
/-! DEFINITION. The assembler (30_encoding.md R320 to R322): command lines, host operations and pseudo-instructions, each
expanded into the bus operations it stands for. `none` is an assembly error. -/

namespace Sys2Proof.Machine

/-- A line of a host program (30_encoding.md R320 to R322); numbers are as written, before any range check. -/
inductive AsmLine where
  | crc32
  | cobsBegin
  | cobsPut (b : Nat)
  | cobsEnd
  | cobsEnc2
  | cobsDec
  | frPkt
  | frByte (b : Nat)
  | frReg
  | fbBuild (id : Nat)
  /-- `wr REG, v` (R321). -/
  | wr (reg : Reg) (v : Word)
  /-- `rd REG` (R321). -/
  | rd (reg : Reg)
  /-- `ack c` (R321). -/
  | ack (c : Word)
  /-- `mem.wr a, b0 b1 ...` (R321). -/
  | memWr (a : Word) (bytes : List Byte)
  /-- `mem.rd a, n` (R321). -/
  | memRd (a : Word) (n : Nat)
  /-- `win.rd i` (R321). -/
  | winRd (i : Nat)
  /-- `chk REG, mask, v` (R321). -/
  | chk (reg : Reg) (mask v : Word)
  /-- `crc32 p, n` (R322). -/
  | crc32Of (p n : Word)
  /-- `cobs.begin out, cap` (R322). -/
  | cobsBeginAt (out cap : Word)
  /-- `cobs.enc2 p1, n1, p2, n2, out, cap` (R322). -/
  | cobsEnc2Of (p1 n1 p2 n2 out cap : Word)
  /-- `cobs.enc p, n, out, cap` (R322). -/
  | cobsEncOf (p n out cap : Word)
  /-- `cobs.dec p, n` (R322). -/
  | cobsDecOf (p n : Word)
  /-- `fr.pkt f, n, pk, cap` (R322). -/
  | frPktOf (f n pk cap : Word)
  /-- `fr.reg h` (R322). -/
  | frRegOf (h : Word)
  /-- `fr.feed b0 b1 ... bk` (R322). -/
  | frFeed (bytes : List Nat)
  /-- `fb.build id, hash, p, n, out, cap` (R322). -/
  | fbBuildOf (id : Nat) (hash p n out cap : Word)
  /-- `version v` (R322). -/
  | version (v : Word)
  /-- `rep k, op` (R322). -/
  | rep (k : Nat) (op : AsmLine)
deriving DecidableEq, Repr

/-- The bus operation that issues a command (30_encoding.md R320). -/
def issueLine (i : Instr) : HostOp := issueOp (encode i)

/-- A command with an immediate; a number outside 0..255 is an assembly error (30_encoding.md R320). -/
def immLine (command : Byte → Instr) (n : Nat) : Option (List HostOp) :=
  if immInRange n then some [issueLine (command (BitVec.ofNat 8 n))] else none

/-- `wr REG, v` (30_encoding.md R321). -/
def wrLine (r : Reg) (v : Word) : HostOp := .wr r.offset 32 v

/-- `mem.wr`: one single-byte write per byte, at `a`, `a + 1`, … (30_encoding.md R321; DEDUCED, log 10). `assemble` calls
it only where these addresses stay below 2^32 (DESIGN CHOICE, log 30). -/
def memWrLines (a : Nat) : List Byte → List HostOp
  | [] => []
  | b :: bs => .memWr (BitVec.ofNat 32 a) [b] :: memWrLines (a + 1) bs

/-- `mem.rd`: one single-byte read per byte (30_encoding.md R321; DEDUCED, log 10). `assemble` calls it only where these
addresses stay below 2^32 (DESIGN CHOICE, log 30). -/
def memRdLines (a : Nat) : Nat → List HostOp
  | 0 => []
  | n + 1 => .memRd (BitVec.ofNat 32 a) 1 :: memRdLines (a + 1) n

/-- A line that names the `n` host addresses from `a` on; an address of 2^32 or more is an assembly error (DESIGN CHOICE,
log 30). -/
def addressedLine (a n : Nat) (ops : List HostOp) : Option (List HostOp) :=
  if a + n ≤ 2 ^ 32 then some ops else none

/-- `k` copies of a line's operations, one after another. -/
def repeated (ops : List HostOp) : Nat → List HostOp
  | 0 => []
  | k + 1 => ops ++ repeated ops k

/-- The bus operations of a line, on an instance built with `cfg` (30_encoding.md R320 to R322). -/
def assemble (cfg : Config) : AsmLine → Option (List HostOp)
  | .crc32 => some [issueLine .crc32]
  | .cobsBegin => some [issueLine .cobsBegin]
  | .cobsPut b => immLine .cobsPut b
  | .cobsEnd => some [issueLine .cobsEnd]
  | .cobsEnc2 => some [issueLine .cobsEnc2]
  | .cobsDec => some [issueLine .cobsDec]
  | .frPkt => some [issueLine .frPkt]
  | .frByte b => immLine .frByte b
  | .frReg => some [issueLine .frReg]
  | .fbBuild id => immLine .fbBuild id
  | .wr r v => some [wrLine r v]
  | .rd r => some [.rd r.offset 32]
  | .ack c => some [wrLine .delivAck c]
  | .memWr a bs => addressedLine a.toNat bs.length (memWrLines a.toNat bs)
  | .memRd a n => addressedLine a.toNat n (memRdLines a.toNat n)
  | .winRd i => addressedLine (cfg.rxBase + i) 1 [.memRd (BitVec.ofNat 32 (cfg.rxBase + i)) 1]
  | .chk r mask v => some [.chk r.offset mask v]
  | .crc32Of p n => some [wrLine (.arg .a0) p, wrLine (.arg .a1) n, issueLine .crc32]
  | .cobsBeginAt out cap => some [wrLine (.arg .a0) out, wrLine (.arg .a1) cap, issueLine .cobsBegin]
  | .cobsEnc2Of p1 n1 p2 n2 out cap =>
    some [wrLine (.arg .a0) p1, wrLine (.arg .a1) n1, wrLine (.arg .a2) p2, wrLine (.arg .a3) n2,
      wrLine (.arg .a4) out, wrLine (.arg .a5) cap, issueLine .cobsEnc2]
  | .cobsEncOf p n out cap =>
    some [wrLine (.arg .a0) p, wrLine (.arg .a1) n, wrLine (.arg .a2) 0, wrLine (.arg .a3) 0,
      wrLine (.arg .a4) out, wrLine (.arg .a5) cap, issueLine .cobsEnc2]
  | .cobsDecOf p n => some [wrLine (.arg .a0) p, wrLine (.arg .a1) n, issueLine .cobsDec]
  | .frPktOf f n pk cap =>
    some [wrLine (.arg .a0) f, wrLine (.arg .a1) n, wrLine (.arg .a2) pk, wrLine (.arg .a3) cap, issueLine .frPkt]
  | .frRegOf h => some [wrLine (.arg .a0) h, issueLine .frReg]
  | .frFeed bs => (bs.mapM (immLine .frByte)).map List.flatten
  | .fbBuildOf id hash p n out cap =>
    (immLine .fbBuild id).map fun ops =>
      [wrLine (.arg .a0) hash, wrLine (.arg .a1) p, wrLine (.arg .a2) n, wrLine (.arg .a3) out,
        wrLine (.arg .a4) cap] ++ ops
  | .version v => some [wrLine .version v]
  | .rep k op => if k = 0 then none else (assemble cfg op).map fun ops => repeated ops k

/-- The bus operations of a program, line after line (30_encoding.md R321). -/
def assembleAll (cfg : Config) (ls : List AsmLine) : Option (List HostOp) :=
  (ls.mapM (assemble cfg)).map List.flatten

end Sys2Proof.Machine
end

