-- ==== Sys2Proof/Machine/Encoding.lean ====
section
/-! DEFINITION. The wire format as functions of byte sequences: the COBS encoding of 41_cobs.md R470, the decoding of R475
from one buffer to another, and the packet of 42_framer.md R543. No command is defined by these; statements compare the
commands with them. -/

namespace Sys2Proof.Machine

/-- Split a sequence at its zero bytes into zero-free segments t0 … tk (41_cobs.md R470). -/
def zeroFree : List Byte → List (List Byte)
  | [] => [[]]
  | b :: s =>
    if b = 0 then [] :: zeroFree s
    else
      match zeroFree s with
      | [] => [[b]]
      | t :: ts => (b :: t) :: ts

/-- `FF c1 … FF cm (|r|+1) r` for the first `m` runs of 254 bytes (41_cobs.md R470). -/
def segGroups : Nat → List Byte → List Byte
  | 0, r => BitVec.ofNat 8 (r.length + 1) :: r
  | m + 1, t => 0xFF :: (t.take 254 ++ segGroups m (t.drop 254))

/-- `seg(t)` of a zero-free segment (41_cobs.md R470). -/
def seg (t : List Byte) : List Byte := segGroups (t.length / 254) t

/-- `enc(s)` (41_cobs.md R470). -/
def cobsEnc (s : List Byte) : List Byte := (zeroFree s).flatMap seg

/-- `F(s) = Σ (|ti| div 254)` (41_cobs.md R470). -/
def fullRuns (s : List Byte) : Nat := ((zeroFree s).map fun t => t.length / 254).sum

/-- The decoding of what follows a code byte: `left` data bytes of the group of code `code` are still to come, and a
group that is neither a 254-run nor the last stands for its data and one zero (41_cobs.md R475). -/
def decodeRest (left : Nat) (code : Byte) : List Byte → Option (List Byte)
  | [] => if left = 0 then some [] else none
  | b :: rest =>
    if b = 0 then none
    else
      match left with
      | 0 => (decodeRest (b.toNat - 1) b rest).map fun d => if code = 0xFF then d else 0 :: d
      | left + 1 => (decodeRest left code rest).map (b :: ·)

/-- The decoding of a sequence into another (41_cobs.md R475, R477). -/
def cobsDec : List Byte → Option (List Byte)
  | [] => none
  | code :: rest => if code = 0 then none else decodeRest (code.toNat - 1) code rest

/-- The packet of a frame: `enc(frame ‖ bytes_be32(CRC32(frame))) ‖ 00` (42_framer.md R543). -/
def packetOf (frame : List Byte) : List Byte := cobsEnc (frame ++ bytesBe32 (crc32 frame)) ++ [0]

end Sys2Proof.Machine
end

