-- ==== Sys2Proof/Machine/Sizing.lean ====
section
/-! DEFINITION. The sizing helpers by which an integrator picks MaxPacketSize and buffer sizes (00_scope.md R12, R13), on
natural numbers (R20). -/

namespace Sys2Proof.Machine

/-- `maxFrameSize(P) = 8 + P` (00_scope.md R12). -/
def maxFrameSize (P : Nat) : Nat := 8 + P

/-- `cobsMaxOverhead(n) = ceil(n/254) = (n + 253) div 254` (00_scope.md R12). -/
def cobsMaxOverhead (n : Nat) : Nat := (n + 253) / 254

/-- `maxPacketSize(P) = (maxFrameSize(P) + 4) + cobsMaxOverhead(maxFrameSize(P) + 4) + 1` (00_scope.md R12). -/
def maxPacketSize (P : Nat) : Nat := (maxFrameSize P + 4) + cobsMaxOverhead (maxFrameSize P + 4) + 1

/-- `packetBound(P) = m + 2 + (m div 254)` with `m = maxFrameSize(P) + 4` (00_scope.md R13). -/
def packetBound (P : Nat) : Nat := (maxFrameSize P + 4) + 2 + (maxFrameSize P + 4) / 254

end Sys2Proof.Machine
end

