-- ==== Sys2Proof/Safety.lean ====
section
/-! DEFINITION. What counts as a safe run, what the spec asks of operands before a command has its effect, and the
invariants of reachable states, in the terms the statements use (20_memory.md R212 to R217; 60_exceptions.md R702, R720,
R751; 10_state.md R114, R115, R117; 00_scope.md R15). -/

namespace Sys2Proof.Machine

/-- A run that no fault has refuted (60_exceptions.md R721). -/
abbrev State.safe (s : State) : Prop := s.fault = none

/-- The end of a successful run: no operation left, FAULT = None and PHASE = Idle (60_exceptions.md R751). -/
abbrev State.ended (s : State) : Prop := s.hostOps = [] ∧ s.fault = none ∧ s.phase = .idle

/-- FAULT = None and every argument register the command reads has been written (10_state.md R103). -/
def State.ready (i : Instr) (s : State) : Prop :=
  s.fault = none ∧ ∀ j ∈ commandArgs i, (s.arg j).written = true

/-- The span does not pass the top of the address space (20_memory.md R212). -/
def Span.fits (p : Span) : Prop := p.len.toNat = 0 ∨ p.ptr.toNat + p.len.toNat ≤ 2 ^ 32

/-- An input span the block admits (20_memory.md R212, R213). -/
def State.readableSpan (s : State) (p : Span) : Prop :=
  p.fits ∧ ∀ k, k < p.len.toNat → s.inHostMem (p.ptr.toNat + k) = true ∨ s.windowReadable (p.ptr.toNat + k) = true

/-- An output span the block admits (20_memory.md R212, R214). -/
def State.writableSpan (s : State) (p : Span) : Prop :=
  p.fits ∧ ∀ k, k < p.len.toNat → s.inHostMem (p.ptr.toNat + k) = true

/-- No byte of one span is a byte of the other (20_memory.md R217). -/
def Span.apart (p q : Span) : Prop :=
  ∀ j k, j < p.len.toNat → k < q.len.toNat → p.ptr.toNat + j ≠ q.ptr.toNat + k

/-- The address is not a byte of the span (20_memory.md R211). -/
def Span.misses (p : Span) (a : Nat) : Prop := a < p.ptr.toNat ∨ p.ptr.toNat + p.len.toNat ≤ a

/-- The host operation is a 32-bit write of `v` at `offset` of the register file, by offset or by address (10_state.md
R131; log 20). -/
def State.writesWord (s : State) (op : HostOp) (offset : Nat) (v : Word) : Prop :=
  op = .wr offset 32 v ∨
    ∃ a bs, op = .memWr a bs ∧ bs.length = 4 ∧ a.toNat = s.cfg.regBase + offset ∧ v = busWord bs

/-- The input spans of a command, in operand order (30_encoding.md R310). -/
def State.inputSpans (s : State) : Instr → List Span
  | .crc32 => [s.span .a0 .a1]
  | .cobsEnc2 => [s.span .a0 .a1, s.span .a2 .a3]
  | .frPkt => [s.span .a0 .a1]
  | .fbBuild _ => [s.span .a1 .a2]
  | .cobsBegin => []
  | .cobsPut _ => []
  | .cobsEnd => []
  | .cobsDec => []
  | .frByte _ => []
  | .frReg => []

/-- The output span of a command, in place or not (30_encoding.md R310). -/
def State.outputSpans (s : State) : Instr → List Span
  | .cobsBegin => [s.span .a0 .a1]
  | .cobsEnc2 => [s.span .a4 .a5]
  | .cobsDec => [s.span .a0 .a1]
  | .frPkt => [s.span .a2 .a3]
  | .fbBuild _ => [s.span .a3 .a4]
  | .crc32 => []
  | .cobsPut _ => []
  | .cobsEnd => []
  | .frByte _ => []
  | .frReg => []

/-- The null pointer is allowed exactly for an empty input (40_crc.md R410, 41_cobs.md R466, 43_frame_builder.md R604). -/
def Span.nullOk (p : Span) : Prop := p.len = 0 ∨ p.ptr ≠ 0

/-- The status checks a command that takes spans makes on its operands all pass (40_crc.md R410; 41_cobs.md R451, R465,
R480; 42_framer.md R540; 43_frame_builder.md R601). -/
def State.statusChecksPass (s : State) : Instr → Prop
  | .crc32 => (s.span .a0 .a1).nullOk
  | .cobsBegin => (s.span .a0 .a1).ptr ≠ 0 ∧ (s.span .a0 .a1).len ≠ 0
  | .cobsEnc2 =>
    (s.span .a4 .a5).ptr ≠ 0 ∧ (s.span .a4 .a5).len ≠ 0 ∧ (s.span .a0 .a1).nullOk ∧ (s.span .a2 .a3).nullOk
  | .cobsDec => (s.span .a0 .a1).len ≠ 0 ∧ (s.span .a0 .a1).ptr ≠ 0
  | .frPkt => (s.span .a0 .a1).ptr ≠ 0 ∧ (s.span .a2 .a3).ptr ≠ 0 ∧ 2 ≤ (s.span .a2 .a3).len.toNat
  | .fbBuild _ =>
    (s.span .a3 .a4).ptr ≠ 0 ∧ (s.span .a1 .a2).nullOk ∧ (s.span .a1 .a2).len.toNat ≤ 65535 ∧
      8 + (s.span .a1 .a2).len.toNat ≤ (s.span .a3 .a4).len.toNat
  | .cobsPut _ => True
  | .cobsEnd => True
  | .frByte _ => True
  | .frReg => True

/-- The statuses a command can complete with (60_exceptions.md R702). -/
def commandStatuses : Instr → List Status
  | .crc32 => [.invalidParameter, .ok]
  | .cobsBegin => [.invalidParameter, .ok]
  | .cobsPut _ => [.invalidParameter, .ok]
  | .cobsEnd => [.invalidParameter, .ok]
  | .cobsEnc2 => [.invalidParameter, .ok]
  | .cobsDec => [.cobsDecodeFailed, .invalidParameter, .ok]
  | .frPkt => [.invalidParameter, .ok]
  | .frByte b =>
    if b = 0 then [.ok, .cobsDecodeFailed, .frameHeaderSize, .crcMismatch, .invalidParameter]
    else [.frameTooLarge, .ok]
  | .frReg => [.invalidParameter, .ok]
  | .fbBuild _ => [.invalidParameter, .ok]

/-- Commands performed one after another, with no other host operation between them (20_memory.md R230, R231). -/
def execAll : List Instr → State → Result
  | [], s => .next s
  | i :: is, s =>
    match exec i s with
    | .next t => execAll is t
    | .fault r => .fault r
    | .refused r => .refused r

/-- An encoder context in use: the clauses of 10_state.md R117. -/
def Enc.good (e : Enc) : Prop :=
  1 ≤ e.code.toNat ∧ e.code.toNat ≤ 0xFE ∧ e.ci.toNat < e.wi.toNat ∧ e.wi.toNat ≤ e.cap.toNat ∧
    e.wi.toNat - e.ci.toNat - 1 = e.code.toNat - 1

/-- The architected encoder context while ENC_STATE = Active: the clauses of 10_state.md R117, and the admission of its
output span by COBS.BEGIN (41_cobs.md R455). -/
def State.encInv (s : State) : Prop :=
  s.enc.state = .active → s.enc.good ∧ s.writableSpan ⟨s.enc.out, s.enc.cap⟩

/-- The framer: RXBUF has MaxPacketSize bytes, RX_INDEX ≤ MaxPacketSize, and every byte below RX_INDEX is non-zero
(10_state.md R114, R115). -/
def State.rxInv (s : State) : Prop :=
  s.rxbuf.length = s.cfg.maxPacketSize ∧ s.rxIndex ≤ s.cfg.maxPacketSize ∧
    ∀ k, k < s.rxIndex → s.rxbuf.getD k 0 ≠ 0

/-- A delivery: RX_INDEX = 0, a consumer is registered, and the frame and its CRC came from a packet that fitted RXBUF
(42_framer.md R500, R512, R520). -/
def State.deliveryInv (s : State) : Prop :=
  s.phase = .delivering → s.rxIndex = 0 ∧ s.cbValid = true ∧ s.delivLen.toNat + 5 ≤ s.cfg.maxPacketSize

/-- The registration: CB_VALID = 1 exactly when CB_HANDLE ≠ 0 (10_state.md R113). -/
def State.consumerInv (s : State) : Prop := s.cbValid = true ↔ s.cbHandle ≠ 0

/-- Host memory lists bytes of HostMem only, in its one form (00_scope.md R15). -/
def State.memInv (s : State) : Prop :=
  Memory.wf s.mem ∧ ∀ c ∈ s.mem, s.inHostMem c.1 = true

end Sys2Proof.Machine
end

