-- ==== Sys2Proof/Certificates/Slice0/Obligations.lean ====
section
/-! DEFINITION. The statements about the machine, each formalising the rules of spec/ its docstring names. -/

open Sys2Proof Sys2Proof.Machine

/-! ## Command words and the step -/

/-- 30_encoding.md R302, R305: a word decodes to a command exactly when it is that command's word, so no bit of a word is
dropped and each word has one meaning. -/
def Obligations.DecodeIsInverseOfEncode : Prop :=
  ∀ (w : Word) (i : Instr), decode w = .ok i ↔ w = encode i

/-- 30_encoding.md R306: the legal words are the 775 listed ones; any other, which fails check (a), (b) or (c), raises
IllegalCommand with the word and has no other effect. -/
def Obligations.LegalWordsAreExactlyTheListed : Prop :=
  (∀ w : Word, (∃ i, decode w = .ok i) ↔
    w ∈ ([0x00000001, 0x00000010, 0x00000012, 0x00000013, 0x00000014, 0x00000020, 0x00000022] : List Word) ∨
      ∃ b : Byte, w = 0x00000011 + (b.zeroExtend 32 <<< 8) ∨ w = 0x00000021 + (b.zeroExtend 32 <<< 8) ∨
        w = 0x00000030 + (b.zeroExtend 32 <<< 8)) ∧
  (∃ l : List Word, l.Nodup ∧ l.length = 775 ∧ ∀ w, w ∈ l ↔ ∃ i, decode w = .ok i) ∧
  (∀ w : Word, (∃ i, decode w = .ok i) ↔ opcAssigned w = true ∧ rsvZero w = true ∧ imm8Allowed w = true) ∧
  (∀ (w : Word) (s : State), s.fault = none → (¬ ∃ i, decode w = .ok i) →
    perform (.wr 0x00 32 w) s = .next { s with fault := some (.illegalCommand w) })

/-- 30_encoding.md R320: the spec's own example words decode to the commands they stand for. -/
def Obligations.ExampleWordsDecode : Prop :=
  decode 0x00000001 = .ok .crc32 ∧ decode 0x00000010 = .ok .cobsBegin ∧ decode 0x00004111 = .ok (.cobsPut 0x41) ∧
    decode 0x00000012 = .ok .cobsEnd ∧ decode 0x00000021 = .ok (.frByte 0) ∧ decode 0x00000730 = .ok (.fbBuild 7)

/-- 30_encoding.md R300: in a block that is not faulted, a write of a command word to CMD raises IllegalCommand for an
illegal word and otherwise performs the decoded command; the step's only addition is to take the operation off the host's
list (log 2). -/
def Obligations.StepPerformsTheIssuedCommand : Prop :=
  ∀ (s : State) (w : Word) (rest : List HostOp), s.fault = none → s.hostOps = .wr 0x00 32 w :: rest →
    (∀ e, decode w = .error e → step s = .next { s with hostOps := rest, fault := some (.illegalCommand w) }) ∧
    (∀ i, decode w = .ok i → step s = exec i { s with hostOps := rest })

/-- 60_exceptions.md R721 (log 7, log 8): in a faulted block no command and no host operation but reset has a step, and
after reset the block is not faulted. -/
def Obligations.FaultedBlockHasNoStepButReset : Prop :=
  ∀ (s : State) (r : FaultReason), s.fault = some r →
    (∀ i, exec i s = .fault (.halted r)) ∧
    (∀ op rest, s.hostOps = op :: rest → op ≠ .reset → step s = .fault (.halted r)) ∧
    (∀ rest, s.hostOps = .reset :: rest → ∃ t, step s = .next t ∧ t.fault = none)

/-- 10_state.md R140, R103, R104; 70_reset_and_hazards.md R801: the state a reset leaves, in any state. -/
def Obligations.ResetStateIsAsGiven : Prop :=
  ∀ s : State, ∃ t, perform .reset s = .next t ∧ t.phase = .idle ∧ t.code = .ok ∧ t.version = 1 ∧ t.cbValid = false ∧
    t.cbHandle = 0 ∧ t.rxIndex = 0 ∧ t.delivLen = 0 ∧ t.enc = ⟨.idle, 0, 0, 0, 0, 0⟩ ∧ t.fault = none ∧
    (∀ i, (t.arg i).written = false) ∧ t.resultWritten = false ∧ t.mem = s.mem ∧ t.cfg = s.cfg

/-! ## All commands -/

/-- 70_reset_and_hazards.md R841, 20_memory.md R230: in a block that is not faulted every command ends in one step, with
any operands. -/
def Obligations.EveryCommandEnds : Prop :=
  ∀ (i : Instr) (s : State), s.fault = none → ∃ t, exec i s = .next t

/-- 60_exceptions.md R720, R731: a host operation that raises a fault has no other effect. -/
def Obligations.FaultHasNoOtherEffect : Prop :=
  (∀ (i : Instr) (s t : State), exec i s = .next t → t.fault ≠ none → t = { s with fault := t.fault }) ∧
  (∀ (op : HostOp) (s t : State), op ≠ .reset → perform op s = .next t → t.fault ≠ none →
    t = { s with fault := t.fault })

/-- 10_state.md R101, R112: no command writes A0 to A5 or VERSION; nor does one touch the construction constants or what
is the host's own in the model. -/
def Obligations.CommandsKeepTheHostsRegisters : Prop :=
  ∀ (i : Instr) (s t : State), exec i s = .next t →
    (∀ j, t.arg j = s.arg j) ∧ t.version = s.version ∧ t.cfg = s.cfg ∧ t.hostOps = s.hostOps ∧ t.busData = s.busData

/-- 10_state.md R104, R120: RESULT changes only when a command with a result completes OK, and then its mark is set. -/
def Obligations.ResultChangesOnlyOnSuccess : Prop :=
  ∀ (i : Instr) (s t : State), exec i s = .next t → t.result ≠ s.result ∨ t.resultWritten ≠ s.resultWritten →
    t.code = .ok ∧ t.resultWritten = true ∧ t.fault = none ∧
      i ≠ .cobsBegin ∧ (∀ b, i ≠ .cobsPut b) ∧ (∀ b, i ≠ .frByte b) ∧ i ≠ .frReg

/-- 60_exceptions.md R702, 10_state.md R107: a command that raises no fault completes with one of its statuses, except an
FR.BYTE that starts a delivery, which leaves STATUS.CODE for the acknowledgement. -/
def Obligations.CommandsCompleteWithTheirStatuses : Prop :=
  ∀ (i : Instr) (s t : State), exec i s = .next t → t.fault = none →
    t.code ∈ commandStatuses i ∨
      (i = .frByte 0 ∧ s.phase = .idle ∧ t.phase = .delivering ∧ t.code = s.code)

/-- 10_state.md R103: the written marks are clear after reset, a host write of Ai sets Ai's mark, and a command whose
first unwritten argument register is Aj raises UnwrittenArg with no other effect, whatever its other operands are. (FR.REG
in a delivery raises Reentrant instead, 60_exceptions.md R722.) -/
def Obligations.UnwrittenArgumentFaults : Prop :=
  (∀ j, (State.reset.arg j).written = false) ∧
  (∀ (j : ArgIdx) (v : Word) (s : State), ((setArg j v s).arg j).written = true) ∧
  (∀ (i : Instr) (s : State) (before after : List ArgIdx) (j : ArgIdx), s.fault = none →
    (s.phase = .idle ∨ i ≠ .frReg) → commandArgs i = before ++ j :: after →
    (∀ k ∈ before, (s.arg k).written = true) → (s.arg j).written = false →
    exec i s = .next { s with fault := some (.unwrittenArg j) })

/-- 20_memory.md R212, R213, R214, R217 in the order of R218: past the written marks and the status checks, the first
span that passes the top of memory, else the first input byte not admitted, else the first output byte not admitted, else
an overlap of the output with an input, raises its fault with no other effect. COBS.DEC and COBS.BEGIN have one span
and no overlap check. -/
def Obligations.SpanFaultsInOrder : Prop :=
  ∀ (i : Instr) (s : State), s.ready i → s.statusChecksPass i →
    (∀ before p after, s.inputSpans i ++ s.outputSpans i = before ++ p :: after →
      (∀ q ∈ before, q.fits) → ¬ p.fits → exec i s = .next { s with fault := some (.spanWrap p.ptr p.len) }) ∧
    ((∀ p ∈ s.inputSpans i ++ s.outputSpans i, p.fits) →
      (∀ before p after k, s.inputSpans i = before ++ p :: after → (∀ q ∈ before, s.readableSpan q) →
        k < p.len.toNat → s.inputAdmitted (p.ptr.toNat + k) = false →
        (∀ j, j < k → s.inputAdmitted (p.ptr.toNat + j) = true) →
        exec i s = .next { s with fault := some (.memNotAdmitted (p.ptr.toNat + k)) }) ∧
      ((∀ p ∈ s.inputSpans i, s.readableSpan p) →
        (∀ p k, s.outputSpans i = [p] → k < p.len.toNat → s.inHostMem (p.ptr.toNat + k) = false →
          (∀ j, j < k → s.inHostMem (p.ptr.toNat + j) = true) →
          exec i s = .next { s with fault := some (.memNotAdmitted (p.ptr.toNat + k)) }) ∧
        (∀ out before p after, s.outputSpans i = [out] → s.writableSpan out →
          s.inputSpans i = before ++ p :: after → (∀ q ∈ before, out.apart q) → ¬ out.apart p →
          exec i s = .next { s with fault := some (.spanOverlap out p) })))

/-- 40_crc.md R410; 41_cobs.md R451, R465, R480; 42_framer.md R540; 43_frame_builder.md R604: a command whose status checks
fail completes with its status before any span is looked at, with no effect but COBS.BEGIN's ENC_STATE <- Failed. -/
def Obligations.FailedStatusChecksHaveNoEffect : Prop :=
  ∀ (i : Instr) (s : State), s.ready i → ¬ s.statusChecksPass i →
    exec i s = .next
      { s with
        code := if i = .cobsDec ∧ (s.arg .a1).value = 0 then .cobsDecodeFailed else .invalidParameter
        enc := if i = .cobsBegin then { s.enc with state := .failed } else s.enc }

/-! ## Invariants of the machine -/

/-- 10_state.md R117: while ENC_STATE = Active the encoder's code, indices and capacity are related as R117 says and its
span stays admitted; every step keeps this. -/
def Obligations.EncoderContextInvariantIsKept : Prop :=
  ∀ s t : State, s.encInv → step s = .next t → t.encInv

/-- 10_state.md R114, R115: RX_INDEX ≤ MaxPacketSize, RXBUF has MaxPacketSize bytes, and each byte below RX_INDEX is
non-zero; every step keeps this. -/
def Obligations.ReceiveBufferInvariantIsKept : Prop :=
  ∀ s t : State, s.rxInv → step s = .next t → t.rxInv

/-- 42_framer.md R500, R520 and 10_state.md R113: during a delivery RX_INDEX = 0, a consumer is registered, and the frame
is at most MaxPacketSize − 5 bytes (92_eei_decisions.md D34); CB_VALID = 1 exactly when CB_HANDLE is non-zero; every step
keeps both. -/
def Obligations.DeliveryAndRegistrationInvariantsAreKept : Prop :=
  ∀ s t : State, step s = .next t → (s.consumerInv → t.consumerInv) ∧ (s.rxInv → s.deliveryInv → t.deliveryInv)

/-- 00_scope.md R15, 20_memory.md R214: no step lists a byte outside HostMem, and memory keeps its one form. -/
def Obligations.MemoryInvariantIsKept : Prop :=
  ∀ s t : State, s.memInv → s.encInv → step s = .next t → t.memInv

/-- The invariants hold after reset, and the launch parameters obey 00_scope.md R10, R15 to R17 and the
model's bound on REG_BASE (log 1, log 31). -/
def Obligations.InvariantsHoldAtReset : Prop :=
  State.reset.encInv ∧ State.reset.rxInv ∧ State.reset.deliveryInv ∧ State.reset.consumerInv ∧ State.reset.memInv ∧
    State.reset.cfg.ok = true

/-- 10_state.md R142: the construction constants never change, and CFG_MAXPKT and CFG_RXBASE read them. -/
def Obligations.ConstructionConstantsNeverChange : Prop :=
  (∀ s t : State, step s = .next t → t.cfg = s.cfg) ∧
  (∀ s : State, s.fault = none →
    perform (.rd 0x50 32) s = .next { s with busData := .word (BitVec.ofNat 32 s.cfg.maxPacketSize) } ∧
    perform (.rd 0x54 32) s = .next { s with busData := .word (BitVec.ofNat 32 s.cfg.rxBase) })

/-- 10_state.md R111: PHASE changes only by an FR.BYTE of the delimiter with a consumer registered, by the acknowledgement,
and by reset; the first two are 32-bit writes of CMD and DELIV_ACK, by offset or by address (log 20). -/
def Obligations.PhaseChangesOnlyAsListed : Prop :=
  ∀ s t : State, step s = .next t → t.phase ≠ s.phase → ∃ op rest, s.hostOps = op :: rest ∧
    ((s.phase = .idle ∧ t.phase = .delivering ∧ s.cbValid = true ∧
        ∃ w, s.writesWord op 0x00 w ∧ decode w = .ok (.frByte 0)) ∨
      (s.phase = .delivering ∧ t.phase = .idle ∧ ∃ v, s.writesWord op 0x4C v) ∨
      (t.phase = .idle ∧ op = .reset))

/-- 42_framer.md R523: no command performed during a delivery changes RXBUF, RX_INDEX, DELIV_LEN or PHASE; no command but
FR.BYTE writes them at all; FR.PKT leaves the architected encoder context. -/
def Obligations.DeliveryIsUndisturbedByCommands : Prop :=
  (∀ (i : Instr) (s t : State), (s.phase = .delivering ∨ ∀ b, i ≠ .frByte b) → exec i s = .next t →
    t.rxbuf = s.rxbuf ∧ t.rxIndex = s.rxIndex ∧ t.delivLen = s.delivLen ∧ t.phase = s.phase) ∧
  (∀ s t : State, exec .frPkt s = .next t → t.enc = s.enc)

/-! ## CRC-32 -/

/-- 40_crc.md R410: CRC32 of an admitted span completes OK with RESULT = CRC32 of its bytes and changes nothing else; the
empty span gives 0 whatever its pointer. -/
def Obligations.Crc32CommandGivesTheCrc : Prop :=
  ∀ s : State, s.ready .crc32 → (s.span .a0 .a1).nullOk → s.readableSpan (s.span .a0 .a1) →
    exec .crc32 s = .next
      { s with result := crc32 (s.readSpan (s.span .a0 .a1)), resultWritten := true, code := .ok } ∧
    ((s.arg .a1).value = 0 → crc32 (s.readSpan (s.span .a0 .a1)) = 0)

/-- 40_crc.md R404: the two check values. -/
def Obligations.CrcCheckValues : Prop :=
  crc32 [] = 0x00000000 ∧ crc32 [0x31, 0x32, 0x33, 0x34, 0x35, 0x36, 0x37, 0x38, 0x39] = 0xCBF43926 ∧
    bytesBe32 0xCBF43926 = [0xCB, 0xF4, 0x39, 0x26]

/-- 40_crc.md R402: the 256-entry table form gives the same value for every byte sequence. -/
def Obligations.CrcTableFormIsEquivalent : Prop :=
  ∀ s : List Byte, crc32Table s = crc32 s

/-! ## COBS -/

/-- 41_cobs.md R451: COBS.BEGIN with a non-null admitted span opens the context and writes one unspecified byte; with a null
pointer or no capacity it sets ENC_STATE to Failed and completes InvalidParameter. -/
def Obligations.CobsBeginOpensTheContext : Prop :=
  ∀ s : State, s.ready .cobsBegin →
    ((s.arg .a0).value ≠ 0 → (s.arg .a1).value ≠ 0 → s.writableSpan (s.span .a0 .a1) →
      exec .cobsBegin s = .next
        { s with
          enc := ⟨.active, (s.arg .a0).value, (s.arg .a1).value, 0, 1, 1⟩
          mem := s.mem.write (s.arg .a0).value.toNat (Config.freeByte s.draws)
          draws := s.draws + 1
          code := .ok }) ∧
    ((s.arg .a0).value = 0 ∨ (s.arg .a1).value = 0 →
      exec .cobsBegin s = .next { s with enc := { s.enc with state := .failed }, code := .invalidParameter })

/-- 41_cobs.md R450, R455, R456: COBS.PUT of a data byte, of a data byte that completes a 254-run, and of a zero; each
with room in the output span and without. -/
def Obligations.CobsPutStores : Prop :=
  ∀ (s : State) (b : Byte), s.fault = none →
    (s.enc.state ≠ .active → exec (.cobsPut b) s = .next { s with code := .invalidParameter }) ∧
    (s.enc.state = .active →
      (b ≠ 0 → s.enc.cap.toNat ≤ s.enc.wi.toNat →
        exec (.cobsPut b) s = .next { s with enc := { s.enc with state := .failed }, code := .invalidParameter }) ∧
      (b ≠ 0 → s.enc.wi.toNat < s.enc.cap.toNat → s.enc.code ≠ 0xFE →
        exec (.cobsPut b) s = .next
          { s with
            enc := { s.enc with wi := s.enc.wi + 1, code := s.enc.code + 1 }
            mem := s.mem.write (s.enc.out.toNat + s.enc.wi.toNat) b
            code := .ok }) ∧
      (b ≠ 0 → s.enc.wi.toNat + 1 < s.enc.cap.toNat → s.enc.code = 0xFE →
        exec (.cobsPut b) s = .next
          { s with
            enc := { s.enc with ci := s.enc.wi + 1, wi := s.enc.wi + 2, code := 1 }
            mem := (s.mem.write (s.enc.out.toNat + s.enc.wi.toNat) b).write (s.enc.out.toNat + s.enc.ci.toNat) 0xFF
            code := .ok }) ∧
      (b ≠ 0 → s.enc.wi.toNat + 1 = s.enc.cap.toNat → s.enc.code = 0xFE →
        exec (.cobsPut b) s = .next
          { s with
            enc := { s.enc with state := .failed, ci := s.enc.wi + 1, wi := s.enc.wi + 1, code := 0xFF }
            mem := (s.mem.write (s.enc.out.toNat + s.enc.wi.toNat) b).write (s.enc.out.toNat + s.enc.ci.toNat) 0xFF
            code := .invalidParameter }) ∧
      (b = 0 → s.enc.wi.toNat < s.enc.cap.toNat →
        exec (.cobsPut b) s = .next
          { s with
            enc := { s.enc with ci := s.enc.wi, wi := s.enc.wi + 1, code := 1 }
            mem := s.mem.write (s.enc.out.toNat + s.enc.ci.toNat) s.enc.code
            code := .ok }) ∧
      (b = 0 → s.enc.cap.toNat ≤ s.enc.wi.toNat →
        exec (.cobsPut b) s = .next
          { s with
            enc := { s.enc with state := .failed, ci := s.enc.wi }
            mem := s.mem.write (s.enc.out.toNat + s.enc.ci.toNat) s.enc.code
            code := .invalidParameter }))

/-- 41_cobs.md R460: COBS.END stores the last code byte, gives the encoded length and closes the context; in state Idle or
Failed it completes InvalidParameter with no effect. -/
def Obligations.CobsEndGivesTheLength : Prop :=
  ∀ s : State, s.fault = none →
    (s.enc.state = .active →
      exec .cobsEnd s = .next
        { s with
          enc := { s.enc with state := .idle }
          mem := s.mem.write (s.enc.out.toNat + s.enc.ci.toNat) s.enc.code
          result := s.enc.wi
          resultWritten := true
          code := .ok }) ∧
    (s.enc.state ≠ .active → exec .cobsEnd s = .next { s with code := .invalidParameter })

/-- 41_cobs.md R467, R470: COBS.BEGIN, then COBS.PUT of each byte of `bs`, then COBS.END completes OK exactly when the
encoding of R470 fits the capacity, and then RESULT is its length, the output span starts with it, and every byte outside
those is as before; otherwise the last command completes InvalidParameter and nothing outside the span is written. -/
def Obligations.IncrementalEncodingIsEnc : Prop :=
  ∀ (s : State) (bs : List Byte), s.ready .cobsBegin → (s.arg .a0).value ≠ 0 → (s.arg .a1).value ≠ 0 →
    s.writableSpan (s.span .a0 .a1) →
    ∃ t, execAll (.cobsBegin :: bs.map .cobsPut ++ [.cobsEnd]) s = .next t ∧ t.fault = none ∧
      ((cobsEnc bs).length ≤ (s.arg .a1).value.toNat →
        t.code = .ok ∧ t.result.toNat = (cobsEnc bs).length ∧ t.resultWritten = true ∧ t.enc.state = .idle ∧
        (∀ k (h : k < (cobsEnc bs).length), t.mem.read ((s.arg .a0).value.toNat + k) = (cobsEnc bs)[k]) ∧
        ∀ a, a < (s.arg .a0).value.toNat ∨ (s.arg .a0).value.toNat + (cobsEnc bs).length ≤ a →
          t.mem.read a = s.mem.read a) ∧
      ((s.arg .a1).value.toNat < (cobsEnc bs).length →
        t.code = .invalidParameter ∧ t.enc.state = .failed ∧ t.result = s.result ∧
        ∀ a, (s.span .a0 .a1).misses a → t.mem.read a = s.mem.read a)

/-- 41_cobs.md R465, R467, R470: COBS.ENC2 of admitted spans writes the encoding of the concatenation and its length when it
fits, leaving every other byte; otherwise it completes InvalidParameter and the output span holds draws. -/
def Obligations.Enc2CommandIsEnc : Prop :=
  ∀ s : State, s.ready .cobsEnc2 → s.statusChecksPass .cobsEnc2 → s.readableSpan (s.span .a0 .a1) →
    s.readableSpan (s.span .a2 .a3) → s.writableSpan (s.span .a4 .a5) →
    (s.span .a4 .a5).apart (s.span .a0 .a1) → (s.span .a4 .a5).apart (s.span .a2 .a3) →
    ∃ t, exec .cobsEnc2 s = .next t ∧
      ((cobsEnc (s.readSpan (s.span .a0 .a1) ++ s.readSpan (s.span .a2 .a3))).length ≤ (s.arg .a5).value.toNat →
        let e := cobsEnc (s.readSpan (s.span .a0 .a1) ++ s.readSpan (s.span .a2 .a3))
        t = { s with
              mem := t.mem, draws := t.draws, result := BitVec.ofNat 32 e.length, resultWritten := true, code := .ok } ∧
        (∀ k (h : k < e.length), t.mem.read ((s.arg .a4).value.toNat + k) = e[k]) ∧
        ∀ a, a < (s.arg .a4).value.toNat ∨ (s.arg .a4).value.toNat + e.length ≤ a → t.mem.read a = s.mem.read a) ∧
      ((s.arg .a5).value.toNat < (cobsEnc (s.readSpan (s.span .a0 .a1) ++ s.readSpan (s.span .a2 .a3))).length →
        t = { s with mem := t.mem, draws := t.draws, code := .invalidParameter } ∧
        (∀ k, k < (s.arg .a5).value.toNat →
          t.mem.read ((s.arg .a4).value.toNat + k) = Config.freeByte (s.draws + k)) ∧
        ∀ a, (s.span .a4 .a5).misses a → t.mem.read a = s.mem.read a)

/-- 41_cobs.md R470: the encoded length, and its bound. -/
def Obligations.EncodedLength : Prop :=
  ∀ s : List Byte, (cobsEnc s).length = s.length + 1 + fullRuns s ∧
    (cobsEnc s).length ≤ s.length + 1 + s.length / 254 ∧ (cobsEnc s).length ≤ s.length + 1 + cobsMaxOverhead s.length

/-- 41_cobs.md R471: no byte of an encoding is zero. -/
def Obligations.EncodingHasNoZero : Prop :=
  ∀ s : List Byte, (0 : Byte) ∉ cobsEnc s

/-- 41_cobs.md R478: decoding an encoding gives the input back. -/
def Obligations.DecodingInvertsEncoding : Prop :=
  ∀ s : List Byte, cobsDec (cobsEnc s) = some s

/-- 41_cobs.md R478: a decodable sequence is an encoding, or becomes one by a final group 01 (C3). -/
def Obligations.DecodableIsEncodingOrEndsInFullRun : Prop :=
  ∀ b s : List Byte, cobsDec b = some s → b = cobsEnc s ∨ b ++ [1] = cobsEnc s

/-- 41_cobs.md R475, R476: the in-place decoder accepts what the decoder from one buffer to another accepts, leaves its
output at the front of the buffer, and leaves every byte from the decoded length on as it was. -/
def Obligations.InPlaceDecodingIsDecoding : Prop :=
  ∀ b rest : List Byte, cobsDecode (b ++ rest) b.length =
    (cobsDec b).map fun d => (d ++ (b ++ rest).drop d.length, d.length)

/-- 41_cobs.md R480: COBS.DEC of an admitted buffer writes the decoded bytes at its front and gives their number, or
completes CobsDecodeFailed with the buffer unspecified; n = 0 completes CobsDecodeFailed whatever the pointer. -/
def Obligations.DecCommandDecodesInPlace : Prop :=
  ∀ s : State, s.ready .cobsDec →
    ((s.arg .a1).value = 0 → exec .cobsDec s = .next { s with code := .cobsDecodeFailed }) ∧
    ((s.arg .a1).value ≠ 0 → (s.arg .a0).value = 0 → exec .cobsDec s = .next { s with code := .invalidParameter }) ∧
    ((s.arg .a1).value ≠ 0 → (s.arg .a0).value ≠ 0 → s.writableSpan (s.span .a0 .a1) →
      (∀ d, cobsDec (s.readSpan (s.span .a0 .a1)) = some d →
        exec .cobsDec s = .next
          { s with
            mem := s.mem.writeBytes (s.arg .a0).value.toNat d
            result := BitVec.ofNat 32 d.length
            resultWritten := true
            code := .ok }) ∧
      (cobsDec (s.readSpan (s.span .a0 .a1)) = none →
        ∃ t, exec .cobsDec s = .next t ∧ t = { s with mem := t.mem, draws := t.draws, code := .cobsDecodeFailed } ∧
          (∀ k, k < (s.arg .a1).value.toNat →
            t.mem.read ((s.arg .a0).value.toNat + k) = Config.freeByte (s.draws + k)) ∧
          ∀ a, (s.span .a0 .a1).misses a → t.mem.read a = s.mem.read a))

/-! ## The framer -/

/-- 42_framer.md R511: a 0x00 with RX_INDEX = 0 completes OK and changes nothing, and so does each of a run of them. -/
def Obligations.IdleDelimiterIsIgnored : Prop :=
  ∀ s : State, s.fault = none → s.phase = .idle → s.rxIndex = 0 →
    exec (.frByte 0) s = .next { s with code := .ok } ∧
      ∀ n, execAll (.frByte 0 :: List.replicate n (.frByte 0)) s = .next { s with code := .ok }

/-- 42_framer.md R514: a non-zero byte with RX_INDEX < MaxPacketSize is stored at RXBUF[RX_INDEX], RX_INDEX increments and
the command completes OK; every other byte of RXBUF is as before. -/
def Obligations.FrByteAppends : Prop :=
  ∀ (s : State) (b : Byte), s.fault = none → s.phase = .idle → s.rxInv → b ≠ 0 → s.rxIndex < s.cfg.maxPacketSize →
    ∃ t, exec (.frByte b) s = .next t ∧ t = { s with rxbuf := t.rxbuf, rxIndex := s.rxIndex + 1, code := .ok } ∧
      t.rxbuf.length = s.rxbuf.length ∧ t.rxbuf.getD s.rxIndex 0 = b ∧
      ∀ k, k ≠ s.rxIndex → t.rxbuf.getD k 0 = s.rxbuf.getD k 0

/-- 42_framer.md R515: a non-zero byte with RX_INDEX = MaxPacketSize resets RX_INDEX, completes FrameTooLarge and is not
stored. -/
def Obligations.FrByteOverflows : Prop :=
  ∀ (s : State) (b : Byte), s.fault = none → s.phase = .idle → b ≠ 0 → s.rxIndex = s.cfg.maxPacketSize →
    exec (.frByte b) s = .next { s with rxIndex := 0, code := .frameTooLarge }

/-- 42_framer.md R516 (b): a run of `k` non-zero bytes from RX_INDEX = 0 leaves RX_INDEX = k mod (MaxPacketSize + 1), and
its last byte completes FrameTooLarge exactly when that is 0, else OK. -/
def Obligations.OverflowsFallEveryMaxPacketSizePlusOne : Prop :=
  ∀ (bs : List Byte) (s : State), s.fault = none → s.phase = .idle → s.rxInv → s.rxIndex = 0 → bs ≠ [] →
    (∀ b ∈ bs, b ≠ 0) →
    ∃ t, execAll (bs.map .frByte) s = .next t ∧ t.fault = none ∧ t.phase = .idle ∧
      t.rxIndex = bs.length % (s.cfg.maxPacketSize + 1) ∧
      t.code = if bs.length % (s.cfg.maxPacketSize + 1) = 0 then .frameTooLarge else .ok

/-- 42_framer.md R510, R512, R513, R520, R521: what a delimiter does with the `RX_INDEX` bytes before it, in the order of the
checks: CobsDecodeFailed, FrameHeaderSize, CrcMismatch, InvalidParameter without a consumer, and the handover of the
frame. RX_INDEX is 0 afterwards in every case. -/
def Obligations.DelimiterChecksThePacket : Prop :=
  ∀ s : State, s.fault = none → s.phase = .idle → s.rxInv → s.rxIndex ≠ 0 →
    ∃ t, exec (.frByte 0) s = .next t ∧ t.rxIndex = 0 ∧
      (cobsDec (s.rxbuf.take s.rxIndex) = none →
        t = { s with rxIndex := 0, rxbuf := t.rxbuf, draws := t.draws, code := .cobsDecodeFailed }) ∧
      (∀ d, cobsDec (s.rxbuf.take s.rxIndex) = some d →
        (d.length < 4 →
          t = { s with rxIndex := 0, rxbuf := t.rxbuf, draws := t.draws, code := .frameHeaderSize }) ∧
        (∀ frame trailer, d = frame ++ trailer → trailer.length = 4 →
          (trailer ≠ bytesBe32 (crc32 frame) →
            t = { s with rxIndex := 0, rxbuf := t.rxbuf, draws := t.draws, code := .crcMismatch }) ∧
          (trailer = bytesBe32 (crc32 frame) → t.rxbuf.take frame.length = frame ∧
            (s.cbValid = false → t = { s with rxIndex := 0, rxbuf := t.rxbuf, code := .invalidParameter }) ∧
            (s.cbValid = true →
              t = { s with
                    rxIndex := 0
                    rxbuf := t.rxbuf
                    delivLen := BitVec.ofNat 32 frame.length
                    phase := .delivering }))))

/-- 42_framer.md R524, R525: the acknowledgement. A value above 9 (bits 31:8 not zero, or bits 7:0 above 9) raises
BadAckCode, a write in PHASE = Idle raises AckWithoutDelivery, and otherwise PHASE <- Idle and STATUS.CODE <- the value,
with nothing else changed. -/
def Obligations.AcknowledgementEndsTheDelivery : Prop :=
  ∀ (s : State) (v : Word), s.fault = none →
    (s.phase = .idle → perform (.wr 0x4C 32 v) s = .next { s with fault := some (.ackWithoutDelivery v) }) ∧
    (s.phase = .delivering →
      (9 < v.toNat → perform (.wr 0x4C 32 v) s = .next { s with fault := some (.badAckCode v) }) ∧
      (v.toNat ≤ 9 → ∃ c : Status, c.toCode.toNat = v.toNat ∧
        perform (.wr 0x4C 32 v) s = .next { s with phase := .idle, code := c }))

/-- 42_framer.md R530: FR.REG registers a non-zero handle, replacing an earlier one, and refuses 0. -/
def Obligations.FrRegRegistersTheConsumer : Prop :=
  ∀ s : State, s.ready .frReg → s.phase = .idle →
    ((s.arg .a0).value ≠ 0 →
      exec .frReg s = .next { s with cbHandle := (s.arg .a0).value, cbValid := true, code := .ok }) ∧
    ((s.arg .a0).value = 0 → exec .frReg s = .next { s with code := .invalidParameter })

/-- 30_encoding.md R307: a legal FR.BYTE or FR.REG during a delivery raises Reentrant with its word and has no other effect. -/
def Obligations.ReentryFaults : Prop :=
  ∀ s : State, s.fault = none → s.phase = .delivering →
    (∀ b : Byte, exec (.frByte b) s =
      .next { s with fault := some (.reentrant (0x00000021 + (b.zeroExtend 32 <<< 8))) }) ∧
    exec .frReg s = .next { s with fault := some (.reentrant 0x00000022) }

/-- 42_framer.md R540, R542, R543: FR.PKT writes the packet enc(frame ‖ CRC32_BE(frame)) ‖ 00 and its length when it fits the
capacity, leaving every other byte; otherwise it completes InvalidParameter and the packet span holds draws. -/
def Obligations.PktCommandBuildsThePacket : Prop :=
  ∀ s : State, s.ready .frPkt → s.statusChecksPass .frPkt → s.readableSpan (s.span .a0 .a1) →
    s.writableSpan (s.span .a2 .a3) → (s.span .a2 .a3).apart (s.span .a0 .a1) →
    ∃ t, exec .frPkt s = .next t ∧
      ((packetOf (s.readSpan (s.span .a0 .a1))).length ≤ (s.arg .a3).value.toNat →
        let p := packetOf (s.readSpan (s.span .a0 .a1))
        t = { s with
              mem := t.mem, draws := t.draws, result := BitVec.ofNat 32 p.length, resultWritten := true, code := .ok } ∧
        (∀ k (h : k < p.length), t.mem.read ((s.arg .a2).value.toNat + k) = p[k]) ∧
        ∀ a, a < (s.arg .a2).value.toNat ∨ (s.arg .a2).value.toNat + p.length ≤ a → t.mem.read a = s.mem.read a) ∧
      ((s.arg .a3).value.toNat < (packetOf (s.readSpan (s.span .a0 .a1))).length →
        t = { s with mem := t.mem, draws := t.draws, code := .invalidParameter } ∧
        (∀ k, k < (s.arg .a3).value.toNat →
          t.mem.read ((s.arg .a2).value.toNat + k) = Config.freeByte (s.draws + k)) ∧
        ∀ a, (s.span .a2 .a3).misses a → t.mem.read a = s.mem.read a)

/-- 42_framer.md R543: a packet contains exactly one zero byte, its last. -/
def Obligations.PacketHasOneZeroAtItsEnd : Prop :=
  ∀ frame : List Byte, ∃ body, packetOf frame = body ++ [0] ∧ (0 : Byte) ∉ body

/-- 42_framer.md R544: feeding a packet that fits MaxPacketSize to an idle framer with a consumer registered completes OK for
every byte but the last, which starts a delivery of exactly the frame. The parameters are as `Config.ok` asks, which
bounds REG_BASE too (log 31). -/
def Obligations.PacketRoundTrip : Prop :=
  ∀ (s : State) (frame : List Byte), s.fault = none → s.phase = .idle → s.rxIndex = 0 → s.cbValid = true → s.rxInv →
    s.cfg.ok = true → (packetOf frame).length ≤ s.cfg.maxPacketSize + 1 →
    (∀ k, 0 < k → k < (packetOf frame).length →
      ∃ u, execAll (((packetOf frame).take k).map .frByte) s = .next u ∧ u.fault = none ∧ u.phase = .idle ∧ u.code = .ok) ∧
    ∃ t, execAll ((packetOf frame).map .frByte) s = .next t ∧ t.fault = none ∧ t.phase = .delivering ∧
      t.delivLen.toNat = frame.length ∧ t.bytesFrom s.cfg.rxBase frame.length = frame

/-- 42_framer.md R516 (a): after any FR.BYTE history, a 0x00 that does not itself deliver puts the framer in step, and the
packet that follows delivers exactly its frame. The parameters are as `Config.ok` asks (log 31). -/
def Obligations.DelimiterResynchronises : Prop :=
  ∀ (s u : State) (frame : List Byte), s.fault = none → s.phase = .idle → s.cbValid = true → s.rxInv →
    s.cfg.ok = true → (packetOf frame).length ≤ s.cfg.maxPacketSize + 1 →
    exec (.frByte 0) s = .next u → u.phase = .idle →
    ∃ t, execAll ((packetOf frame).map .frByte) u = .next t ∧ t.fault = none ∧ t.phase = .delivering ∧
      t.delivLen.toNat = frame.length ∧ t.bytesFrom s.cfg.rxBase frame.length = frame

/-! ## The frame builder and sizes -/

/-- 43_frame_builder.md R601, R602, R603, R605: FB.BUILD writes the header and the payload, gives the frame length, and leaves
every other byte. -/
def Obligations.BuildCommandWritesTheFrame : Prop :=
  ∀ (s : State) (id : Byte), s.ready (.fbBuild id) → s.statusChecksPass (.fbBuild id) →
    s.readableSpan (s.span .a1 .a2) → s.writableSpan (s.span .a3 .a4) → (s.span .a3 .a4).apart (s.span .a1 .a2) →
    let hash := (s.arg .a0).value
    let pn := (s.arg .a2).value.toNat
    let out := (s.arg .a3).value.toNat
    ∃ t, exec (.fbBuild id) s = .next t ∧
      t = { s with mem := t.mem, result := t.result, resultWritten := true, code := .ok } ∧ t.result.toNat = 8 + pn ∧
      t.mem.read out = s.version ∧ t.mem.read (out + 1) = id ∧
      be32 (t.mem.read (out + 2)) (t.mem.read (out + 3)) (t.mem.read (out + 4)) (t.mem.read (out + 5)) = hash ∧
      (be16 (t.mem.read (out + 6)) (t.mem.read (out + 7))).toNat = pn ∧
      (∀ k, k < pn → t.mem.read (out + 8 + k) = s.byteAt ((s.arg .a1).value.toNat + k)) ∧
      ∀ a, a < out ∨ out + 8 + pn ≤ a → t.mem.read a = s.mem.read a

/-- 42_framer.md R542, 00_scope.md R13: the length of a packet, and its bounds by packetBound and maxPacketSize. -/
def Obligations.PacketSizeBounds : Prop :=
  ∀ frame : List Byte,
    (packetOf frame).length = frame.length + 6 + fullRuns (frame ++ bytesBe32 (crc32 frame)) ∧
    (packetOf frame).length ≤ frame.length + 6 + (frame.length + 4) / 254 ∧
    ∀ P, frame.length ≤ maxFrameSize P →
      (packetOf frame).length ≤ packetBound P ∧ (packetOf frame).length ≤ maxPacketSize P + 1

/-! ## The host's operations -/

/-- 10_state.md R105, R108, R109: the fields of STATUS. -/
def Obligations.StatusFields : Prop :=
  ∀ s : State, s.status.extractLsb' 0 8 = s.code.toCode ∧ (s.status.getLsbD 8 = true ↔ s.phase = .delivering) ∧
    s.status.getLsbD 9 = s.cbValid ∧ ∀ k, 10 ≤ k → s.status.getLsbD k = false

/-- 10_state.md R130, R131, R103, R104: the value the host's read of each readable register returns; a read of RESULT or
of Ai whose mark is clear raises its fault. A read by address is the register read of that offset and width, its value as
bytes (log 20). -/
def Obligations.RegisterReadsReturnTheRegisters : Prop :=
  ∀ s : State, s.fault = none →
    (s.resultWritten = false → perform (.rd 0x08 32) s = .next { s with fault := some .unwrittenResult }) ∧
    (∀ (i : ArgIdx), (s.arg i).written = false →
      perform (.rd (Reg.arg i).offset 32) s = .next { s with fault := some (.unwrittenArg i) }) ∧
    (let reads (offset : Nat) (v : Word) : Prop := perform (.rd offset 32) s = .next { s with busData := .word v }
     reads 0x04 s.status ∧ (s.resultWritten = true → reads 0x08 s.result) ∧
       (s.a0.written = true → reads 0x0C s.a0.value) ∧ (s.a1.written = true → reads 0x10 s.a1.value) ∧
       (s.a2.written = true → reads 0x14 s.a2.value) ∧ (s.a3.written = true → reads 0x18 s.a3.value) ∧
       (s.a4.written = true → reads 0x1C s.a4.value) ∧ (s.a5.written = true → reads 0x20 s.a5.value) ∧
       reads 0x24 (s.version.zeroExtend 32) ∧ reads 0x28 s.cbHandle ∧ reads 0x2C (BitVec.ofNat 32 s.rxIndex) ∧
       reads 0x30 (s.enc.state.toCode.zeroExtend 32) ∧ reads 0x34 (s.enc.code.zeroExtend 32) ∧ reads 0x38 s.enc.ci ∧
       reads 0x3C s.enc.wi ∧ reads 0x40 s.enc.out ∧ reads 0x44 s.enc.cap ∧ reads 0x48 s.delivLen ∧
       reads 0x50 (BitVec.ofNat 32 s.cfg.maxPacketSize) ∧ reads 0x54 (BitVec.ofNat 32 s.cfg.rxBase)) ∧
    ∀ (a : Word) (n offset : Nat), 0 < n → offset < 0x58 → a.toNat = s.cfg.regBase + offset →
      (∀ k, k < n → s.inWindow (a.toNat + k) = false) →
      (∀ v, perform (.rd offset (8 * n)) s = .next { s with busData := .word v } →
        perform (.memRd a n) s = .next { s with busData := .bytes (busBytes v) }) ∧
      (∀ f, perform (.rd offset (8 * n)) s = .next { s with fault := some f } →
        perform (.memRd a n) s = .next { s with fault := some f })

/-- 10_state.md R133: a register read changes nothing but what the host has read, and reading again gives the same. -/
def Obligations.RegisterReadsHaveNoSideEffect : Prop :=
  ∀ (s t : State) (offset width : Nat), perform (.rd offset width) s = .next t → t.fault = none →
    t = { s with busData := t.busData } ∧ perform (.rd offset width) t = .next t

/-- 10_state.md R132: which accesses to the register file raise BusMisuse, and that no other does. -/
def Obligations.BusMisuseExactlyWhenNotAdmitted : Prop :=
  (∀ (s : State) (offset width : Nat), s.fault = none →
    (perform (.rd offset width) s = .next { s with fault := some (.busMisuse offset width .read) } ↔
      width ≠ 32 ∨ offset % 4 ≠ 0 ∨ 0x54 < offset ∨ offset = 0x00 ∨ offset = 0x4C)) ∧
  (∀ (s : State) (offset width : Nat) (v : Word), s.fault = none →
    (width ≠ 32 ∨ offset % 4 ≠ 0 ∨ 0x54 < offset ∨
      offset ∈ [0x04, 0x08, 0x28, 0x2C, 0x30, 0x34, 0x38, 0x3C, 0x40, 0x44, 0x48, 0x50, 0x54]) →
    perform (.wr offset width v) s = .next { s with fault := some (.busMisuse offset width .write) }) ∧
  (∀ (s : State) (offset : Nat) (v : Word), s.fault = none →
    offset ∈ [0x00, 0x0C, 0x10, 0x14, 0x18, 0x1C, 0x20, 0x24, 0x4C] →
    perform (.wr offset 32 v) s ≠ .next { s with fault := some (.busMisuse offset 32 .write) })

/-- 10_state.md R131, R102, R103, R112: a host write of Ai stores the value and sets the mark, one of VERSION stores bits 7:0
only; nothing else changes. A write by address is the register write of that offset and width (log 20). -/
def Obligations.RegisterWritesStore : Prop :=
  ∀ s : State, s.fault = none →
    (∀ (v : Word) (i : ArgIdx), ∃ t, perform (.wr (Reg.arg i).offset 32 v) s = .next t ∧ t.arg i = ⟨v, true⟩ ∧
      (∀ j, j ≠ i → t.arg j = s.arg j) ∧
      t = { s with a0 := t.a0, a1 := t.a1, a2 := t.a2, a3 := t.a3, a4 := t.a4, a5 := t.a5 }) ∧
    (∀ v : Word, perform (.wr 0x24 32 v) s = .next { s with version := v.extractLsb' 0 8 }) ∧
    ∀ (a : Word) (bs : List Byte) (offset : Nat), bs ≠ [] → offset < 0x58 → a.toNat = s.cfg.regBase + offset →
      (∀ k, k < bs.length → s.inWindow (a.toNat + k) = false) →
      perform (.memWr a bs) s = perform (.wr offset (8 * bs.length) (busWord bs)) s

/-- 20_memory.md R215, R216: the RX window. A one-byte read of RX_BASE + i gives RXBUF[i] exactly when PHASE = Delivering and
i < DELIV_LEN; every other access that touches the window, its first window byte at RX_BASE + i, raises RxWindowMisuse
with that address, also when it begins before the window or touches the register file (the model's choice, log 28). -/
def Obligations.WindowIsReadableOnlyInADelivery : Prop :=
  ∀ (s : State) (a : Word) (k i : Nat), s.fault = none → i < s.cfg.maxPacketSize → a.toNat + k = s.cfg.rxBase + i →
    (∀ j, j < k → s.inWindow (a.toNat + j) = false) →
    (k = 0 → s.phase = .delivering → i < s.delivLen.toNat →
      perform (.memRd a 1) s = .next { s with busData := .bytes [s.rxbuf.getD i 0] }) ∧
    (k = 0 → s.phase = .idle ∨ s.delivLen.toNat ≤ i →
      perform (.memRd a 1) s = .next { s with fault := some (.rxWindowMisuse (s.cfg.rxBase + i) .read) }) ∧
    (∀ n, 2 ≤ n → k < n →
      perform (.memRd a n) s = .next { s with fault := some (.rxWindowMisuse (s.cfg.rxBase + i) .read) }) ∧
    (∀ bs : List Byte, k < bs.length →
      perform (.memWr a bs) s = .next { s with fault := some (.rxWindowMisuse (s.cfg.rxBase + i) .write) })

/-- 20_memory.md R222: a byte the host writes to HostMem reads back, and no other byte of memory changes. The
parameters are as `Config.ok` asks (log 31). -/
def Obligations.HostMemoryReadsWhatWasWritten : Prop :=
  ∀ (s : State) (a : Word) (b : Byte), s.fault = none → s.cfg.ok = true → s.inHostMem a.toNat = true →
    ∃ t, perform (.memWr a [b]) s = .next t ∧ t = { s with mem := t.mem } ∧
      perform (.memRd a 1) t = .next { t with busData := .bytes [b] } ∧
      ∀ x, x ≠ a.toNat → t.mem.read x = s.mem.read x

/-! ## Frames: what each command leaves -/

/-- Frame of CRC32, FR.REG and FR.BYTE (40_crc.md R410; 42_framer.md R510, R530): nothing but the fields named changes, and
they store nothing, so every byte of memory reads as before. -/
def Obligations.FrameOfCommandsThatStoreNothing : Prop :=
  ∀ s t : State,
    (exec .crc32 s = .next t →
      t = { s with result := t.result, resultWritten := t.resultWritten, code := t.code, fault := t.fault } ∧
      ∀ a, t.mem.read a = s.mem.read a) ∧
    (exec .frReg s = .next t →
      t = { s with cbHandle := t.cbHandle, cbValid := t.cbValid, code := t.code, fault := t.fault } ∧
      ∀ a, t.mem.read a = s.mem.read a) ∧
    (∀ b, exec (.frByte b) s = .next t →
      t = { s with
            rxbuf := t.rxbuf, rxIndex := t.rxIndex, phase := t.phase, delivLen := t.delivLen, code := t.code
            fault := t.fault, draws := t.draws } ∧
      ∀ a, t.mem.read a = s.mem.read a)

/-- Frame of COBS.BEGIN, COBS.PUT and COBS.END (41_cobs.md R451, R455, R460): only ENC, STATUS.CODE, FAULT, the draw counter
(BEGIN) and RESULT (END) change. BEGIN stores at ENC_OUT's new value; PUT of 0 stores at the code-byte index; PUT of a
data byte stores at the write index, and at the code-byte index only when it completes a 254-run; END stores at the
code-byte index. Every other byte reads as before. -/
def Obligations.FrameOfTheIncrementalEncoder : Prop :=
  ∀ s t : State,
    (exec .cobsBegin s = .next t →
      t = { s with enc := t.enc, mem := t.mem, draws := t.draws, code := t.code, fault := t.fault } ∧
      ∀ a, a ≠ (s.arg .a0).value.toNat → t.mem.read a = s.mem.read a) ∧
    (∀ b, exec (.cobsPut b) s = .next t →
      t = { s with enc := t.enc, mem := t.mem, code := t.code, fault := t.fault } ∧
      (b = 0 → ∀ a, a ≠ s.enc.out.toNat + s.enc.ci.toNat → t.mem.read a = s.mem.read a) ∧
      (b ≠ 0 → ∀ a, a ≠ s.enc.out.toNat + s.enc.wi.toNat →
        (s.enc.code = 0xFE → a ≠ s.enc.out.toNat + s.enc.ci.toNat) → t.mem.read a = s.mem.read a)) ∧
    (exec .cobsEnd s = .next t →
      t = { s with
            enc := t.enc, mem := t.mem, result := t.result, resultWritten := t.resultWritten, code := t.code
            fault := t.fault } ∧
      ∀ a, a ≠ s.enc.out.toNat + s.enc.ci.toNat → t.mem.read a = s.mem.read a)

/-- Frame of COBS.ENC2, COBS.DEC, FR.PKT and FB.BUILD (41_cobs.md R465, R480; 42_framer.md R540; 43_frame_builder.md R601):
only memory, RESULT, STATUS.CODE, FAULT and the draw counter change, and every byte outside the command's output span
reads as before. -/
def Obligations.FrameOfCommandsThatStoreIntoASpan : Prop :=
  ∀ (i : Instr) (s t : State) (out : Span), i = .cobsEnc2 ∨ i = .cobsDec ∨ i = .frPkt ∨ (∃ id, i = .fbBuild id) →
    s.outputSpans i = [out] → exec i s = .next t →
    t = { s with
          mem := t.mem, result := t.result, resultWritten := t.resultWritten, code := t.code, fault := t.fault
          draws := t.draws } ∧
    ∀ a, out.misses a → t.mem.read a = s.mem.read a
end

