-- ==== Sys2Proof/Laws/State.lean ====
section
/-! SUPPORT. For each named update of the state, what each field is afterwards: one lemma per field and update, so that no
proof unfolds a record update. -/

namespace Sys2Proof.Machine

section Complete
variable (c : Status) (s : State)

@[simp] theorem complete_cfg : (complete c s).cfg = s.cfg := rfl
@[simp] theorem complete_a0 : (complete c s).a0 = s.a0 := rfl
@[simp] theorem complete_a1 : (complete c s).a1 = s.a1 := rfl
@[simp] theorem complete_a2 : (complete c s).a2 = s.a2 := rfl
@[simp] theorem complete_a3 : (complete c s).a3 = s.a3 := rfl
@[simp] theorem complete_a4 : (complete c s).a4 = s.a4 := rfl
@[simp] theorem complete_a5 : (complete c s).a5 = s.a5 := rfl
@[simp] theorem complete_result : (complete c s).result = s.result := rfl
@[simp] theorem complete_resultWritten : (complete c s).resultWritten = s.resultWritten := rfl
@[simp] theorem complete_code : (complete c s).code = c := rfl
@[simp] theorem complete_phase : (complete c s).phase = s.phase := rfl
@[simp] theorem complete_version : (complete c s).version = s.version := rfl
@[simp] theorem complete_cbValid : (complete c s).cbValid = s.cbValid := rfl
@[simp] theorem complete_cbHandle : (complete c s).cbHandle = s.cbHandle := rfl
@[simp] theorem complete_rxIndex : (complete c s).rxIndex = s.rxIndex := rfl
@[simp] theorem complete_rxbuf : (complete c s).rxbuf = s.rxbuf := rfl
@[simp] theorem complete_enc : (complete c s).enc = s.enc := rfl
@[simp] theorem complete_delivLen : (complete c s).delivLen = s.delivLen := rfl
@[simp] theorem complete_fault : (complete c s).fault = s.fault := rfl
@[simp] theorem complete_mem : (complete c s).mem = s.mem := rfl
@[simp] theorem complete_hostOps : (complete c s).hostOps = s.hostOps := rfl
@[simp] theorem complete_busData : (complete c s).busData = s.busData := rfl
@[simp] theorem complete_draws : (complete c s).draws = s.draws := rfl

end Complete

section CompleteWith
variable (r : Word) (s : State)

@[simp] theorem completeWith_cfg : (completeWith r s).cfg = s.cfg := rfl
@[simp] theorem completeWith_a0 : (completeWith r s).a0 = s.a0 := rfl
@[simp] theorem completeWith_a1 : (completeWith r s).a1 = s.a1 := rfl
@[simp] theorem completeWith_a2 : (completeWith r s).a2 = s.a2 := rfl
@[simp] theorem completeWith_a3 : (completeWith r s).a3 = s.a3 := rfl
@[simp] theorem completeWith_a4 : (completeWith r s).a4 = s.a4 := rfl
@[simp] theorem completeWith_a5 : (completeWith r s).a5 = s.a5 := rfl
@[simp] theorem completeWith_result : (completeWith r s).result = r := rfl
@[simp] theorem completeWith_resultWritten : (completeWith r s).resultWritten = true := rfl
@[simp] theorem completeWith_code : (completeWith r s).code = .ok := rfl
@[simp] theorem completeWith_phase : (completeWith r s).phase = s.phase := rfl
@[simp] theorem completeWith_version : (completeWith r s).version = s.version := rfl
@[simp] theorem completeWith_cbValid : (completeWith r s).cbValid = s.cbValid := rfl
@[simp] theorem completeWith_cbHandle : (completeWith r s).cbHandle = s.cbHandle := rfl
@[simp] theorem completeWith_rxIndex : (completeWith r s).rxIndex = s.rxIndex := rfl
@[simp] theorem completeWith_rxbuf : (completeWith r s).rxbuf = s.rxbuf := rfl
@[simp] theorem completeWith_enc : (completeWith r s).enc = s.enc := rfl
@[simp] theorem completeWith_delivLen : (completeWith r s).delivLen = s.delivLen := rfl
@[simp] theorem completeWith_fault : (completeWith r s).fault = s.fault := rfl
@[simp] theorem completeWith_mem : (completeWith r s).mem = s.mem := rfl
@[simp] theorem completeWith_hostOps : (completeWith r s).hostOps = s.hostOps := rfl
@[simp] theorem completeWith_busData : (completeWith r s).busData = s.busData := rfl
@[simp] theorem completeWith_draws : (completeWith r s).draws = s.draws := rfl

end CompleteWith

section HandOver
variable (n : Nat) (s : State)

@[simp] theorem handOver_cfg : (handOver n s).cfg = s.cfg := rfl
@[simp] theorem handOver_a0 : (handOver n s).a0 = s.a0 := rfl
@[simp] theorem handOver_a1 : (handOver n s).a1 = s.a1 := rfl
@[simp] theorem handOver_a2 : (handOver n s).a2 = s.a2 := rfl
@[simp] theorem handOver_a3 : (handOver n s).a3 = s.a3 := rfl
@[simp] theorem handOver_a4 : (handOver n s).a4 = s.a4 := rfl
@[simp] theorem handOver_a5 : (handOver n s).a5 = s.a5 := rfl
@[simp] theorem handOver_result : (handOver n s).result = s.result := rfl
@[simp] theorem handOver_resultWritten : (handOver n s).resultWritten = s.resultWritten := rfl
@[simp] theorem handOver_code : (handOver n s).code = s.code := rfl
@[simp] theorem handOver_phase : (handOver n s).phase = .delivering := rfl
@[simp] theorem handOver_version : (handOver n s).version = s.version := rfl
@[simp] theorem handOver_cbValid : (handOver n s).cbValid = s.cbValid := rfl
@[simp] theorem handOver_cbHandle : (handOver n s).cbHandle = s.cbHandle := rfl
@[simp] theorem handOver_rxIndex : (handOver n s).rxIndex = s.rxIndex := rfl
@[simp] theorem handOver_rxbuf : (handOver n s).rxbuf = s.rxbuf := rfl
@[simp] theorem handOver_enc : (handOver n s).enc = s.enc := rfl
@[simp] theorem handOver_delivLen : (handOver n s).delivLen = BitVec.ofNat 32 n := rfl
@[simp] theorem handOver_fault : (handOver n s).fault = s.fault := rfl
@[simp] theorem handOver_mem : (handOver n s).mem = s.mem := rfl
@[simp] theorem handOver_hostOps : (handOver n s).hostOps = s.hostOps := rfl
@[simp] theorem handOver_busData : (handOver n s).busData = s.busData := rfl
@[simp] theorem handOver_draws : (handOver n s).draws = s.draws := rfl

end HandOver

section EndDelivery
variable (c : Status) (s : State)

@[simp] theorem endDelivery_cfg : (endDelivery c s).cfg = s.cfg := rfl
@[simp] theorem endDelivery_a0 : (endDelivery c s).a0 = s.a0 := rfl
@[simp] theorem endDelivery_a1 : (endDelivery c s).a1 = s.a1 := rfl
@[simp] theorem endDelivery_a2 : (endDelivery c s).a2 = s.a2 := rfl
@[simp] theorem endDelivery_a3 : (endDelivery c s).a3 = s.a3 := rfl
@[simp] theorem endDelivery_a4 : (endDelivery c s).a4 = s.a4 := rfl
@[simp] theorem endDelivery_a5 : (endDelivery c s).a5 = s.a5 := rfl
@[simp] theorem endDelivery_result : (endDelivery c s).result = s.result := rfl
@[simp] theorem endDelivery_resultWritten : (endDelivery c s).resultWritten = s.resultWritten := rfl
@[simp] theorem endDelivery_code : (endDelivery c s).code = c := rfl
@[simp] theorem endDelivery_phase : (endDelivery c s).phase = .idle := rfl
@[simp] theorem endDelivery_version : (endDelivery c s).version = s.version := rfl
@[simp] theorem endDelivery_cbValid : (endDelivery c s).cbValid = s.cbValid := rfl
@[simp] theorem endDelivery_cbHandle : (endDelivery c s).cbHandle = s.cbHandle := rfl
@[simp] theorem endDelivery_rxIndex : (endDelivery c s).rxIndex = s.rxIndex := rfl
@[simp] theorem endDelivery_rxbuf : (endDelivery c s).rxbuf = s.rxbuf := rfl
@[simp] theorem endDelivery_enc : (endDelivery c s).enc = s.enc := rfl
@[simp] theorem endDelivery_delivLen : (endDelivery c s).delivLen = s.delivLen := rfl
@[simp] theorem endDelivery_fault : (endDelivery c s).fault = s.fault := rfl
@[simp] theorem endDelivery_mem : (endDelivery c s).mem = s.mem := rfl
@[simp] theorem endDelivery_hostOps : (endDelivery c s).hostOps = s.hostOps := rfl
@[simp] theorem endDelivery_busData : (endDelivery c s).busData = s.busData := rfl
@[simp] theorem endDelivery_draws : (endDelivery c s).draws = s.draws := rfl

end EndDelivery

section StoreBytes
variable (a : Nat) (bs : List Byte) (s : State)

@[simp] theorem storeBytes_cfg : (storeBytes a bs s).cfg = s.cfg := rfl
@[simp] theorem storeBytes_a0 : (storeBytes a bs s).a0 = s.a0 := rfl
@[simp] theorem storeBytes_a1 : (storeBytes a bs s).a1 = s.a1 := rfl
@[simp] theorem storeBytes_a2 : (storeBytes a bs s).a2 = s.a2 := rfl
@[simp] theorem storeBytes_a3 : (storeBytes a bs s).a3 = s.a3 := rfl
@[simp] theorem storeBytes_a4 : (storeBytes a bs s).a4 = s.a4 := rfl
@[simp] theorem storeBytes_a5 : (storeBytes a bs s).a5 = s.a5 := rfl
@[simp] theorem storeBytes_result : (storeBytes a bs s).result = s.result := rfl
@[simp] theorem storeBytes_resultWritten : (storeBytes a bs s).resultWritten = s.resultWritten := rfl
@[simp] theorem storeBytes_code : (storeBytes a bs s).code = s.code := rfl
@[simp] theorem storeBytes_phase : (storeBytes a bs s).phase = s.phase := rfl
@[simp] theorem storeBytes_version : (storeBytes a bs s).version = s.version := rfl
@[simp] theorem storeBytes_cbValid : (storeBytes a bs s).cbValid = s.cbValid := rfl
@[simp] theorem storeBytes_cbHandle : (storeBytes a bs s).cbHandle = s.cbHandle := rfl
@[simp] theorem storeBytes_rxIndex : (storeBytes a bs s).rxIndex = s.rxIndex := rfl
@[simp] theorem storeBytes_rxbuf : (storeBytes a bs s).rxbuf = s.rxbuf := rfl
@[simp] theorem storeBytes_enc : (storeBytes a bs s).enc = s.enc := rfl
@[simp] theorem storeBytes_delivLen : (storeBytes a bs s).delivLen = s.delivLen := rfl
@[simp] theorem storeBytes_fault : (storeBytes a bs s).fault = s.fault := rfl
@[simp] theorem storeBytes_mem : (storeBytes a bs s).mem = s.mem.writeBytes a bs := rfl
@[simp] theorem storeBytes_hostOps : (storeBytes a bs s).hostOps = s.hostOps := rfl
@[simp] theorem storeBytes_busData : (storeBytes a bs s).busData = s.busData := rfl
@[simp] theorem storeBytes_draws : (storeBytes a bs s).draws = s.draws := rfl

end StoreBytes

section ScrambleSpan
variable (p : Span) (s : State)

@[simp] theorem scrambleSpan_cfg : (scrambleSpan p s).cfg = s.cfg := rfl
@[simp] theorem scrambleSpan_a0 : (scrambleSpan p s).a0 = s.a0 := rfl
@[simp] theorem scrambleSpan_a1 : (scrambleSpan p s).a1 = s.a1 := rfl
@[simp] theorem scrambleSpan_a2 : (scrambleSpan p s).a2 = s.a2 := rfl
@[simp] theorem scrambleSpan_a3 : (scrambleSpan p s).a3 = s.a3 := rfl
@[simp] theorem scrambleSpan_a4 : (scrambleSpan p s).a4 = s.a4 := rfl
@[simp] theorem scrambleSpan_a5 : (scrambleSpan p s).a5 = s.a5 := rfl
@[simp] theorem scrambleSpan_result : (scrambleSpan p s).result = s.result := rfl
@[simp] theorem scrambleSpan_resultWritten : (scrambleSpan p s).resultWritten = s.resultWritten := rfl
@[simp] theorem scrambleSpan_code : (scrambleSpan p s).code = s.code := rfl
@[simp] theorem scrambleSpan_phase : (scrambleSpan p s).phase = s.phase := rfl
@[simp] theorem scrambleSpan_version : (scrambleSpan p s).version = s.version := rfl
@[simp] theorem scrambleSpan_cbValid : (scrambleSpan p s).cbValid = s.cbValid := rfl
@[simp] theorem scrambleSpan_cbHandle : (scrambleSpan p s).cbHandle = s.cbHandle := rfl
@[simp] theorem scrambleSpan_rxIndex : (scrambleSpan p s).rxIndex = s.rxIndex := rfl
@[simp] theorem scrambleSpan_rxbuf : (scrambleSpan p s).rxbuf = s.rxbuf := rfl
@[simp] theorem scrambleSpan_enc : (scrambleSpan p s).enc = s.enc := rfl
@[simp] theorem scrambleSpan_delivLen : (scrambleSpan p s).delivLen = s.delivLen := rfl
@[simp] theorem scrambleSpan_fault : (scrambleSpan p s).fault = s.fault := rfl
@[simp] theorem scrambleSpan_mem : (scrambleSpan p s).mem = s.mem.writeBytes p.ptr.toNat (freeBytes s.draws p.len.toNat) := rfl
@[simp] theorem scrambleSpan_hostOps : (scrambleSpan p s).hostOps = s.hostOps := rfl
@[simp] theorem scrambleSpan_busData : (scrambleSpan p s).busData = s.busData := rfl
@[simp] theorem scrambleSpan_draws : (scrambleSpan p s).draws = s.draws + p.len.toNat := rfl

end ScrambleSpan

section ScrambleRx
variable  (s : State)

@[simp] theorem scrambleRx_cfg : (scrambleRx s).cfg = s.cfg := rfl
@[simp] theorem scrambleRx_a0 : (scrambleRx s).a0 = s.a0 := rfl
@[simp] theorem scrambleRx_a1 : (scrambleRx s).a1 = s.a1 := rfl
@[simp] theorem scrambleRx_a2 : (scrambleRx s).a2 = s.a2 := rfl
@[simp] theorem scrambleRx_a3 : (scrambleRx s).a3 = s.a3 := rfl
@[simp] theorem scrambleRx_a4 : (scrambleRx s).a4 = s.a4 := rfl
@[simp] theorem scrambleRx_a5 : (scrambleRx s).a5 = s.a5 := rfl
@[simp] theorem scrambleRx_result : (scrambleRx s).result = s.result := rfl
@[simp] theorem scrambleRx_resultWritten : (scrambleRx s).resultWritten = s.resultWritten := rfl
@[simp] theorem scrambleRx_code : (scrambleRx s).code = s.code := rfl
@[simp] theorem scrambleRx_phase : (scrambleRx s).phase = s.phase := rfl
@[simp] theorem scrambleRx_version : (scrambleRx s).version = s.version := rfl
@[simp] theorem scrambleRx_cbValid : (scrambleRx s).cbValid = s.cbValid := rfl
@[simp] theorem scrambleRx_cbHandle : (scrambleRx s).cbHandle = s.cbHandle := rfl
@[simp] theorem scrambleRx_rxIndex : (scrambleRx s).rxIndex = s.rxIndex := rfl
@[simp] theorem scrambleRx_rxbuf : (scrambleRx s).rxbuf = freeBytes s.draws s.cfg.maxPacketSize := rfl
@[simp] theorem scrambleRx_enc : (scrambleRx s).enc = s.enc := rfl
@[simp] theorem scrambleRx_delivLen : (scrambleRx s).delivLen = s.delivLen := rfl
@[simp] theorem scrambleRx_fault : (scrambleRx s).fault = s.fault := rfl
@[simp] theorem scrambleRx_mem : (scrambleRx s).mem = s.mem := rfl
@[simp] theorem scrambleRx_hostOps : (scrambleRx s).hostOps = s.hostOps := rfl
@[simp] theorem scrambleRx_busData : (scrambleRx s).busData = s.busData := rfl
@[simp] theorem scrambleRx_draws : (scrambleRx s).draws = s.draws + s.cfg.maxPacketSize := rfl

end ScrambleRx

section DropPacket
variable (c : Status) (s : State)

@[simp] theorem dropPacket_cfg : (dropPacket c s).cfg = s.cfg := rfl
@[simp] theorem dropPacket_a0 : (dropPacket c s).a0 = s.a0 := rfl
@[simp] theorem dropPacket_a1 : (dropPacket c s).a1 = s.a1 := rfl
@[simp] theorem dropPacket_a2 : (dropPacket c s).a2 = s.a2 := rfl
@[simp] theorem dropPacket_a3 : (dropPacket c s).a3 = s.a3 := rfl
@[simp] theorem dropPacket_a4 : (dropPacket c s).a4 = s.a4 := rfl
@[simp] theorem dropPacket_a5 : (dropPacket c s).a5 = s.a5 := rfl
@[simp] theorem dropPacket_result : (dropPacket c s).result = s.result := rfl
@[simp] theorem dropPacket_resultWritten : (dropPacket c s).resultWritten = s.resultWritten := rfl
@[simp] theorem dropPacket_code : (dropPacket c s).code = c := rfl
@[simp] theorem dropPacket_phase : (dropPacket c s).phase = s.phase := rfl
@[simp] theorem dropPacket_version : (dropPacket c s).version = s.version := rfl
@[simp] theorem dropPacket_cbValid : (dropPacket c s).cbValid = s.cbValid := rfl
@[simp] theorem dropPacket_cbHandle : (dropPacket c s).cbHandle = s.cbHandle := rfl
@[simp] theorem dropPacket_rxIndex : (dropPacket c s).rxIndex = 0 := rfl
@[simp] theorem dropPacket_rxbuf : (dropPacket c s).rxbuf = freeBytes s.draws s.cfg.maxPacketSize := rfl
@[simp] theorem dropPacket_enc : (dropPacket c s).enc = s.enc := rfl
@[simp] theorem dropPacket_delivLen : (dropPacket c s).delivLen = s.delivLen := rfl
@[simp] theorem dropPacket_fault : (dropPacket c s).fault = s.fault := rfl
@[simp] theorem dropPacket_mem : (dropPacket c s).mem = s.mem := rfl
@[simp] theorem dropPacket_hostOps : (dropPacket c s).hostOps = s.hostOps := rfl
@[simp] theorem dropPacket_busData : (dropPacket c s).busData = s.busData := rfl
@[simp] theorem dropPacket_draws : (dropPacket c s).draws = s.draws + s.cfg.maxPacketSize := rfl

end DropPacket

section WithEnc
variable (r : EncStep) (s : State)

@[simp] theorem withEnc_cfg : (withEnc r s).cfg = s.cfg := rfl
@[simp] theorem withEnc_a0 : (withEnc r s).a0 = s.a0 := rfl
@[simp] theorem withEnc_a1 : (withEnc r s).a1 = s.a1 := rfl
@[simp] theorem withEnc_a2 : (withEnc r s).a2 = s.a2 := rfl
@[simp] theorem withEnc_a3 : (withEnc r s).a3 = s.a3 := rfl
@[simp] theorem withEnc_a4 : (withEnc r s).a4 = s.a4 := rfl
@[simp] theorem withEnc_a5 : (withEnc r s).a5 = s.a5 := rfl
@[simp] theorem withEnc_result : (withEnc r s).result = s.result := rfl
@[simp] theorem withEnc_resultWritten : (withEnc r s).resultWritten = s.resultWritten := rfl
@[simp] theorem withEnc_code : (withEnc r s).code = s.code := rfl
@[simp] theorem withEnc_phase : (withEnc r s).phase = s.phase := rfl
@[simp] theorem withEnc_version : (withEnc r s).version = s.version := rfl
@[simp] theorem withEnc_cbValid : (withEnc r s).cbValid = s.cbValid := rfl
@[simp] theorem withEnc_cbHandle : (withEnc r s).cbHandle = s.cbHandle := rfl
@[simp] theorem withEnc_rxIndex : (withEnc r s).rxIndex = s.rxIndex := rfl
@[simp] theorem withEnc_rxbuf : (withEnc r s).rxbuf = s.rxbuf := rfl
@[simp] theorem withEnc_enc : (withEnc r s).enc = r.enc := rfl
@[simp] theorem withEnc_delivLen : (withEnc r s).delivLen = s.delivLen := rfl
@[simp] theorem withEnc_fault : (withEnc r s).fault = s.fault := rfl
@[simp] theorem withEnc_mem : (withEnc r s).mem = r.mem := rfl
@[simp] theorem withEnc_hostOps : (withEnc r s).hostOps = s.hostOps := rfl
@[simp] theorem withEnc_busData : (withEnc r s).busData = s.busData := rfl
@[simp] theorem withEnc_draws : (withEnc r s).draws = s.draws := rfl

end WithEnc

section SetArg
variable (i : ArgIdx) (v : Word) (s : State)

@[simp] theorem setArg_cfg : (setArg i v s).cfg = s.cfg := by cases i <;> rfl
@[simp] theorem setArg_result : (setArg i v s).result = s.result := by cases i <;> rfl
@[simp] theorem setArg_resultWritten : (setArg i v s).resultWritten = s.resultWritten := by cases i <;> rfl
@[simp] theorem setArg_code : (setArg i v s).code = s.code := by cases i <;> rfl
@[simp] theorem setArg_phase : (setArg i v s).phase = s.phase := by cases i <;> rfl
@[simp] theorem setArg_version : (setArg i v s).version = s.version := by cases i <;> rfl
@[simp] theorem setArg_cbValid : (setArg i v s).cbValid = s.cbValid := by cases i <;> rfl
@[simp] theorem setArg_cbHandle : (setArg i v s).cbHandle = s.cbHandle := by cases i <;> rfl
@[simp] theorem setArg_rxIndex : (setArg i v s).rxIndex = s.rxIndex := by cases i <;> rfl
@[simp] theorem setArg_rxbuf : (setArg i v s).rxbuf = s.rxbuf := by cases i <;> rfl
@[simp] theorem setArg_enc : (setArg i v s).enc = s.enc := by cases i <;> rfl
@[simp] theorem setArg_delivLen : (setArg i v s).delivLen = s.delivLen := by cases i <;> rfl
@[simp] theorem setArg_fault : (setArg i v s).fault = s.fault := by cases i <;> rfl
@[simp] theorem setArg_mem : (setArg i v s).mem = s.mem := by cases i <;> rfl
@[simp] theorem setArg_hostOps : (setArg i v s).hostOps = s.hostOps := by cases i <;> rfl
@[simp] theorem setArg_busData : (setArg i v s).busData = s.busData := by cases i <;> rfl
@[simp] theorem setArg_draws : (setArg i v s).draws = s.draws := by cases i <;> rfl

/-- A write of Ai gives Ai its value and mark and leaves the other argument registers (10_state.md R102, R103). -/
theorem setArg_arg (j : ArgIdx) : (setArg i v s).arg j = if j = i then ⟨v, true⟩ else s.arg j := by
  cases i <;> cases j <;> rfl

end SetArg

section HostReset
variable (s : State)

@[simp] theorem hostReset_cfg : (hostReset s).cfg = s.cfg := rfl
@[simp] theorem hostReset_a0 : (hostReset s).a0 = ⟨0, false⟩ := rfl
@[simp] theorem hostReset_a1 : (hostReset s).a1 = ⟨0, false⟩ := rfl
@[simp] theorem hostReset_a2 : (hostReset s).a2 = ⟨0, false⟩ := rfl
@[simp] theorem hostReset_a3 : (hostReset s).a3 = ⟨0, false⟩ := rfl
@[simp] theorem hostReset_a4 : (hostReset s).a4 = ⟨0, false⟩ := rfl
@[simp] theorem hostReset_a5 : (hostReset s).a5 = ⟨0, false⟩ := rfl
@[simp] theorem hostReset_result : (hostReset s).result = 0 := rfl
@[simp] theorem hostReset_resultWritten : (hostReset s).resultWritten = false := rfl
@[simp] theorem hostReset_code : (hostReset s).code = .ok := rfl
@[simp] theorem hostReset_phase : (hostReset s).phase = .idle := rfl
@[simp] theorem hostReset_version : (hostReset s).version = 1 := rfl
@[simp] theorem hostReset_cbValid : (hostReset s).cbValid = false := rfl
@[simp] theorem hostReset_cbHandle : (hostReset s).cbHandle = 0 := rfl
@[simp] theorem hostReset_rxIndex : (hostReset s).rxIndex = 0 := rfl
@[simp] theorem hostReset_rxbuf : (hostReset s).rxbuf = List.replicate s.cfg.maxPacketSize 0 := rfl
@[simp] theorem hostReset_enc : (hostReset s).enc = Enc.reset := rfl
@[simp] theorem hostReset_delivLen : (hostReset s).delivLen = 0 := rfl
@[simp] theorem hostReset_fault : (hostReset s).fault = none := rfl
@[simp] theorem hostReset_mem : (hostReset s).mem = s.mem := rfl
@[simp] theorem hostReset_hostOps : (hostReset s).hostOps = s.hostOps := rfl
@[simp] theorem hostReset_busData : (hostReset s).busData = s.busData := rfl
@[simp] theorem hostReset_draws : (hostReset s).draws = s.draws := rfl

end HostReset

end Sys2Proof.Machine
end

