-- ==== Sys2Proof/Laws/Ops.lean ====
section
/-! SUPPORT. One lemma per shared operation, saying all it can do: the guards every command passes, the span checks as
the conditions of 20_memory.md R212 to R217, and the bytes of a span. -/

namespace Sys2Proof.Machine

@[simp] theorem unlessFaulted_none {s : State} (h : s.fault = none) (k : Result) : unlessFaulted s k = k := by
  simp [unlessFaulted, h]

theorem unlessFaulted_some {s : State} {r : FaultReason} (h : s.fault = some r) (k : Result) :
    unlessFaulted s k = .fault (.halted r) := by
  simp [unlessFaulted, h]

/-- A guarded operation that answers a next state had no fault before it. -/
theorem unlessFaulted_next {s t : State} {k : Result} (h : unlessFaulted s k = .next t) :
    s.fault = none ∧ k = .next t := by
  unfold unlessFaulted at h
  split at h
  · cases h
  · exact ⟨‹_›, h⟩

theorem raise_next {r : FaultReason} {s t : State} (h : raise r s = .next t) : t = { s with fault := some r } := by
  simpa [raise] using h.symm

/-- Past the re-entry check: either Reentrant is raised in a delivery, or the block is idle (30_encoding.md R307). -/
theorem unlessDelivering_next {i : Instr} {s t : State} {k : Result} (h : unlessDelivering i s k = .next t) :
    (s.phase = .delivering ∧ t = { s with fault := some (.reentrant (encode i)) }) ∨
      (s.phase = .idle ∧ k = .next t) := by
  unfold unlessDelivering at h
  split at h
  · exact .inl ⟨‹_›, raise_next h⟩
  · exact .inr ⟨‹_›, h⟩

@[simp] theorem unlessDelivering_idle {s : State} (h : s.phase = .idle) (i : Instr) (k : Result) :
    unlessDelivering i s k = k := by
  simp [unlessDelivering, h]

theorem unlessDelivering_delivering {s : State} (h : s.phase = .delivering) (i : Instr) (k : Result) :
    unlessDelivering i s k = raise (.reentrant (encode i)) s := by
  simp [unlessDelivering, h]

theorem firstUnwritten_none {s : State} {is : List ArgIdx} :
    s.firstUnwritten is = none ↔ ∀ i ∈ is, (s.arg i).written = true := by
  simp [State.firstUnwritten]

/-- Past the written marks: either UnwrittenArg is raised, or every listed register is written (10_state.md R103). -/
theorem withArgs_next {is : List ArgIdx} {s t : State} {k : Result} (h : withArgs is s k = .next t) :
    (∃ i ∈ is, (s.arg i).written = false ∧ t = { s with fault := some (.unwrittenArg i) }) ∨
      ((∀ i ∈ is, (s.arg i).written = true) ∧ k = .next t) := by
  unfold withArgs at h
  split at h
  · rename_i i hi
    refine .inl ⟨i, List.mem_of_find?_eq_some hi, ?_, raise_next h⟩
    simpa using List.find?_some hi
  · exact .inr ⟨firstUnwritten_none.1 ‹_›, h⟩

@[simp] theorem withArgs_nil (s : State) (k : Result) : withArgs [] s k = k := rfl

theorem withArgs_written {is : List ArgIdx} {s : State} (h : ∀ i ∈ is, (s.arg i).written = true) (k : Result) :
    withArgs is s k = k := by
  simp [withArgs, firstUnwritten_none.2 h]

/-- Past the span checks: either the fault found is raised, or none was found. -/
theorem onceAdmitted_next {f : Option FaultReason} {s t : State} {k : Result} (h : onceAdmitted f s k = .next t) :
    (∃ r, f = some r ∧ t = { s with fault := some r }) ∨ (f = none ∧ k = .next t) := by
  unfold onceAdmitted at h
  split at h
  · exact .inl ⟨_, rfl, raise_next h⟩
  · exact .inr ⟨rfl, h⟩

@[simp] theorem onceAdmitted_none (s : State) (k : Result) : onceAdmitted none s k = k := rfl

theorem firstRefused_none {ok : Nat → Bool} {a n : Nat} :
    firstRefused ok a n = none ↔ ∀ k, k < n → ok (a + k) = true := by
  induction n generalizing a with
  | zero => simp [firstRefused]
  | succ n ih =>
    simp only [firstRefused]
    split
    · rename_i h
      rw [ih]
      constructor
      · intro H k hk
        cases k with
        | zero => exact h
        | succ k => rw [show a + (k + 1) = a + 1 + k by omega]; exact H k (by omega)
      · intro H k hk
        rw [show a + 1 + k = a + (k + 1) by omega]; exact H (k + 1) (by omega)
    · rename_i h
      simp only [reduceCtorEq, false_iff]
      intro H
      exact h (H 0 (by omega))

/-- The first address that fails is the one that fails with none before it failing. -/
theorem firstRefused_at {ok : Nat → Bool} {a n k : Nat} (hk : k < n) (hb : ∀ j, j < k → ok (a + j) = true)
    (h : ok (a + k) = false) : firstRefused ok a n = some (a + k) := by
  induction k generalizing a n with
  | zero => cases n with
    | zero => cases hk
    | succ n => simp_all [firstRefused]
  | succ k ih => cases n with
    | zero => cases hk
    | succ n =>
      have h0 : ok a = true := hb 0 (by omega)
      rw [firstRefused, if_pos h0, ih (a := a + 1) (by omega) (fun j hj => Nat.add_right_comm a j 1 ▸ hb (j + 1) (by omega))
        (by rwa [Nat.add_right_comm])]
      congr 1
      omega

/-- The address found is the first of the run for which the check fails. -/
theorem firstRefused_some {ok : Nat → Bool} {a n x : Nat} (h : firstRefused ok a n = some x) :
    a ≤ x ∧ x < a + n ∧ ok x = false ∧ ∀ y, a ≤ y → y < x → ok y = true := by
  induction n generalizing a with
  | zero => simp [firstRefused] at h
  | succ n ih =>
    simp only [firstRefused] at h
    split at h
    · rename_i hok
      obtain ⟨h1, h2, h3, h4⟩ := ih h
      refine ⟨by omega, by omega, h3, fun y hy hyx => ?_⟩
      rcases Nat.eq_or_lt_of_le hy with rfl | hlt
      · exact hok
      · exact h4 y hlt hyx
    · rename_i hok
      cases h
      exact ⟨le_rfl, by omega, by simpa using hok, fun y hy hyx => by omega⟩

theorem Span.wraps_false {p : Span} : p.wraps = false ↔ p.fits := by
  simp only [Span.wraps, Span.fits, decide_eq_false_iff_not]
  omega

theorem Span.overlaps_false {p q : Span} : p.overlaps q = false ↔ p.apart q := by
  simp only [Span.overlaps, Span.apart, decide_eq_false_iff_not]
  constructor
  · intro h j k hj hk heq
    exact h ⟨by omega, by omega, by omega, by omega⟩
  · rintro h ⟨h1, h2, h3, h4⟩
    by_cases hle : p.ptr.toNat ≤ q.ptr.toNat
    · exact h (q.ptr.toNat - p.ptr.toNat) 0 (by omega) h2 (by omega)
    · exact h 0 (p.ptr.toNat - q.ptr.toNat) h1 (by omega) (by omega)

theorem wrapFault_none {ps : List Span} : wrapFault ps = none ↔ ∀ p ∈ ps, p.fits := by
  simp [wrapFault, Span.wraps_false]

theorem inputFault_none {s : State} {ps : List Span} :
    inputFault s ps = none ↔ ∀ p ∈ ps, ∀ k, k < p.len.toNat →
      s.inHostMem (p.ptr.toNat + k) = true ∨ s.windowReadable (p.ptr.toNat + k) = true := by
  simp [inputFault, Span.firstRefused, firstRefused_none, State.inputAdmitted]

theorem outputFault_none {s : State} {p : Span} :
    outputFault s [p] = none ↔ ∀ k, k < p.len.toNat → s.inHostMem (p.ptr.toNat + k) = true := by
  simp [outputFault, Span.firstRefused, firstRefused_none, State.outputAdmitted]

theorem overlapFault_none {ins : List Span} {out : Span} :
    overlapFault ins out = none ↔ ∀ p ∈ ins, out.apart p := by
  simp [overlapFault, Span.overlaps_false]

theorem orElse_none {f g : Option FaultReason} : (f <|> g) = none ↔ f = none ∧ g = none := by
  cases f <;> simp

theorem readFault_none {s : State} {p : Span} : readFault s [p] = none ↔ s.readableSpan p := by
  simp [readFault, wrapFault_none, inputFault_none, State.readableSpan]

theorem writeFault_none {s : State} {p : Span} : writeFault s p = none ↔ s.writableSpan p := by
  simp [writeFault, wrapFault_none, outputFault_none, State.writableSpan]

theorem copyFault_none {s : State} {ins : List Span} {out : Span} :
    copyFault s ins out = none ↔
      (∀ p ∈ ins, s.readableSpan p) ∧ s.writableSpan out ∧ ∀ p ∈ ins, out.apart p := by
  simp only [copyFault, orElse_none, wrapFault_none, inputFault_none, outputFault_none, overlapFault_none,
    State.readableSpan, State.writableSpan, List.mem_append, List.mem_singleton]
  constructor
  · rintro ⟨h1, h2, h3, h4⟩
    exact ⟨fun p hp => ⟨h1 p (.inl hp), h2 p hp⟩, ⟨h1 out (.inr rfl), h3⟩, h4⟩
  · rintro ⟨h1, ⟨h2, h3⟩, h4⟩
    refine ⟨?_, fun p hp => (h1 p hp).2, h3, h4⟩
    rintro p (hp | rfl)
    · exact (h1 p hp).1
    · exact h2

@[simp] theorem bytesFrom_length (s : State) (a n : Nat) : (s.bytesFrom a n).length = n := by
  induction n generalizing a with
  | zero => rfl
  | succ n ih => simp [State.bytesFrom, ih]

theorem bytesFrom_getElem (s : State) (a n k : Nat) (h : k < (s.bytesFrom a n).length) :
    (s.bytesFrom a n)[k] = s.byteAt (a + k) := by
  induction n generalizing a k with
  | zero => simp at h
  | succ n ih =>
    cases k with
    | zero => rfl
    | succ k =>
      simp only [State.bytesFrom, List.getElem_cons_succ]
      rw [ih (a + 1) k (by simpa [State.bytesFrom] using h), show a + 1 + k = a + (k + 1) by omega]

/-- A byte depends only on the construction constants, RXBUF and host memory. -/
theorem byteAt_congr {s t : State} {a : Nat} (h1 : t.cfg = s.cfg) (h2 : t.rxbuf = s.rxbuf)
    (h3 : t.mem.read a = s.mem.read a) : t.byteAt a = s.byteAt a := by
  simp [State.byteAt, State.inWindow, h1, h2, h3]

end Sys2Proof.Machine
end

