-- ==== Sys2Proof/Laws/Commands.lean ====
section
/-! SUPPORT. One inversion lemma per command: if the command answers a next state, the block was not faulted, and either a
fault was raised with no other effect, or one of the command's own effects took place, under its conditions. Every
invariant and frame is derived from these. -/

namespace Sys2Proof.Machine

/-- `t` is `s` with a fault raised and nothing else changed (60_exceptions.md R720). -/
def Raised (s t : State) : Prop := ∃ r, t = { s with fault := some r }

/-- The guards of a command that may run in a delivery. -/
theorem guarded_next {i : Instr} {s t : State} {k : Result}
    (h : (unlessFaulted s <| withArgs (commandArgs i) s k) = .next t) :
    s.fault = none ∧ (Raised s t ∨ (s.ready i ∧ k = .next t)) := by
  obtain ⟨hf, h⟩ := unlessFaulted_next h
  refine ⟨hf, ?_⟩
  obtain ⟨j, -, -, rfl⟩ | ⟨hw, h⟩ := withArgs_next h
  · exact .inl ⟨_, rfl⟩
  · exact .inr ⟨⟨hf, hw⟩, h⟩

/-- The guards pass in a ready block. -/
theorem guarded_ready {i : Instr} {s : State} (h : s.ready i) (k : Result) :
    (unlessFaulted s <| withArgs (commandArgs i) s k) = k := by
  rw [unlessFaulted_none h.1, withArgs_written h.2]

theorem execCrc32_cases {s t : State} (h : execCrc32 s = .next t) :
    s.fault = none ∧ (Raised s t ∨ (s.ready .crc32 ∧
      (t = complete .invalidParameter s ∨
        (s.readableSpan (s.span .a0 .a1) ∧ t = completeWith (crc32 (s.readSpan (s.span .a0 .a1))) s)))) := by
  obtain ⟨hf, h | ⟨hr, h⟩⟩ := guarded_next h
  · exact ⟨hf, .inl h⟩
  refine ⟨hf, ?_⟩
  dsimp only at h
  split at h
  · cases h; exact .inr ⟨hr, .inl rfl⟩
  · obtain ⟨r, -, rfl⟩ | ⟨hn, h⟩ := onceAdmitted_next h
    · exact .inl ⟨r, rfl⟩
    · cases h; exact .inr ⟨hr, .inr ⟨readFault_none.1 hn, rfl⟩⟩

theorem execCobsBegin_cases {s t : State} (h : execCobsBegin s = .next t) :
    s.fault = none ∧ (Raised s t ∨ (s.ready .cobsBegin ∧
      (t = complete .invalidParameter { s with enc := { s.enc with state := .failed } } ∨
        (s.a0.value ≠ 0 ∧ s.a1.value ≠ 0 ∧ s.writableSpan (s.span .a0 .a1) ∧
          t = complete .ok (withEnc (encBegin s.a0.value s.a1.value (Config.freeByte s.draws) s.mem)
            { s with draws := s.draws + 1 }))))) := by
  obtain ⟨hf, h | ⟨hr, h⟩⟩ := guarded_next h
  · exact ⟨hf, .inl h⟩
  refine ⟨hf, ?_⟩
  dsimp only at h
  split at h
  · cases h; exact .inr ⟨hr, .inl rfl⟩
  · rename_i hz
    obtain ⟨r, -, rfl⟩ | ⟨hn, h⟩ := onceAdmitted_next h
    · exact .inl ⟨r, rfl⟩
    · cases h
      exact .inr ⟨hr, .inr ⟨fun h => hz (.inl h), fun h => hz (.inr h), writeFault_none.1 hn, rfl⟩⟩

theorem execCobsPut_cases {b : Byte} {s t : State} (h : execCobsPut b s = .next t) :
    s.fault = none ∧ ((s.enc.state ≠ .active ∧ t = complete .invalidParameter s) ∨
      (s.enc.state = .active ∧
        t = complete (if (encPut s.enc s.mem b).ok then .ok else .invalidParameter)
          (withEnc (encPut s.enc s.mem b) s))) := by
  obtain ⟨hf, h⟩ := unlessFaulted_next h
  refine ⟨hf, ?_⟩
  simp only [commandArgs, withArgs_nil] at h
  split at h
  · cases h; exact .inl ⟨‹_›, rfl⟩
  · rename_i ha; cases h; exact .inr ⟨not_not.1 ha, rfl⟩

theorem execCobsEnd_cases {s t : State} (h : execCobsEnd s = .next t) :
    s.fault = none ∧ ((s.enc.state ≠ .active ∧ t = complete .invalidParameter s) ∨
      (s.enc.state = .active ∧ t = completeWith s.enc.wi (withEnc (encEnd s.enc s.mem) s))) := by
  obtain ⟨hf, h⟩ := unlessFaulted_next h
  refine ⟨hf, ?_⟩
  simp only [commandArgs, withArgs_nil] at h
  split at h
  · cases h; exact .inl ⟨‹_›, rfl⟩
  · rename_i ha; cases h; exact .inr ⟨not_not.1 ha, rfl⟩

theorem execCobsEnc2_cases {s t : State} (h : execCobsEnc2 s = .next t) :
    s.fault = none ∧ (Raised s t ∨ (s.ready .cobsEnc2 ∧
      (t = complete .invalidParameter s ∨
        (s.writableSpan (s.span .a4 .a5) ∧ s.a4.value ≠ 0 ∧ s.a5.value ≠ 0 ∧
          ((∃ len u, encodeSpan s.a4.value s.a5.value
              (s.readSpan (s.span .a0 .a1) ++ s.readSpan (s.span .a2 .a3)) s = some (len, u) ∧
            t = completeWith len u) ∨
           t = complete .invalidParameter (scrambleSpan (s.span .a4 .a5) s)))))) := by
  obtain ⟨hf, h | ⟨hr, h⟩⟩ := guarded_next h
  · exact ⟨hf, .inl h⟩
  refine ⟨hf, ?_⟩
  dsimp only at h
  split at h
  · cases h; exact .inr ⟨hr, .inl rfl⟩
  rename_i hz
  split at h
  · cases h; exact .inr ⟨hr, .inl rfl⟩
  split at h
  · cases h; exact .inr ⟨hr, .inl rfl⟩
  obtain ⟨r, -, rfl⟩ | ⟨hn, h⟩ := onceAdmitted_next h
  · exact .inl ⟨r, rfl⟩
  obtain ⟨-, hw, -⟩ := copyFault_none.1 hn
  refine .inr ⟨hr, .inr ⟨hw, fun h => hz (.inl h), fun h => hz (.inr h), ?_⟩⟩
  split at h
  · rename_i he; cases h; exact .inl ⟨_, _, he, rfl⟩
  · cases h; exact .inr rfl

theorem execCobsDec_cases {s t : State} (h : execCobsDec s = .next t) :
    s.fault = none ∧ (Raised s t ∨ (s.ready .cobsDec ∧
      (t = complete .cobsDecodeFailed s ∨ t = complete .invalidParameter s ∨
        (s.writableSpan (s.span .a0 .a1) ∧
          ((∃ buf w, cobsDecode (s.readSpan (s.span .a0 .a1)) s.a1.value.toNat = some (buf, w) ∧
            t = completeWith (BitVec.ofNat 32 w) (storeBytes s.a0.value.toNat (buf.take w) s)) ∨
           t = complete .cobsDecodeFailed (scrambleSpan (s.span .a0 .a1) s)))))) := by
  obtain ⟨hf, h | ⟨hr, h⟩⟩ := guarded_next h
  · exact ⟨hf, .inl h⟩
  refine ⟨hf, ?_⟩
  dsimp only at h
  split at h
  · cases h; exact .inr ⟨hr, .inl rfl⟩
  split at h
  · cases h; exact .inr ⟨hr, .inr (.inl rfl)⟩
  obtain ⟨r, -, rfl⟩ | ⟨hn, h⟩ := onceAdmitted_next h
  · exact .inl ⟨r, rfl⟩
  refine .inr ⟨hr, .inr (.inr ⟨writeFault_none.1 hn, ?_⟩)⟩
  split at h
  · cases h; exact .inr rfl
  · rename_i he; cases h; exact .inl ⟨_, _, he, rfl⟩

theorem execFrPkt_cases {s t : State} (h : execFrPkt s = .next t) :
    s.fault = none ∧ (Raised s t ∨ (s.ready .frPkt ∧
      (t = complete .invalidParameter s ∨
        (s.writableSpan (s.span .a2 .a3) ∧ s.a2.value ≠ 0 ∧ 2 ≤ s.a3.value.toNat ∧
          ((∃ len u, encodeSpan s.a2.value (s.a3.value - 1)
              (s.readSpan (s.span .a0 .a1) ++ bytesBe32 (crc32 (s.readSpan (s.span .a0 .a1)))) s = some (len, u) ∧
            t = completeWith (len + 1) (storeBytes (s.a2.value.toNat + len.toNat) [0] u)) ∨
           t = complete .invalidParameter (scrambleSpan (s.span .a2 .a3) s)))))) := by
  obtain ⟨hf, h | ⟨hr, h⟩⟩ := guarded_next h
  · exact ⟨hf, .inl h⟩
  refine ⟨hf, ?_⟩
  dsimp only at h
  split at h
  · cases h; exact .inr ⟨hr, .inl rfl⟩
  rename_i hz
  split at h
  · cases h; exact .inr ⟨hr, .inl rfl⟩
  rename_i h2
  obtain ⟨r, -, rfl⟩ | ⟨hn, h⟩ := onceAdmitted_next h
  · exact .inl ⟨r, rfl⟩
  obtain ⟨-, hw, -⟩ := copyFault_none.1 hn
  refine .inr ⟨hr, .inr ⟨hw, fun h => hz (.inr h), ?_, ?_⟩⟩
  · have h3 : ¬ s.a3.value.toNat < 2 := h2
    omega
  split at h
  · rename_i he; cases h; exact .inl ⟨_, _, he, rfl⟩
  · cases h; exact .inr rfl

/-- What a delimiter that ends a packet can do (42_framer.md R510, R513, R520, R521). -/
theorem frDelimiter_cases {s t : State} (h : frDelimiter s = .next t) :
    (s.rxIndex = 0 ∧ t = complete .ok s) ∨
    (s.rxIndex ≠ 0 ∧
      ((∃ c, c ∈ [Status.cobsDecodeFailed, .frameHeaderSize, .crcMismatch] ∧ t = dropPacket c s) ∨
       ∃ buf w, cobsDecode s.rxbuf s.rxIndex = some (buf, w) ∧ 4 ≤ w ∧
        ((s.cbValid = true ∧ t = handOver (w - 4) { s with rxIndex := 0, rxbuf := buf }) ∨
         (s.cbValid = false ∧ t = complete .invalidParameter { s with rxIndex := 0, rxbuf := buf })))) := by
  unfold frDelimiter at h
  split at h
  · cases h; exact .inl ⟨‹_›, rfl⟩
  refine .inr ⟨‹_›, ?_⟩
  split at h
  · cases h; exact .inl ⟨_, by simp, rfl⟩
  · rename_i buf w hd
    split at h
    · cases h; exact .inl ⟨_, by simp, rfl⟩
    rename_i hw
    split at h
    · cases h; exact .inl ⟨_, by simp, rfl⟩
    refine .inr ⟨buf, w, hd, by omega, ?_⟩
    dsimp only at h
    split at h
    · cases h; exact .inl ⟨‹_›, rfl⟩
    · rename_i hv; cases h; exact .inr ⟨by simpa using hv, rfl⟩

theorem execFrByte_cases {b : Byte} {s t : State} (h : execFrByte b s = .next t) :
    s.fault = none ∧ ((s.phase = .delivering ∧ Raised s t) ∨ (s.phase = .idle ∧
      ((b = 0 ∧ frDelimiter s = .next t) ∨
       (b ≠ 0 ∧ s.rxIndex = s.cfg.maxPacketSize ∧ t = complete .frameTooLarge { s with rxIndex := 0 }) ∨
       (b ≠ 0 ∧ s.rxIndex ≠ s.cfg.maxPacketSize ∧
        t = complete .ok { s with rxbuf := s.rxbuf.set s.rxIndex b, rxIndex := s.rxIndex + 1 })))) := by
  obtain ⟨hf, h⟩ := unlessFaulted_next h
  refine ⟨hf, ?_⟩
  obtain ⟨hp, rfl⟩ | ⟨hp, h⟩ := unlessDelivering_next h
  · exact .inl ⟨hp, _, rfl⟩
  refine .inr ⟨hp, ?_⟩
  simp only [commandArgs, withArgs_nil] at h
  split at h
  · exact .inl ⟨‹_›, h⟩
  · unfold frAppend at h
    split at h
    · cases h; exact .inr (.inl ⟨‹_›, ‹_›, rfl⟩)
    · cases h; exact .inr (.inr ⟨‹_›, ‹_›, rfl⟩)

theorem execFrReg_cases {s t : State} (h : execFrReg s = .next t) :
    s.fault = none ∧ (Raised s t ∨ (s.phase = .idle ∧ s.ready .frReg ∧
      (t = complete .invalidParameter s ∨
        (s.a0.value ≠ 0 ∧ t = complete .ok { s with cbHandle := s.a0.value, cbValid := true })))) := by
  obtain ⟨hf, h⟩ := unlessFaulted_next h
  refine ⟨hf, ?_⟩
  obtain ⟨-, rfl⟩ | ⟨hp, h⟩ := unlessDelivering_next h
  · exact .inl ⟨_, rfl⟩
  obtain ⟨j, -, -, rfl⟩ | ⟨hw, h⟩ := withArgs_next h
  · exact .inl ⟨_, rfl⟩
  refine .inr ⟨hp, ⟨hf, hw⟩, ?_⟩
  dsimp only at h
  split at h
  · cases h; exact .inl rfl
  · cases h; exact .inr ⟨‹_›, rfl⟩

theorem execFbBuild_cases {id : Byte} {s t : State} (h : execFbBuild id s = .next t) :
    s.fault = none ∧ (Raised s t ∨ (s.ready (.fbBuild id) ∧
      (t = complete .invalidParameter s ∨
        (s.writableSpan (s.span .a3 .a4) ∧ 8 + s.a2.value.toNat ≤ s.a4.value.toNat ∧
          t = completeWith (BitVec.ofNat 32 (8 + s.a2.value.toNat))
            (storeBytes s.a3.value.toNat
              (frameHeader s.version id s.a0.value s.a2.value.toNat ++ s.readSpan (s.span .a1 .a2)) s))))) := by
  obtain ⟨hf, h | ⟨hr, h⟩⟩ := guarded_next h
  · exact ⟨hf, .inl h⟩
  refine ⟨hf, ?_⟩
  dsimp only at h
  split at h
  · cases h; exact .inr ⟨hr, .inl rfl⟩
  split at h
  · cases h; exact .inr ⟨hr, .inl rfl⟩
  split at h
  · cases h; exact .inr ⟨hr, .inl rfl⟩
  split at h
  · cases h; exact .inr ⟨hr, .inl rfl⟩
  rename_i hc
  obtain ⟨r, -, rfl⟩ | ⟨hn, h⟩ := onceAdmitted_next h
  · exact .inl ⟨r, rfl⟩
  obtain ⟨-, hw, -⟩ := copyFault_none.1 hn
  cases h
  exact .inr ⟨hr, .inr ⟨hw, by simpa [State.span, State.arg] using hc, rfl⟩⟩

/-- An encoding by an encoder of the command's own changes host memory and the draw counter only. -/
theorem encodeSpan_some {out cap : Word} {bs : List Byte} {s u : State} {len : Word}
    (h : encodeSpan out cap bs s = some (len, u)) :
    ∃ m, u = { s with mem := m, draws := s.draws + 1 } ∧
      (let b := encBegin out cap (Config.freeByte s.draws) s.mem
       let r := encPutAll b.enc b.mem bs
       r.ok = true ∧ len = r.enc.wi ∧ m = (encEnd r.enc r.mem).mem) := by
  unfold encodeSpan at h
  dsimp only at h
  split at h
  · rename_i hok
    simp only [Option.some.injEq, Prod.mk.injEq] at h
    exact ⟨_, h.2.symm, hok, h.1.symm, rfl⟩
  · cases h

end Sys2Proof.Machine
end

