-- ==== Sys2Proof/Laws/Encoding.lean ====
section
/-! SUPPORT. The three equations that characterise the COBS encoding of 41_cobs.md R470 group by group, the case split on a
byte sequence that goes with them, and how the decoder reads one group. -/

namespace Sys2Proof.Machine

theorem zeroFree_ne_nil (s : List Byte) : zeroFree s ≠ [] := by
  cases s with
  | nil => simp [zeroFree]
  | cons b s =>
    simp only [zeroFree]
    split
    · simp
    · split <;> simp

/-- A zero-free front extends the first segment. -/
theorem zeroFree_append {q : List Byte} (hq : (0 : Byte) ∉ q) {s t : List Byte} {ts : List (List Byte)}
    (h : zeroFree s = t :: ts) : zeroFree (q ++ s) = (q ++ t) :: ts := by
  induction q with
  | nil => simpa using h
  | cons b q ih =>
    obtain ⟨hb, hq⟩ := not_or.1 (by simpa using hq : ¬ (0 = b ∨ (0 : Byte) ∈ q))
    simp only [List.cons_append, zeroFree]
    rw [if_neg (Ne.symm hb), ih hq]

theorem zeroFree_self {q : List Byte} (hq : (0 : Byte) ∉ q) : zeroFree q = [q] := by
  simpa using zeroFree_append hq (s := []) rfl

theorem zeroFree_zero {q : List Byte} (hq : (0 : Byte) ∉ q) (s : List Byte) :
    zeroFree (q ++ 0 :: s) = q :: zeroFree s := by
  simpa using zeroFree_append hq (s := 0 :: s) (t := []) (ts := zeroFree s) (by simp [zeroFree])

theorem seg_short {q : List Byte} (h : q.length < 254) : seg q = BitVec.ofNat 8 (q.length + 1) :: q := by
  simp [seg, Nat.div_eq_of_lt h, segGroups]

theorem seg_run {q t : List Byte} (h : q.length = 254) : seg (q ++ t) = 0xFF :: (q ++ seg t) := by
  have hd : (q ++ t).length / 254 = t.length / 254 + 1 := by
    rw [List.length_append, h]; omega
  rw [seg, hd, segGroups, List.take_append_of_le_length (by omega), List.drop_append_of_le_length (by omega),
    List.take_of_length_le (by omega), List.drop_of_length_le (by omega), List.nil_append, seg]

/-- The last group: fewer than 254 bytes, none zero. -/
theorem cobsEnc_short {q : List Byte} (hq : (0 : Byte) ∉ q) (h : q.length < 254) :
    cobsEnc q = BitVec.ofNat 8 (q.length + 1) :: q := by
  simp [cobsEnc, zeroFree_self hq, seg_short h]

/-- A group that a zero byte ends. -/
theorem cobsEnc_zero {q : List Byte} (hq : (0 : Byte) ∉ q) (h : q.length < 254) (s : List Byte) :
    cobsEnc (q ++ 0 :: s) = BitVec.ofNat 8 (q.length + 1) :: (q ++ cobsEnc s) := by
  rw [cobsEnc, zeroFree_zero hq, List.flatMap_cons, seg_short h, List.cons_append, cobsEnc]

/-- A group of 254 data bytes. -/
theorem cobsEnc_run {q : List Byte} (hq : (0 : Byte) ∉ q) (h : q.length = 254) (s : List Byte) :
    cobsEnc (q ++ s) = 0xFF :: (q ++ cobsEnc s) := by
  obtain ⟨t, ts, hs⟩ := List.exists_cons_of_ne_nil (zeroFree_ne_nil s)
  simp [cobsEnc, zeroFree_append hq hs, hs, seg_run h]

/-- The number of 254-runs, group by group. -/
theorem fullRuns_short {q : List Byte} (hq : (0 : Byte) ∉ q) (h : q.length < 254) : fullRuns q = 0 := by
  simp [fullRuns, zeroFree_self hq, Nat.div_eq_of_lt h]

theorem fullRuns_zero {q : List Byte} (hq : (0 : Byte) ∉ q) (h : q.length < 254) (s : List Byte) :
    fullRuns (q ++ 0 :: s) = fullRuns s := by
  rw [fullRuns, zeroFree_zero hq, List.map_cons, List.sum_cons, Nat.div_eq_of_lt h, Nat.zero_add, fullRuns]

theorem fullRuns_run {q : List Byte} (hq : (0 : Byte) ∉ q) (h : q.length = 254) (s : List Byte) :
    fullRuns (q ++ s) = fullRuns s + 1 := by
  obtain ⟨t, ts, hs⟩ := List.exists_cons_of_ne_nil (zeroFree_ne_nil s)
  have hd : (254 + t.length) / 254 = t.length / 254 + 1 := by omega
  simp [fullRuns, zeroFree_append hq hs, hs, h, hd]
  omega

/-- A sequence has no zero, or a first one. -/
theorem first_zero (s : List Byte) : (0 : Byte) ∉ s ∨ ∃ q r, s = q ++ 0 :: r ∧ (0 : Byte) ∉ q := by
  induction s with
  | nil => exact .inl (by simp)
  | cons b s ih =>
    by_cases hb : b = 0
    · exact .inr ⟨[], s, by rw [hb]; rfl, by simp⟩
    · obtain h | ⟨q, r, rfl, hq⟩ := ih
      · exact .inl fun hm => (List.mem_cons.1 hm).elim (fun e => hb e.symm) h
      · exact .inr ⟨b :: q, r, rfl, fun hm => (List.mem_cons.1 hm).elim (fun e => hb e.symm) hq⟩

/-- Every sequence is a last group, or a group ended by a zero, or a 254-run, followed by a shorter sequence. -/
theorem cobs_groups (s : List Byte) :
    ((0 : Byte) ∉ s ∧ s.length < 254) ∨
    (∃ q r, s = q ++ 0 :: r ∧ (0 : Byte) ∉ q ∧ q.length < 254) ∨
    (∃ q r, s = q ++ r ∧ (0 : Byte) ∉ q ∧ q.length = 254) := by
  obtain h | ⟨q, r, h, hq⟩ := first_zero (s.take 254)
  · by_cases hl : s.length < 254
    · refine .inl ⟨?_, hl⟩
      rwa [List.take_of_length_le (by omega)] at h
    · exact .inr (.inr ⟨s.take 254, s.drop 254, (List.take_append_drop 254 s).symm, h,
        by rw [List.length_take]; omega⟩)
  · refine .inr (.inl ⟨q, r ++ s.drop 254, ?_, hq, ?_⟩)
    · conv => lhs; rw [← List.take_append_drop 254 s, h]
      rw [List.append_assoc, List.cons_append]
    · have h1 := congrArg List.length h
      simp only [List.length_append, List.length_cons, List.length_take] at h1
      omega

/-- The decoder copies the data bytes of a group. -/
theorem decodeRest_group {q : List Byte} (hq : (0 : Byte) ∉ q) (code : Byte) (rest : List Byte) :
    decodeRest q.length code (q ++ rest) = (decodeRest 0 code rest).map (q ++ ·) := by
  induction q with
  | nil => simp
  | cons b q ih =>
    obtain ⟨hb, hq⟩ := not_or.1 (by simpa using hq : ¬ (0 = b ∨ (0 : Byte) ∈ q))
    simp only [List.length_cons, List.cons_append, decodeRest]
    rw [if_neg (Ne.symm hb), ih hq, Option.map_map]
    rfl

/-- At the end of a group the decoder goes on with the next one, putting a zero between them unless the group was a
254-run. -/
theorem decodeRest_next {b : Byte} (hb : b ≠ 0) (code : Byte) (rest : List Byte) :
    decodeRest 0 code (b :: rest) =
      (cobsDec (b :: rest)).map fun d => if code = 0xFF then d else 0 :: d := by
  rw [decodeRest, if_neg hb, cobsDec, if_neg hb]

end Sys2Proof.Machine
end

