-- ==== Sys2Proof/Laws/Encoder.lean ====
section
/-! SUPPORT. What the encoder helpers of 41_cobs.md R450 do: which bytes they write, what they keep, and how an encoding in
progress grows towards the function of R470. -/

namespace Sys2Proof.Machine

@[simp] theorem encFlush_out (e : Enc) (m : Memory) : (encFlush e m).enc.out = e.out := by
  unfold encFlush; dsimp only; split <;> rfl

@[simp] theorem encFlush_cap (e : Enc) (m : Memory) : (encFlush e m).enc.cap = e.cap := by
  unfold encFlush; dsimp only; split <;> rfl

@[simp] theorem encFlush_mem (e : Enc) (m : Memory) :
    (encFlush e m).mem = m.write (e.out.toNat + e.ci.toNat) e.code := by
  unfold encFlush; dsimp only; split <;> rfl

/-- EncFlush with a slot left for the next group (41_cobs.md R450). -/
theorem encFlush_room {e : Enc} (h : e.wi.toNat < e.cap.toNat) (m : Memory) :
    encFlush e m =
      ⟨true, { e with ci := e.wi, wi := e.wi + 1, code := 1 }, m.write (e.out.toNat + e.ci.toNat) e.code⟩ := by
  unfold encFlush
  dsimp only
  rw [if_neg (by rw [BitVec.le_def]; omega)]

/-- EncFlush with no slot left: the code byte is stored and the context fails (41_cobs.md R450, R456). -/
theorem encFlush_full {e : Enc} (h : e.cap.toNat ≤ e.wi.toNat) (m : Memory) :
    encFlush e m = ⟨false, { e with state := .failed, ci := e.wi }, m.write (e.out.toNat + e.ci.toNat) e.code⟩ := by
  unfold encFlush
  dsimp only
  rw [if_pos (by rw [BitVec.le_def]; omega)]

/-- EncPut of a zero on an active context is EncFlush (41_cobs.md R450). -/
theorem encPut_flush {e : Enc} (h : e.state = .active) (m : Memory) : encPut e m 0 = encFlush e m := by
  unfold encPut
  rw [if_neg (by simp [h]), if_pos rfl]

/-- The memory after EncPut: nothing, the code byte, the data byte, or both (41_cobs.md R450). -/
theorem encPut_mem (e : Enc) (m : Memory) (b : Byte) :
    (encPut e m b).mem = m ∨
    (b = 0 ∧ (encPut e m b).mem = m.write (e.out.toNat + e.ci.toNat) e.code) ∨
    (b ≠ 0 ∧ e.wi < e.cap ∧ (encPut e m b).mem = m.write (e.out.toNat + e.wi.toNat) b) ∨
    (b ≠ 0 ∧ e.wi < e.cap ∧ e.code + 1 = 0xFF ∧
      (encPut e m b).mem = (m.write (e.out.toNat + e.wi.toNat) b).write (e.out.toNat + e.ci.toNat) 0xFF) := by
  unfold encPut
  split
  · exact .inl rfl
  split
  · exact .inr (.inl ⟨‹_›, encFlush_mem e m⟩)
  split
  · exact .inl rfl
  rename_i hb hc
  dsimp only
  split
  · rename_i hff
    refine .inr (.inr (.inr ⟨hb, by simpa [BitVec.le_def, BitVec.lt_def] using hc, hff, ?_⟩))
    rw [encFlush_mem, hff]
  · exact .inr (.inr (.inl ⟨hb, by simpa [BitVec.le_def, BitVec.lt_def] using hc, rfl⟩))

@[simp] theorem encPut_out (e : Enc) (m : Memory) (b : Byte) : (encPut e m b).enc.out = e.out := by
  unfold encPut
  split <;> [rfl; split] <;> [simp; split] <;> [rfl; dsimp only]
  split <;> simp

@[simp] theorem encPut_cap (e : Enc) (m : Memory) (b : Byte) : (encPut e m b).enc.cap = e.cap := by
  unfold encPut
  split <;> [rfl; split] <;> [simp; split] <;> [rfl; dsimp only]
  split <;> simp

/-- EncPut on an active context succeeds and leaves it active, or fails and leaves it Failed (41_cobs.md R450). -/
theorem encPut_state {e : Enc} (h : e.state = .active) (m : Memory) (b : Byte) :
    ((encPut e m b).ok = true ∧ (encPut e m b).enc.state = .active) ∨
    ((encPut e m b).ok = false ∧ (encPut e m b).enc.state = .failed) := by
  have hflush : ∀ (x : Enc) (m : Memory), x.state = .active →
      ((encFlush x m).ok = true ∧ (encFlush x m).enc.state = .active) ∨
      ((encFlush x m).ok = false ∧ (encFlush x m).enc.state = .failed) := fun x m hx => by
    unfold encFlush
    dsimp only
    split
    · exact .inr ⟨rfl, rfl⟩
    · exact .inl ⟨rfl, hx⟩
  unfold encPut
  rw [if_neg (by simp [h])]
  split
  · exact hflush e m h
  split
  · exact .inr ⟨rfl, rfl⟩
  dsimp only
  split
  · exact hflush _ _ h
  · exact .inl ⟨rfl, h⟩

theorem encPut_wf {e : Enc} {m : Memory} (h : Memory.wf m) (b : Byte) : Memory.wf (encPut e m b).mem := by
  obtain h1 | ⟨-, h1⟩ | ⟨-, -, h1⟩ | ⟨-, -, -, h1⟩ := encPut_mem e m b <;> rw [h1]
  · exact h
  · exact Memory.wf_write h _ _
  · exact Memory.wf_write h _ _
  · exact Memory.wf_write (Memory.wf_write h _ _) _ _

/-- `m'` differs from `m` only at the `n` addresses from `lo` on. -/
def Memory.Within (lo n : Nat) (m m' : Memory) : Prop :=
  (∀ a, a < lo ∨ lo + n ≤ a → m'.read a = m.read a) ∧
  (∀ c ∈ m', c ∈ m ∨ (lo ≤ c.1 ∧ c.1 < lo + n)) ∧
  (Memory.wf m → Memory.wf m')

theorem Memory.Within.refl (lo n : Nat) (m : Memory) : Memory.Within lo n m m :=
  ⟨fun _ _ => rfl, fun _ h => .inl h, id⟩

theorem Memory.Within.trans {lo n : Nat} {m1 m2 m3 : Memory} (h : Memory.Within lo n m1 m2)
    (h' : Memory.Within lo n m2 m3) : Memory.Within lo n m1 m3 :=
  ⟨fun a ha => (h'.1 a ha).trans (h.1 a ha),
    fun c hc => (h'.2.1 c hc).elim (h.2.1 c) .inr, fun hw => h'.2.2 (h.2.2 hw)⟩

theorem Memory.Within.mono {lo n k : Nat} {m1 m2 : Memory} (h : Memory.Within lo n m1 m2) (hk : n ≤ k) :
    Memory.Within lo k m1 m2 :=
  ⟨fun a ha => h.1 a (by omega), fun c hc => (h.2.1 c hc).imp_right fun h => ⟨h.1, by omega⟩, h.2.2⟩

theorem Memory.within_write (m : Memory) {lo n k : Nat} (hk : k < n) (b : Byte) :
    Memory.Within lo n m (m.write (lo + k) b) := by
  refine ⟨fun a ha => Memory.read_write_ne _ _ (by omega), fun c hc => ?_, fun hw => Memory.wf_write hw _ _⟩
  obtain rfl | hc := Memory.mem_write hc
  · exact .inr ⟨by dsimp only; omega, by dsimp only; omega⟩
  · exact .inl hc

/-- EncPut on a context in use writes inside its output span only. -/
theorem encPut_within {e : Enc} (h : e.ci.toNat < e.cap.toNat) (m : Memory) (b : Byte) :
    Memory.Within e.out.toNat e.cap.toNat m (encPut e m b).mem := by
  obtain h1 | ⟨-, h1⟩ | ⟨-, hc, h1⟩ | ⟨-, hc, -, h1⟩ := encPut_mem e m b <;> rw [h1]
  · exact .refl _ _ m
  · exact Memory.within_write m h _
  · exact Memory.within_write m (BitVec.lt_def.1 hc) _
  · exact (Memory.within_write m (BitVec.lt_def.1 hc) _).trans (Memory.within_write _ h _)

/-- An encoding in progress: the finished groups are `done`, the open group's data bytes are `p`
(41_cobs.md R450; 10_state.md R117). -/
structure Enc.Holds (e : Enc) (m : Memory) (done p : List Byte) : Prop where
  active : e.state = .active
  ci : e.ci.toNat = done.length
  wi : e.wi.toNat = done.length + 1 + p.length
  code : e.code.toNat = p.length + 1
  short : p.length < 254
  nonzero : (0 : Byte) ∉ p
  room : e.wi.toNat ≤ e.cap.toNat
  doneBytes : ∀ k (h : k < done.length), m.read (e.out.toNat + k) = done[k]
  openBytes : ∀ k (h : k < p.length), m.read (e.out.toNat + done.length + 1 + k) = p[k]

/-- EncBegin starts with nothing (41_cobs.md R450). -/
theorem encBegin_holds {out cap : Word} (h : cap ≠ 0) (b : Byte) (m : Memory) :
    (encBegin out cap b m).enc.Holds (encBegin out cap b m).mem [] [] where
  active := rfl
  ci := rfl
  wi := rfl
  code := rfl
  short := by simp
  nonzero := by simp
  room := by
    have : cap.toNat ≠ 0 := fun h0 => h (BitVec.eq_of_toNat_eq h0)
    show 1 ≤ cap.toNat
    omega
  doneBytes := by simp
  openBytes := by simp

theorem Enc.Holds.cap_lt {e : Enc} {m : Memory} {done p : List Byte} (h : e.Holds m done p) :
    e.ci.toNat < e.cap.toNat := by
  have := h.ci; have := h.wi; have := h.room; omega

/-- What EncPut wrote when an encoding is still in progress lies below the new write index. -/
theorem Enc.Holds.put_within {e : Enc} {m : Memory} {done p : List Byte} {b : Byte} (h : e.Holds m done p)
    (hok : (encPut e m b).ok = true) :
    e.wi.toNat < (encPut e m b).enc.wi.toNat ∧
      Memory.Within e.out.toNat (encPut e m b).enc.wi.toNat m (encPut e m b).mem := by
  have hci := h.ci
  have hwi := h.wi
  have hlt : e.wi.toNat < (encPut e m b).enc.wi.toNat := by
    have hw : ∀ x : Word, x < e.cap → (x + 1).toNat = x.toNat + 1 := fun x hx => by
      have := e.cap.isLt; have := BitVec.lt_def.1 hx
      rw [BitVec.toNat_add]; simp; omega
    unfold encPut at hok ⊢
    rw [if_neg (by simp [h.active])] at hok ⊢
    split
    · rename_i hb
      rw [if_pos hb] at hok
      unfold encFlush at hok ⊢
      dsimp only at hok ⊢
      split
      · rename_i hc; rw [if_pos hc] at hok; cases hok
      · rename_i hc
        have := hw e.wi (by simpa [BitVec.le_def, BitVec.lt_def] using hc)
        dsimp only; omega
    · rename_i hb
      rw [if_neg hb] at hok
      split
      · rename_i hc; rw [if_pos hc] at hok; cases hok
      · rename_i hc
        rw [if_neg hc] at hok
        have h1 := hw e.wi (by simpa [BitVec.le_def, BitVec.lt_def] using hc)
        dsimp only at hok ⊢
        split
        · rename_i hff
          rw [if_pos hff] at hok
          unfold encFlush at hok ⊢
          dsimp only at hok ⊢
          split
          · rename_i hc2; rw [if_pos hc2] at hok; cases hok
          · rename_i hc2
            have := hw (e.wi + 1) (by simpa [BitVec.le_def, BitVec.lt_def] using hc2)
            dsimp only; omega
        · dsimp only; omega
  refine ⟨hlt, ?_⟩
  obtain h1 | ⟨-, h1⟩ | ⟨-, -, h1⟩ | ⟨-, -, -, h1⟩ := encPut_mem e m b <;> rw [h1]
  · exact .refl _ _ m
  · exact Memory.within_write m (by omega) _
  · exact Memory.within_write m hlt _
  · exact (Memory.within_write m hlt _).trans (Memory.within_write _ (by omega) _)

/-- The bytes of the span that a finished group leaves: its code byte, then its data. -/
theorem Enc.Holds.flushed {e : Enc} {m : Memory} {done p : List Byte} (h : e.Holds m done p) (k : Nat)
    (hk : k < (done ++ BitVec.ofNat 8 (p.length + 1) :: p).length) :
    (m.write (e.out.toNat + e.ci.toNat) e.code).read (e.out.toNat + k) =
      (done ++ BitVec.ofNat 8 (p.length + 1) :: p)[k] := by
  have hci := h.ci
  rw [Memory.read_write]
  by_cases h1 : k < done.length
  · rw [if_neg (by omega), List.getElem_append_left h1, h.doneBytes k h1]
  · rw [List.getElem_append_right (by omega)]
    by_cases h2 : k = done.length
    · subst h2
      rw [if_pos (by omega)]
      simp only [Nat.sub_self, List.getElem_cons_zero]
      apply BitVec.eq_of_toNat_eq
      rw [h.code, BitVec.toNat_ofNat]
      have := h.short
      omega
    · rw [if_neg (by omega)]
      simp only [List.length_append, List.length_cons] at hk
      have := h.openBytes (k - done.length - 1) (by omega)
      rw [show e.out.toNat + k = e.out.toNat + done.length + 1 + (k - done.length - 1) by omega, this]
      obtain ⟨j, hj⟩ : ∃ j, k - done.length = j + 1 := ⟨k - done.length - 1, by omega⟩
      simp [hj]

/-- EncPut of a zero (41_cobs.md R450): the open group is finished, if a slot is left for the next. -/
theorem encPut_zero {e : Enc} {m : Memory} {done p : List Byte} (h : e.Holds m done p) :
    (e.wi.toNat < e.cap.toNat → (encPut e m 0).ok = true ∧
      (encPut e m 0).enc.Holds (encPut e m 0).mem (done ++ BitVec.ofNat 8 (p.length + 1) :: p) []) ∧
    (e.cap.toNat ≤ e.wi.toNat → (encPut e m 0).ok = false ∧ (encPut e m 0).enc.state = .failed) := by
  rw [encPut_flush h.active]
  have hwi := h.wi
  have hci := h.ci
  constructor
  · intro hlt
    rw [encFlush_room hlt]
    have hw1 : (e.wi + 1).toNat = e.wi.toNat + 1 := by
      rw [BitVec.toNat_add]; have := e.cap.isLt; simp; omega
    exact ⟨rfl,
      { active := h.active
        ci := by simp only [List.length_append, List.length_cons]; omega
        wi := by simp only [List.length_append, List.length_cons, List.length_nil, hw1]; omega
        code := rfl
        short := by simp
        nonzero := by simp
        room := by show (e.wi + 1).toNat ≤ e.cap.toNat; omega
        doneBytes := h.flushed
        openBytes := by simp }⟩
  · intro hle
    rw [encFlush_full hle]
    exact ⟨rfl, rfl⟩

/-- Storing a data byte leaves the encoding in progress with one more open byte. -/
theorem Enc.Holds.stored {e : Enc} {m : Memory} {done p : List Byte} (h : e.Holds m done p) (b : Byte) (k : Nat)
    (hk : k < (p ++ [b]).length) :
    (m.write (e.out.toNat + e.wi.toNat) b).read (e.out.toNat + done.length + 1 + k) = (p ++ [b])[k] := by
  have hwi := h.wi
  rw [Memory.read_write]
  simp only [List.length_append, List.length_singleton] at hk
  by_cases h1 : k < p.length
  · rw [if_neg (by omega), List.getElem_append_left h1, h.openBytes k h1]
  · rw [if_pos (by omega), List.getElem_append_right (by omega)]
    simp [show k - p.length = 0 by omega]

/-- EncPut of a data byte with no room fails and writes nothing (41_cobs.md R450). -/
theorem encPut_full {e : Enc} {m : Memory} {b : Byte} (ha : e.state = .active) (hb : b ≠ 0)
    (h : e.cap.toNat ≤ e.wi.toNat) : encPut e m b = ⟨false, { e with state := .failed }, m⟩ := by
  unfold encPut
  rw [if_neg (by simp [ha]), if_neg hb, if_pos (by rw [BitVec.le_def]; omega)]

/-- EncPut of a data byte with room, before the 254th of its group (41_cobs.md R450). -/
theorem encPut_data {e : Enc} {m : Memory} {b : Byte} (ha : e.state = .active) (hb : b ≠ 0)
    (h : e.wi.toNat < e.cap.toNat) (hc : e.code + 1 ≠ 0xFF) :
    encPut e m b =
      ⟨true, { e with wi := e.wi + 1, code := e.code + 1 }, m.write (e.out.toNat + e.wi.toNat) b⟩ := by
  unfold encPut
  rw [if_neg (by simp [ha]), if_neg hb, if_neg (by rw [BitVec.le_def]; omega)]
  dsimp only
  rw [if_neg hc]

/-- EncPut of the 254th data byte of a group with room stores it and flushes (41_cobs.md R450). -/
theorem encPut_run {e : Enc} {m : Memory} {b : Byte} (ha : e.state = .active) (hb : b ≠ 0)
    (h : e.wi.toNat < e.cap.toNat) (hc : e.code + 1 = 0xFF) :
    encPut e m b =
      encFlush { e with wi := e.wi + 1, code := e.code + 1 } (m.write (e.out.toNat + e.wi.toNat) b) := by
  unfold encPut
  rw [if_neg (by simp [ha]), if_neg hb, if_neg (by rw [BitVec.le_def]; omega)]
  dsimp only
  rw [if_pos hc]

/-- EncPut of a data byte that does not complete a 254-run. -/
theorem encPut_nonzero {e : Enc} {m : Memory} {done p : List Byte} (h : e.Holds m done p) {b : Byte} (hb : b ≠ 0)
    (hp : p.length + 1 < 254) :
    (e.wi.toNat < e.cap.toNat → (encPut e m b).ok = true ∧ (encPut e m b).enc.Holds (encPut e m b).mem done (p ++ [b])) ∧
    (e.cap.toNat ≤ e.wi.toNat → (encPut e m b).ok = false ∧ (encPut e m b).enc.state = .failed) := by
  have hwi := h.wi
  have hci := h.ci
  have hcode := h.code
  constructor
  · intro hlt
    have hw1 : (e.wi + 1).toNat = e.wi.toNat + 1 := by
      rw [BitVec.toNat_add]; have := e.cap.isLt; simp; omega
    have hc1 : (e.code + 1).toNat = e.code.toNat + 1 := by
      rw [BitVec.toNat_add]; simp; omega
    rw [encPut_data h.active hb hlt
      (fun hff => by have := congrArg BitVec.toNat hff; rw [hc1] at this; simp at this; omega)]
    exact ⟨rfl,
      { active := h.active
        ci := hci
        wi := by simp only [List.length_append, List.length_singleton, hw1]; omega
        code := by simp only [List.length_append, List.length_singleton, hc1]; omega
        short := by simp only [List.length_append, List.length_singleton]; omega
        nonzero := fun hm => (List.mem_append.1 hm).elim h.nonzero (fun hm => hb (List.mem_singleton.1 hm).symm)
        room := by show (e.wi + 1).toNat ≤ e.cap.toNat; omega
        doneBytes := fun k hk => by
          show Memory.read _ _ = _
          rw [Memory.read_write_ne _ _ (by show e.out.toNat + k ≠ _; omega)]
          exact h.doneBytes k hk
        openBytes := fun k hk => h.stored b k hk }⟩
  · intro hle
    rw [encPut_full h.active hb hle]
    exact ⟨rfl, rfl⟩

/-- EncPut of a data byte that completes a 254-run. -/
theorem encPut_completes {e : Enc} {m : Memory} {done p : List Byte} (h : e.Holds m done p) {b : Byte} (hb : b ≠ 0)
    (hp : p.length + 1 = 254) :
    (e.wi.toNat + 1 < e.cap.toNat → (encPut e m b).ok = true ∧
      (encPut e m b).enc.Holds (encPut e m b).mem (done ++ 0xFF :: (p ++ [b])) []) ∧
    (e.cap.toNat ≤ e.wi.toNat + 1 → (encPut e m b).ok = false ∧ (encPut e m b).enc.state = .failed) := by
  have hwi := h.wi
  have hci := h.ci
  have hcode := h.code
  have hcapl := e.cap.isLt
  have hff : e.code + 1 = 0xFF := by
    apply BitVec.eq_of_toNat_eq
    rw [BitVec.toNat_add, hcode, hp]
    rfl
  by_cases hlt : e.wi.toNat < e.cap.toNat
  · have hw1 : (e.wi + 1).toNat = e.wi.toNat + 1 := by
      rw [BitVec.toNat_add]; simp; omega
    rw [encPut_run h.active hb hlt hff]
    constructor
    · intro hlt2
      have hw2 : (e.wi + 1 + 1).toNat = e.wi.toNat + 2 := by
        rw [BitVec.toNat_add, hw1]; simp; omega
      unfold encFlush
      dsimp only
      rw [if_neg (by rw [BitVec.le_def]; omega)]
      refine ⟨rfl,
        { active := h.active
          ci := by simp only [List.length_append, List.length_cons, List.length_nil, hw1]; omega
          wi := by simp only [List.length_append, List.length_cons, List.length_nil, hw2]; omega
          code := rfl
          short := by simp
          nonzero := by simp
          room := by show (e.wi + 1 + 1).toNat ≤ e.cap.toNat; omega
          doneBytes := fun k hk => ?_
          openBytes := by simp }⟩
      show Memory.read _ _ = _
      rw [Memory.read_write]
      simp only [List.length_append, List.length_cons, List.length_nil] at hk
      by_cases h1 : k < done.length
      · rw [if_neg (by show e.out.toNat + k ≠ _; omega), Memory.read_write_ne _ _ (by show e.out.toNat + k ≠ _; omega),
          List.getElem_append_left h1]
        exact h.doneBytes k h1
      · by_cases h2 : k = done.length
        · subst h2
          rw [if_pos (by show e.out.toNat + _ = _; omega), List.getElem_append_right (by omega)]
          simpa using hff
        · rw [if_neg (by show e.out.toNat + k ≠ _; omega)]
          obtain ⟨j, rfl⟩ : ∃ j, k = done.length + 1 + j := ⟨k - done.length - 1, by omega⟩
          have := h.stored b j (by simp; omega)
          rw [List.getElem_append_right (by omega)]
          simp only [show done.length + 1 + j - done.length = j + 1 by omega, List.getElem_cons_succ]
          rw [← this]
          congr 1
          show e.out.toNat + _ = _
          omega
    · intro hle
      unfold encFlush
      dsimp only
      rw [if_pos (by rw [BitVec.le_def]; omega)]
      exact ⟨rfl, rfl⟩
  · rw [encPut_full h.active hb (by omega)]
    exact ⟨fun h2 => absurd h2 (by omega), fun _ => ⟨rfl, rfl⟩⟩

theorem cobsEnc_ne_nil (s : List Byte) : cobsEnc s ≠ [] := by
  obtain ⟨h0, hl⟩ | ⟨q, r, rfl, h0, hl⟩ | ⟨q, r, rfl, h0, hl⟩ := cobs_groups s
  · rw [cobsEnc_short h0 hl]; simp
  · rw [cobsEnc_zero h0 hl]; simp
  · rw [cobsEnc_run h0 hl]; simp

/-- EncPut of the next byte of an encoding in progress: it succeeds exactly when the groups of `p ++ b :: bs` still fit as
far as this byte, and the result is an encoding in progress of the same whole. -/
theorem encPut_step {e : Enc} {m : Memory} {done p : List Byte} (h : e.Holds m done p) (b : Byte) (bs : List Byte) :
    ((encPut e m b).ok = true ∧ ∃ done' p', (encPut e m b).enc.Holds (encPut e m b).mem done' p' ∧
      done' ++ cobsEnc (p' ++ bs) = done ++ cobsEnc (p ++ b :: bs)) ∨
    ((encPut e m b).ok = false ∧ (encPut e m b).enc.state = .failed ∧
      e.cap.toNat < (done ++ cobsEnc (p ++ b :: bs)).length) := by
  have hwi := h.wi
  have hlen := List.length_pos_of_ne_nil (cobsEnc_ne_nil bs)
  by_cases hb : b = 0
  · subst hb
    obtain ⟨h1, h2⟩ := encPut_zero h
    rw [cobsEnc_zero h.nonzero h.short]
    by_cases hlt : e.wi.toNat < e.cap.toNat
    · exact .inl ⟨(h1 hlt).1, _, [], (h1 hlt).2, by simp⟩
    · refine .inr ⟨(h2 (by omega)).1, (h2 (by omega)).2, ?_⟩
      simp only [List.length_append, List.length_cons]
      omega
  · by_cases hp : p.length + 1 < 254
    · obtain ⟨h1, h2⟩ := encPut_nonzero h hb hp
      by_cases hlt : e.wi.toNat < e.cap.toNat
      · exact .inl ⟨(h1 hlt).1, done, p ++ [b], (h1 hlt).2, by simp⟩
      · refine .inr ⟨(h2 (by omega)).1, (h2 (by omega)).2, ?_⟩
        have hne : (0 : Byte) ∉ p ++ [b] := fun hm =>
          (List.mem_append.1 hm).elim h.nonzero (fun hm => hb (List.mem_singleton.1 hm).symm)
        have hle : p.length + 2 ≤ (cobsEnc (p ++ b :: bs)).length := by
          have hcase : ∀ q : List Byte, (0 : Byte) ∉ q → q.length ≤ 254 → ∀ r,
              q.length + 1 ≤ (cobsEnc (q ++ r)).length := by
            intro q hq hql r
            rcases Nat.lt_or_ge q.length 254 with hlt' | hge
            · induction r generalizing q with
              | nil => rw [List.append_nil, cobsEnc_short hq hlt']; simp
              | cons c r ih =>
                by_cases hc : c = 0
                · subst hc
                  rw [cobsEnc_zero hq hlt']
                  simp only [List.length_cons, List.length_append]
                  omega
                · have hq' : (0 : Byte) ∉ q ++ [c] := fun hm =>
                    (List.mem_append.1 hm).elim hq (fun hm => hc (List.mem_singleton.1 hm).symm)
                  have hl' : (q ++ [c]).length = q.length + 1 := by simp
                  rw [show q ++ c :: r = q ++ [c] ++ r by simp]
                  rcases Nat.lt_or_ge (q.length + 1) 254 with h3 | h3
                  · have := ih (q ++ [c]) hq' (by omega) (by omega)
                    omega
                  · rw [cobsEnc_run hq' (by omega)]
                    simp only [List.length_cons, List.length_append, List.length_nil]
                    omega
            · rw [cobsEnc_run hq (by omega)]
              simp only [List.length_cons, List.length_append]
              omega
          have := hcase (p ++ [b]) hne (by simp; omega) bs
          simp only [List.length_append, List.length_singleton, List.append_assoc, List.singleton_append] at this
          omega
        simp only [List.length_append]
        omega
    · have hp : p.length + 1 = 254 := by have := h.short; omega
      obtain ⟨h1, h2⟩ := encPut_completes h hb hp
      have hne : (0 : Byte) ∉ p ++ [b] := fun hm =>
        (List.mem_append.1 hm).elim h.nonzero (fun hm => hb (List.mem_singleton.1 hm).symm)
      have hrun := cobsEnc_run hne (by simp; omega) bs
      rw [show p ++ b :: bs = p ++ [b] ++ bs by simp, hrun]
      by_cases hlt : e.wi.toNat + 1 < e.cap.toNat
      · exact .inl ⟨(h1 hlt).1, _, [], (h1 hlt).2, by simp⟩
      · refine .inr ⟨(h2 (by omega)).1, (h2 (by omega)).2, ?_⟩
        simp only [List.length_append, List.length_cons, List.length_nil]
        omega

/-- EncPut over a sequence: it succeeds exactly when the whole encoding fits, and then holds it and has written below its
write index only; otherwise the context is Failed and it has written inside the output span only. -/
theorem encPutAll_spec {e : Enc} {m : Memory} {done p : List Byte} (h : e.Holds m done p) (bs : List Byte) :
    (encPutAll e m bs).enc.out = e.out ∧ (encPutAll e m bs).enc.cap = e.cap ∧
    ((done ++ cobsEnc (p ++ bs)).length ≤ e.cap.toNat → (encPutAll e m bs).ok = true ∧
      ∃ done' p', (encPutAll e m bs).enc.Holds (encPutAll e m bs).mem done' p' ∧
        done' ++ BitVec.ofNat 8 (p'.length + 1) :: p' = done ++ cobsEnc (p ++ bs) ∧
        e.wi.toNat ≤ (encPutAll e m bs).enc.wi.toNat ∧
        Memory.Within e.out.toNat (encPutAll e m bs).enc.wi.toNat m (encPutAll e m bs).mem) ∧
    (e.cap.toNat < (done ++ cobsEnc (p ++ bs)).length → (encPutAll e m bs).ok = false ∧
      (encPutAll e m bs).enc.state = .failed ∧ Memory.Within e.out.toNat e.cap.toNat m (encPutAll e m bs).mem) := by
  induction bs generalizing e m done p with
  | nil =>
    refine ⟨rfl, rfl, fun _ => ⟨rfl, done, p, h, ?_, le_rfl, .refl _ _ m⟩, fun hlt => ?_⟩
    · rw [List.append_nil, cobsEnc_short h.nonzero h.short]
    · rw [List.append_nil, cobsEnc_short h.nonzero h.short] at hlt
      have hwi := h.wi
      have hroom := h.room
      simp only [List.length_append, List.length_cons] at hlt
      omega
  | cons b bs ih =>
    have hw := encPut_within h.cap_lt m b
    obtain ⟨hok, done', p', hh, heq⟩ | ⟨hok, hfail, hlt⟩ := encPut_step h b bs
    · have hall : encPutAll e m (b :: bs) = encPutAll (encPut e m b).enc (encPut e m b).mem bs := by
        rw [encPutAll, if_pos hok]
      obtain ⟨hwi, hin⟩ := h.put_within hok
      obtain ⟨i1, i2, i3, i4⟩ := ih hh
      rw [encPut_out, encPut_cap] at *
      rw [hall, ← heq]
      refine ⟨i1, i2, fun hle => ?_, fun hlt => ⟨(i4 hlt).1, (i4 hlt).2.1, hw.trans (i4 hlt).2.2⟩⟩
      obtain ⟨j1, done'', p'', j2, j3, j4, j5⟩ := i3 hle
      exact ⟨j1, done'', p'', j2, j3, by omega, (hin.mono j4).trans j5⟩
    · have hall : encPutAll e m (b :: bs) = encPut e m b := by
        rw [encPutAll, if_neg (by simp [hok])]
      rw [hall]
      exact ⟨by simp, by simp, fun hle => absurd hle (by omega), fun _ => ⟨hok, hfail, hw⟩⟩

/-- EncEnd on an encoding in progress leaves the whole encoding in the span; its length is the write index, and it writes
below that. -/
theorem encEnd_spec {e : Enc} {m : Memory} {done p : List Byte} (h : e.Holds m done p) :
    e.wi.toNat = (done ++ BitVec.ofNat 8 (p.length + 1) :: p).length ∧
    Memory.Within e.out.toNat e.wi.toNat m (encEnd e m).mem ∧
    ∀ k (hk : k < (done ++ BitVec.ofNat 8 (p.length + 1) :: p).length),
      (encEnd e m).mem.read (e.out.toNat + k) = (done ++ BitVec.ofNat 8 (p.length + 1) :: p)[k] := by
  have hwi := h.wi
  have hci := h.ci
  refine ⟨?_, Memory.within_write m (by omega) _, h.flushed⟩
  simp only [List.length_append, List.length_cons]
  omega

/-- An encoding by an encoder of the command's own: it gives the encoding exactly when it fits, and writes on that many
bytes only. -/
theorem encodeSpan_spec {out cap : Word} (hc : cap ≠ 0) (bs : List Byte) (s : State) :
    ((cobsEnc bs).length ≤ cap.toNat → ∃ m, encodeSpan out cap bs s =
        some (BitVec.ofNat 32 (cobsEnc bs).length, { s with mem := m, draws := s.draws + 1 }) ∧
      (∀ k (h : k < (cobsEnc bs).length), m.read (out.toNat + k) = (cobsEnc bs)[k]) ∧
      Memory.Within out.toNat (cobsEnc bs).length s.mem m) ∧
    (cap.toNat < (cobsEnc bs).length → encodeSpan out cap bs s = none) := by
  have hb := encBegin_holds (out := out) hc (Config.freeByte s.draws) s.mem
  obtain ⟨h1, h2, h4, h5⟩ := encPutAll_spec hb bs
  have hcap0 : 0 < cap.toNat := Nat.pos_of_ne_zero fun h0 => hc (BitVec.eq_of_toNat_eq h0)
  have hpos := List.length_pos_of_ne_nil (cobsEnc_ne_nil bs)
  constructor
  · intro hle
    obtain ⟨hok, done', p', hh, heq, hw1, hin⟩ := h4 (show ([] ++ cobsEnc ([] ++ bs)).length ≤ cap.toNat by simpa using hle)
    obtain ⟨e1, e2, e3⟩ := encEnd_spec hh
    simp only [List.nil_append] at heq
    rw [heq] at e1
    rw [h1] at e2
    rw [e1] at hin e2
    refine ⟨(encEnd (encPutAll (encBegin out cap (Config.freeByte s.draws) s.mem).enc
      (encBegin out cap (Config.freeByte s.draws) s.mem).mem bs).enc
      (encPutAll (encBegin out cap (Config.freeByte s.draws) s.mem).enc
      (encBegin out cap (Config.freeByte s.draws) s.mem).mem bs).mem).mem, ?_, ?_, ?_⟩
    · unfold encodeSpan
      dsimp only
      rw [if_pos hok]
      congr 2
      apply BitVec.eq_of_toNat_eq
      have := cap.isLt
      rw [e1, BitVec.toNat_ofNat, Nat.mod_eq_of_lt (by omega)]
    · intro k hk
      have := e3 k (by rw [heq]; exact hk)
      rw [h1] at this
      exact this.trans (by simp only [heq])
    · exact (Memory.within_write s.mem (lo := out.toNat) (k := 0) hpos _).trans (hin.trans e2)
  · intro hlt
    unfold encodeSpan
    dsimp only
    rw [if_neg (by simp [(h5 (show cap.toNat < ([] ++ cobsEnc ([] ++ bs)).length by simpa using hlt)).1])]

end Sys2Proof.Machine
end

