-- ==== Sys2Proof/Laws/Host.lean ====
section
/-! SUPPORT. What the host's operations can do, said once: one inversion lemma for the selection of a register, for a host
memory access and for a step. -/

namespace Sys2Proof.Machine

/-- A write that reaches a register is 32 bits wide and at the register's offset (10_state.md R131). -/
theorem Reg.forWrite_some {offset width : Nat} {r : Reg} (h : Reg.forWrite offset width = some r) :
    width = 32 ∧ offset = r.offset := by
  obtain ⟨h, -⟩ := Option.filter_eq_some_iff.1 h
  unfold Reg.select at h
  split at h
  · exact ⟨‹_›, (by simpa using List.find?_some h : r.offset = offset).symm⟩
  · cases h

/-- A host access that goes to memory touches HostMem only (20_memory.md R222). -/
theorem hostTarget_memory {s : State} {a n : Nat} (h : s.hostTarget a n = .memory) :
    ∀ k, k < n → s.inHostMem (a + k) = true := by
  unfold State.hostTarget at h
  split at h
  · cases h
  split at h
  · cases h
  split at h
  · cases h
  · exact firstRefused_none.1 ‹_›

/-- An access whose first window byte is its `k`-th goes to the window, at that byte (20_memory.md R216; log 28). -/
theorem hostTarget_window {s : State} {a n k : Nat} (hk : k < n) (hb : ∀ j, j < k → s.inWindow (a + j) = false)
    (h : s.inWindow (a + k) = true) : s.hostTarget a n = .window (a + k) := by
  unfold State.hostTarget
  rw [firstRefused_at hk (fun j hj => by simp [hb j hj]) (by simp [h])]

/-- An access that begins in the register file and has no window byte goes to the registers (10_state.md R131; log 20). -/
theorem hostTarget_registers {s : State} {a n offset : Nat} (hn : 0 < n) (ho : offset < 0x58)
    (ha : a = s.cfg.regBase + offset) (hw : ∀ k, k < n → s.inWindow (a + k) = false) :
    s.hostTarget a n = .registers := by
  have hr : s.inRegFile a = true := decide_eq_true ⟨by omega, by show _ < _ + 0x58; omega⟩
  unfold State.hostTarget
  rw [firstRefused_none.2 fun k hk => by simp [hw k hk],
    firstRefused_at hn (fun j hj => absurd hj (Nat.not_lt_zero _)) (by simp [hr])]

/-- The bytes a register read made by address gives carry the register's value, in either byte order (log 20). -/
@[simp] theorem busWord_busBytes (v : Word) : busWord (busBytes v) = v := by
  unfold busWord busBytes
  cases Config.busBigEndian <;>
    simp only [bytesBe32, be32, List.reverse_cons, List.reverse_nil, List.nil_append, List.cons_append, if_true, if_false,
      Bool.false_eq_true] <;>
    ext i hi <;> simp only [BitVec.getElem_append, BitVec.getElem_extractLsb'] <;> split_ifs <;>
    (simp only [← BitVec.getLsbD_eq_getElem]; congr 1; omega)

/-- One of the host's own operations that is not the issue of a command, on a block that is not faulted, in the state `u`
past the operation. -/
inductive HostEffect (op : HostOp) (u t : State) : Prop where
  | raised (h : Raised u t)
  | wroteArg (i : ArgIdx) (v : Word) (hop : u.writesWord op (Reg.arg i).offset v) (h : t = setArg i v u)
  | wroteVersion (v : Word) (hop : u.writesWord op 0x24 v) (h : t = { u with version := v.extractLsb' 0 8 })
  | acknowledged (v : Word) (c : Status) (hop : u.writesWord op 0x4C v) (hp : u.phase = .delivering)
      (h : t = endDelivery c u)
  | hasRead (d : BusData) (ops : List HostOp) (h : t = { u with busData := d, hostOps := ops })
  | stored (a : Word) (bs : List Byte) (ha : ∀ k, k < bs.length → u.inHostMem (a.toNat + k) = true)
      (h : t = storeBytes a.toNat bs u)

/-- What a register write can do: issue a command, or have an effect of the host's own (10_state.md R131, R132). -/
theorem hostWrite_cases {op : HostOp} {offset width : Nat} {v : Word} {u t : State}
    (hop : width = 32 → u.writesWord op offset v) (h : hostWrite offset width v u = .next t) :
    (∃ w i, u.writesWord op 0x00 w ∧ decode w = .ok i ∧ exec i u = .next t) ∨ HostEffect op u t := by
  unfold hostWrite at h
  split at h
  · rename_i hr
    obtain ⟨rfl, rfl⟩ := Reg.forWrite_some hr
    unfold issueCommand at h
    split at h
    · exact .inr (.raised ⟨_, raise_next h⟩)
    · exact .inl ⟨v, _, hop rfl, ‹_›, h⟩
  · rename_i i hr
    obtain ⟨rfl, rfl⟩ := Reg.forWrite_some hr
    cases h; exact .inr (.wroteArg i v (hop rfl) rfl)
  · rename_i hr
    obtain ⟨rfl, rfl⟩ := Reg.forWrite_some hr
    cases h; exact .inr (.wroteVersion v (hop rfl) rfl)
  · rename_i hr
    obtain ⟨rfl, rfl⟩ := Reg.forWrite_some hr
    unfold acknowledge at h
    split at h
    · exact .inr (.raised ⟨_, raise_next h⟩)
    · rename_i hp
      split at h
      · exact .inr (.raised ⟨_, raise_next h⟩)
      · cases h; exact .inr (.acknowledged v _ (hop rfl) hp rfl)
  · exact .inr (.raised ⟨_, raise_next h⟩)

/-- What a host write by address can do: a store to host memory, a register write, or a fault (20_memory.md R216, R222;
10_state.md R131). -/
theorem hostMemWrite_cases {a : Word} {bs : List Byte} {u t : State} (h : hostMemWrite a bs u = .next t) :
    (∃ w i, u.writesWord (.memWr a bs) 0x00 w ∧ decode w = .ok i ∧ exec i u = .next t) ∨
      HostEffect (.memWr a bs) u t := by
  unfold hostMemWrite at h
  split at h
  · rename_i hm; cases h; exact .inr (.stored a bs (hostTarget_memory hm) rfl)
  · exact .inr (.raised ⟨_, raise_next h⟩)
  · unfold hostRegWrite at h
    split at h
    · exact .inr (.raised ⟨_, raise_next h⟩)
    · exact hostWrite_cases (fun hw => .inr ⟨a, bs, rfl, by omega, by omega, rfl⟩) h
  · cases h

/-- What a host read by address can do: give bytes, or raise a fault (20_memory.md R215, R216; 10_state.md R131). -/
theorem hostMemRead_cases {a : Word} {n : Nat} {u t : State} (h : hostMemRead a n u = .next t) :
    Raised u t ∨ ∃ bs, t = { u with busData := .bytes bs } := by
  unfold hostMemRead hostRegRead at h
  repeat' split at h
  all_goals first
    | exact .inl ⟨_, raise_next h⟩
    | (cases h; first | exact .inr ⟨_, rfl⟩ | done)

/-- What a step does: nothing, a reset, the issue of a command, or another operation of the host. -/
theorem step_cases {s t : State} (h : step s = .next t) :
    (s.hostOps = [] ∧ t = s) ∨
    ∃ op rest, s.hostOps = op :: rest ∧
      ((op = .reset ∧ t = hostReset { s with hostOps := rest }) ∨
       (s.fault = none ∧
        ((∃ w i, s.writesWord op 0x00 w ∧ decode w = .ok i ∧ exec i { s with hostOps := rest } = .next t) ∨
         HostEffect op { s with hostOps := rest } t))) := by
  unfold step hostStep at h
  split at h
  · cases h; exact .inl ⟨‹_›, rfl⟩
  rename_i op rest ho
  refine .inr ⟨op, rest, ho, ?_⟩
  cases op with
  | reset => cases h; exact .inl ⟨rfl, rfl⟩
  | wr offset width v =>
    obtain ⟨hf, h⟩ := unlessFaulted_next h
    exact .inr ⟨hf, hostWrite_cases (fun hw => .inl (hw ▸ rfl)) h⟩
  | rd offset width =>
    obtain ⟨hf, h⟩ := unlessFaulted_next h
    refine .inr ⟨hf, .inr ?_⟩
    unfold hostRead at h
    split at h
    · exact .raised ⟨_, raise_next h⟩
    · cases h; exact .hasRead _ _ rfl
  | chk offset mask v =>
    obtain ⟨hf, h⟩ := unlessFaulted_next h
    refine .inr ⟨hf, .inr ?_⟩
    unfold hostChk at h
    split at h
    · exact .raised ⟨_, raise_next h⟩
    · split at h <;> cases h <;> exact .hasRead _ _ rfl
  | memWr a bs =>
    obtain ⟨hf, h⟩ := unlessFaulted_next h
    exact .inr ⟨hf, hostMemWrite_cases h⟩
  | memRd a n =>
    obtain ⟨hf, h⟩ := unlessFaulted_next h
    refine .inr ⟨hf, .inr ?_⟩
    obtain hr | ⟨bs, rfl⟩ := hostMemRead_cases h
    · exact .raised hr
    · exact .hasRead _ _ rfl

end Sys2Proof.Machine
end

