-- ==== Sys2Proof/Laws/PerInstr.lean ====
section
/-! SUPPORT. The families of statements about every command as syntax: one lemma per constructor. -/

namespace Sys2Proof.Laws.EncodesLegal

/-- The word of a command passes the three checks of 30_encoding.md R306, and its fields are the command's OPC and IMM8
with RSV = 0 (30_encoding.md R302, R305). -/
def Statement (i : Instr) : Prop :=
  legalWord (encode i) = true ∧ fieldOpc (encode i) = i.opc ∧ fieldImm8 (encode i) = i.imm8 ∧ fieldRsv (encode i) = 0

theorem crc32 : Statement .crc32 := by unfold Statement; decide

theorem cobsBegin : Statement .cobsBegin := by unfold Statement; decide

theorem cobsPut (b : Byte) : Statement (.cobsPut b) := by
  unfold Statement
  revert b
  decide +kernel

theorem cobsEnd : Statement .cobsEnd := by unfold Statement; decide

theorem cobsEnc2 : Statement .cobsEnc2 := by unfold Statement; decide

theorem cobsDec : Statement .cobsDec := by unfold Statement; decide

theorem frPkt : Statement .frPkt := by unfold Statement; decide

theorem frByte (b : Byte) : Statement (.frByte b) := by
  unfold Statement
  revert b
  decide +kernel

theorem frReg : Statement .frReg := by unfold Statement; decide

theorem fbBuild (id : Byte) : Statement (.fbBuild id) := by
  unfold Statement
  revert id
  decide +kernel

end Sys2Proof.Laws.EncodesLegal
end

