-- ==== Sys2Proof/Tests/Slice0.lean ====
section
/-! SUPPORT. Tests of the model. Expected results are from spec/ (the encoding tables of 30_encoding.md, the vectors of
95_test_vectors.md); the words of the decode tests are written out from 30_encoding.md R302 and R305. The second half has,
for each statement with hypotheses, a state that meets them. -/

namespace Sys2Proof.Tests

open Sys2Proof.Machine

/-! ## States -/

/-- Some property of the next state, if there is one. -/
def holds (r : Machine.Result) (p : State → Bool) : Bool :=
  match r with
  | .next t => p t
  | .fault _ => false
  | .refused _ => false

/-- The reset state with A0 to A5 written. -/
def withRegs (v0 v1 v2 v3 v4 v5 : Word) : State :=
  { State.reset with
    a0 := ⟨v0, true⟩, a1 := ⟨v1, true⟩, a2 := ⟨v2, true⟩, a3 := ⟨v3, true⟩, a4 := ⟨v4, true⟩, a5 := ⟨v5, true⟩ }

/-- The state with bytes written to host memory. -/
def holding (a : Nat) (bs : List Byte) (s : State) : State := storeBytes a bs s

/-- The state with operations for the host still to come. -/
def doing (ops : List HostOp) (s : State) : State := { s with hostOps := ops }

/-- The reset state whose framer has received bytes, with or without a consumer. -/
def received (bs : List Byte) (consumer : Bool) : State :=
  { State.reset with
    rxbuf := bs ++ List.replicate (30 - bs.length) 0
    rxIndex := bs.length
    cbValid := consumer
    cbHandle := if consumer then 1 else 0 }

/-- The frame of 95_test_vectors.md 1.3. -/
def frame13 : List Byte := [0x01, 0x07, 0x12, 0x34, 0x56, 0x78, 0x00, 0x04, 0x01, 0x02, 0x03, 0x04]

/-- The packet of 95_test_vectors.md 1.4 before its delimiter. -/
def packet14 : List Byte :=
  [0x07, 0x01, 0x07, 0x12, 0x34, 0x56, 0x78, 0x0A, 0x04, 0x01, 0x02, 0x03, 0x04, 0xB7, 0xFB, 0xB9, 0x94]

/-- The delivery of 95_test_vectors.md 1.4. -/
def delivering14 : State :=
  { State.reset with
    rxbuf := frame13 ++ List.replicate 18 0
    cbValid := true
    cbHandle := 1
    phase := .delivering
    delivLen := 12 }

/-- An encoder opened on `(0x2000, cap)` with `n` bytes of 0x41 put (95_test_vectors.md 2.2), its memory as far as the
tests read it. -/
def encoding (cap : Word) (n : Nat) : State :=
  { State.reset with
    enc := ⟨.active, 0x2000, cap, 0, BitVec.ofNat 32 (n + 1), BitVec.ofNat 8 (n + 1)⟩
    mem := [(0x2000, 0xEE)] }

/-! ## Raw data that the checks refuse -/

theorem test_launch_parameters_ok : Config.launch.ok = true := by decide

theorem test_size_check_refuses :
    ({ Config.launch with maxPacketSize := 0 } : Config).sizeOk = false ∧
    ({ Config.launch with maxPacketSize := 2 ^ 32 } : Config).sizeOk = false := by decide

theorem test_window_check_refuses :
    ({ Config.launch with rxBase := 0 } : Config).windowOk = false ∧
    ({ Config.launch with rxBase := 2 ^ 32 - 29 } : Config).windowOk = false := by decide

theorem test_regfile_check_refuses :
    ({ Config.launch with regBase := 0xFFFFFFA9 } : Config).regFileOk = false ∧
    ({ Config.launch with regBase := 0x801D } : Config).regFileOk = false := by decide

theorem test_hostmem_check_refuses :
    ({ Config.launch with hostMem := [⟨0, 4⟩] } : Config).hostMemOk = false ∧
    ({ Config.launch with hostMem := [⟨0x7FFF, 2⟩] } : Config).hostMemOk = false ∧
    ({ Config.launch with hostMem := [⟨0xF0000057, 1⟩] } : Config).hostMemOk = false ∧
    ({ Config.launch with hostMem := [⟨0xFFFFFFFF, 2⟩] } : Config).hostMemOk = false := by decide

theorem test_opcode_check_refuses : opcAssigned 0x00000000 = false ∧ opcAssigned 0x000000FF = false := by decide

theorem test_reserved_check_refuses : rsvZero 0x00010001 = false ∧ rsvZero 0x80000001 = false := by decide

theorem test_immediate_check_refuses : imm8Allowed 0x00000101 = false ∧ imm8Allowed 0x00008022 = false := by decide

theorem test_assembler_range_refuses : immInRange 256 = false ∧ assemble Config.launch (.frByte 256) = none := by decide

/-! ## Decoding, from the fields of 30_encoding.md R302: RSV, IMM8, OPC -/

theorem test_decode_crc32 : decode 0b0000000000000000_00000000_00000001 = .ok .crc32 := by decide

theorem test_decode_cobs_begin : decode 0b0000000000000000_00000000_00010000 = .ok .cobsBegin := by decide

theorem test_decode_cobs_put : decode 0b0000000000000000_01000001_00010001 = .ok (.cobsPut 0x41) := by decide

theorem test_decode_cobs_end : decode 0b0000000000000000_00000000_00010010 = .ok .cobsEnd := by decide

theorem test_decode_cobs_enc2 : decode 0b0000000000000000_00000000_00010011 = .ok .cobsEnc2 := by decide

theorem test_decode_cobs_dec : decode 0b0000000000000000_00000000_00010100 = .ok .cobsDec := by decide

theorem test_decode_fr_pkt : decode 0b0000000000000000_00000000_00100000 = .ok .frPkt := by decide

theorem test_decode_fr_byte : decode 0b0000000000000000_10000001_00100001 = .ok (.frByte 0x81) := by decide

theorem test_decode_fr_reg : decode 0b0000000000000000_00000000_00100010 = .ok .frReg := by decide

theorem test_decode_fb_build : decode 0b0000000000000000_11111111_00110000 = .ok (.fbBuild 0xFF) := by decide

/-- 30_encoding.md R306 (a), (b), (c), each rejected by name. -/
theorem test_decode_rejects :
    decode 0x00000000 = .error (.unassignedOpcode 0x00) ∧ decode 0x000000FF = .error (.unassignedOpcode 0xFF) ∧
    decode 0x00010001 = .error (.reservedBits 1) ∧ decode 0x80004111 = .error (.reservedBits 0x8000) ∧
    decode 0x00000101 = .error (.immediateNotZero 0x01 0x01) := by decide

/-- No two rows of the opcode table fit one word. -/
theorem test_rows_do_not_overlap :
    opcodeTable.Pairwise fun r q => r.pattern &&& (r.mask &&& q.mask) ≠ q.pattern &&& (r.mask &&& q.mask) := by decide

theorem test_table_word : decodeTableWord 32 0x00004111 = some (.cobsPut 0x41) ∧ decodeTableWord 32 0x101 = none := by decide

/-! ## One step per command -/

/-- A step takes the placed command first: CRC32 right after reset reads A0 unwritten (95_test_vectors.md 2.9). -/
theorem test_step_runs_the_placed_word :
    holds (step (State.reset.withFetchWord 32 0x00000001)) (fun t => t.fault = some (.unwrittenArg .a0)) = true := by
  decide

/-- 95_test_vectors.md 1.1. -/
theorem test_crc32 :
    holds (exec .crc32 (holding 0x1000 [0x31, 0x32, 0x33, 0x34, 0x35, 0x36, 0x37, 0x38, 0x39] (withRegs 0x1000 9 0 0 0 0)))
      (fun t => t.code = .ok ∧ t.result = 0xCBF43926 ∧ t.fault = none) = true := by decide +kernel

/-- 95_test_vectors.md 2.1: null with length 5, and a span that wraps. -/
theorem test_crc32_refuses :
    holds (exec .crc32 (withRegs 0 5 0 0 0 0)) (fun t => t.code = .invalidParameter ∧ t.fault = none) = true ∧
    holds (exec .crc32 (withRegs 0xFFFFFFF0 0x20 0 0 0 0)) (fun t => t.fault = some (.spanWrap 0xFFFFFFF0 0x20)) = true := by
  decide +kernel

/-- 95_test_vectors.md 2.2: BEGIN(0x2000, 16) and BEGIN(0x2000, 0). -/
theorem test_cobs_begin :
    holds (exec .cobsBegin (withRegs 0x2000 16 0 0 0 0)) (fun t => t.enc = ⟨.active, 0x2000, 16, 0, 1, 1⟩ ∧ t.code = .ok) = true ∧
    holds (exec .cobsBegin (withRegs 0x2000 0 0 0 0 0)) (fun t => t.enc.state = .failed ∧ t.code = .invalidParameter) = true := by
  decide +kernel

/-- 95_test_vectors.md 2.2: the 254th byte of a run. -/
theorem test_cobs_put_completes_a_run :
    holds (exec (.cobsPut 0x41) (encoding 300 253))
      (fun t => t.enc = ⟨.active, 0x2000, 300, 255, 256, 1⟩ ∧ t.mem = [(0x2000, 0xFF), (0x20FE, 0x41)] ∧ t.code = .ok) = true := by
  decide +kernel

/-- 95_test_vectors.md 2.2: BEGIN(0x2000,1), PUT 00. -/
theorem test_cobs_put_zero_without_room :
    holds (exec (.cobsPut 0) (encoding 1 0))
      (fun t => t.enc = ⟨.failed, 0x2000, 1, 1, 1, 1⟩ ∧ t.mem = [(0x2000, 0x01)] ∧ t.code = .invalidParameter) = true := by
  decide +kernel

/-- 95_test_vectors.md 2.2: BEGIN(0x2000,16), END, and END after reset. -/
theorem test_cobs_end :
    holds (exec .cobsEnd (encoding 16 0)) (fun t => t.result = 1 ∧ t.mem = [(0x2000, 0x01)] ∧ t.enc.state = .idle) = true ∧
    holds (exec .cobsEnd State.reset) (fun t => t.code = .invalidParameter ∧ t.resultWritten = false) = true := by
  decide +kernel

/-- 95_test_vectors.md 2.2: `11 22` ‖ `00 33` into 8 bytes. -/
theorem test_cobs_enc2 :
    holds (exec .cobsEnc2 (holding 0x1100 [0x00, 0x33] (holding 0x1000 [0x11, 0x22] (withRegs 0x1000 2 0x1100 2 0x2000 8))))
      (fun t => t.result = 5 ∧ t.bytesFrom 0x2000 5 = [0x03, 0x11, 0x22, 0x02, 0x33] ∧ t.code = .ok) = true := by
  decide +kernel

/-- 95_test_vectors.md 2.2: in1 = (0x2000, 2), out = (0x2001, 8). -/
theorem test_cobs_enc2_overlap :
    holds (exec .cobsEnc2 (withRegs 0x2000 2 0 0 0x2001 8))
      (fun t => t.fault = some (.spanOverlap ⟨0x2001, 8⟩ ⟨0x2000, 2⟩)) = true := by decide +kernel

/-- 95_test_vectors.md 2.3: `03 11 22 02 33`. -/
theorem test_cobs_dec :
    holds (exec .cobsDec (holding 0x2000 [0x03, 0x11, 0x22, 0x02, 0x33] (withRegs 0x2000 5 0 0 0 0)))
      (fun t => t.result = 4 ∧ t.bytesFrom 0x2000 5 = [0x11, 0x22, 0x00, 0x33, 0x33] ∧ t.code = .ok) = true := by
  decide +kernel

/-- 95_test_vectors.md 2.3: `02 01 02`, a truncated second group. -/
theorem test_cobs_dec_refuses :
    holds (exec .cobsDec (holding 0x2000 [0x02, 0x01, 0x02] (withRegs 0x2000 3 0 0 0 0)))
      (fun t => t.code = .cobsDecodeFailed ∧ t.resultWritten = false ∧ t.fault = none) = true := by decide +kernel

/-- 95_test_vectors.md 2.4, the first row. -/
theorem test_fr_pkt :
    holds (exec .frPkt (holding 0x1000 frame13 (withRegs 0x1000 12 0x3000 18 0 0)))
      (fun t => t.result = 18 ∧ t.bytesFrom 0x3000 18 = packet14 ++ [0] ∧ t.code = .ok) = true := by decide +kernel

/-- 95_test_vectors.md 2.4: the same with 17 bytes of capacity, and an empty frame with a null pointer. -/
theorem test_fr_pkt_refuses :
    holds (exec .frPkt (holding 0x1000 frame13 (withRegs 0x1000 12 0x3000 17 0 0)))
      (fun t => t.code = .invalidParameter ∧ t.resultWritten = false) = true ∧
    holds (exec .frPkt (withRegs 0 0 0x3000 6 0 0)) (fun t => t.code = .invalidParameter) = true := by decide +kernel

/-- 95_test_vectors.md 1.4: the delimiter of the packet starts a delivery. -/
theorem test_fr_byte_delivers :
    holds (exec (.frByte 0) (received packet14 true))
      (fun t => t.phase = .delivering ∧ t.delivLen = 12 ∧ t.bytesFrom 0x8000 12 = frame13 ∧ t.rxIndex = 0) = true := by
  decide +kernel

/-- 95_test_vectors.md 2.5: the 31st byte `41`, and `05 01 02 03 04 00`. -/
theorem test_fr_byte_refuses :
    holds (exec (.frByte 0x41) (received (List.replicate 30 0x41) true)) (fun t => t.code = .frameTooLarge ∧ t.rxIndex = 0) = true ∧
    holds (exec (.frByte 0) (received [0x05, 0x01, 0x02, 0x03, 0x04] true)) (fun t => t.code = .crcMismatch ∧ t.rxIndex = 0) = true := by
  decide +kernel

/-- 95_test_vectors.md 2.7: FR.REG with A0 = 5, and in a delivery. -/
theorem test_fr_reg :
    holds (exec .frReg (withRegs 5 0 0 0 0 0)) (fun t => t.cbHandle = 5 ∧ t.status = 0x00000200) = true ∧
    holds (exec .frReg delivering14) (fun t => t.fault = some (.reentrant 0x22)) = true := by decide +kernel

/-- 95_test_vectors.md 1.3. -/
theorem test_fb_build :
    holds (exec (.fbBuild 7) (holding 0x1000 [0x01, 0x02, 0x03, 0x04] (withRegs 0x12345678 0x1000 4 0x2000 12 0)))
      (fun t => t.result = 12 ∧ t.bytesFrom 0x2000 12 = frame13 ∧ t.code = .ok) = true := by decide +kernel

/-- 95_test_vectors.md 2.8: capacity 11. -/
theorem test_fb_build_refuses :
    holds (exec (.fbBuild 7) (withRegs 0x12345678 0x1000 4 0x2000 11 0))
      (fun t => t.code = .invalidParameter ∧ t.mem = []) = true := by decide +kernel

/-- 95_test_vectors.md 2.9: VERSION keeps bits 7:0. -/
theorem test_version_register :
    holds (perform (.wr 0x24 32 0x102) State.reset) (fun t => t.version = 2 ∧ t.fault = none) = true := by decide

/-- 95_test_vectors.md 2.9: a 16-bit read at offset 0x04. -/
theorem test_bus_misuse :
    holds (perform (.rd 0x04 16) State.reset) (fun t => t.fault = some (.busMisuse 0x04 16 .read)) = true := by decide

/-- 95_test_vectors.md 2.7: `ack 6` in the delivery of 1.4. -/
theorem test_acknowledge :
    holds (perform (.wr 0x4C 32 6) delivering14) (fun t => t.phase = .idle ∧ t.status = 0x00000206) = true := by decide

/-- 95_test_vectors.md 2.7: win.rd 11 and win.rd 12 in the delivery of 1.4. -/
theorem test_window_read :
    holds (perform (.memRd 0x800B 1) delivering14) (fun t => t.busData = .bytes [0x04]) = true ∧
    holds (perform (.memRd 0x800C 1) delivering14) (fun t => t.fault = some (.rxWindowMisuse 0x800C .read)) = true := by
  decide

/-- 10_state.md R132: a one-byte access inside the register file. -/
theorem test_narrow_access_by_address :
    holds (perform (.memRd 0xF0000005 1) State.reset) (fun t => t.fault = some (.busMisuse 5 8 .read)) = true := by decide

/-- 10_state.md R131: four bytes written at the address of VERSION are its register write, in either byte order. -/
theorem test_register_write_by_address :
    perform (.memWr 0xF0000024 [2, 2, 2, 2]) State.reset = perform (.wr 0x24 32 (busWord [2, 2, 2, 2])) State.reset ∧
    busWord [2, 2, 2, 2] = 0x02020202 := by
  refine ⟨rfl, ?_⟩
  simp only [busWord]
  split <;> decide

/-- 10_state.md R132: a 32-bit read of CMD by address, and one two bytes into STATUS. -/
theorem test_register_misuse_by_address :
    holds (perform (.memRd 0xF0000000 4) State.reset) (fun t => t.fault = some (.busMisuse 0 32 .read)) = true ∧
    holds (perform (.memRd 0xF0000006 4) State.reset) (fun t => t.fault = some (.busMisuse 6 32 .read)) = true := by decide

/-- 00_scope.md R13: the example values of the sizing helpers. -/
theorem test_sizing :
    maxPacketSize 0 = 14 ∧ maxPacketSize 16 = 30 ∧ maxPacketSize 242 = 256 ∧ packetBound 242 = 257 ∧
    maxPacketSize 243 = 258 ∧ maxPacketSize 65535 = 65807 := by decide

/-- 30_encoding.md R320, R322: `fb.build 7`, and `fr.feed 41 00`. -/
theorem test_assembler :
    assemble Config.launch (.fbBuild 7) = some [.wr 0x00 32 0x00000730] ∧
    assemble Config.launch (.frFeed [0x41, 0]) = some [.wr 0x00 32 0x00004121, .wr 0x00 32 0x00000021] := by decide

/-- 30_encoding.md R321: `mem.rd` up to the last address, and one byte further. -/
theorem test_assembler_address_range :
    assemble Config.launch (.memRd 0xFFFFFFFF 1) = some [.memRd 0xFFFFFFFF 1] ∧
    assemble Config.launch (.memRd 0xFFFFFFFF 2) = none := by decide

/-- The memory after reset is in its one form. -/
theorem test_reset_memory_wf : Memory.wf State.reset.mem := by decide

/-! ## States that meet the hypotheses of the statements, clause by clause -/

/-- A word with RSV = 1 at CMD. -/
theorem witness_LegalWordsAreExactlyTheListed :
    State.reset.fault = none ∧ ¬ ∃ i, decode 0x00010001 = .ok i := by
  refine ⟨rfl, fun h => ?_⟩
  obtain ⟨i, h⟩ := h
  have he : decode 0x00010001 = .error (.reservedBits 1) := by decide
  rw [he] at h
  cases h

theorem witness_StepPerformsTheIssuedCommand :
    (doing [.wr 0x00 32 0x0000FF30] State.reset).fault = none ∧
    (doing [.wr 0x00 32 0x0000FF30] State.reset).hostOps = .wr 0x00 32 0x0000FF30 :: [] ∧
    decode 0x0000FF30 = .ok (.fbBuild 0xFF) ∧
    (doing [.wr 0x00 32 0x00000101] State.reset).hostOps = .wr 0x00 32 0x00000101 :: [] ∧
    decode 0x00000101 = .error (.immediateNotZero 1 1) := ⟨rfl, rfl, by decide, rfl, by decide⟩

/-- A faulted block about to read STATUS, and one about to be reset. -/
theorem witness_FaultedBlockHasNoStepButReset :
    (doing [.rd 0x04 32] { State.reset with fault := some .unwrittenResult }).fault = some .unwrittenResult ∧
    (doing [.rd 0x04 32] { State.reset with fault := some .unwrittenResult }).hostOps = .rd 0x04 32 :: [] ∧
    HostOp.rd 0x04 32 ≠ .reset ∧
    (doing [.reset] { State.reset with fault := some .unwrittenResult }).fault = some .unwrittenResult ∧
    (doing [.reset] { State.reset with fault := some .unwrittenResult }).hostOps = .reset :: [] := by decide

theorem witness_EveryCommandEnds : State.reset.fault = none := rfl

/-- CRC32 and a read of CMD, both right after reset. -/
theorem witness_FaultHasNoOtherEffect :
    holds (exec .crc32 State.reset) (fun t => t.fault ≠ none) = true ∧ HostOp.rd 0x00 32 ≠ .reset ∧
    holds (perform (.rd 0x00 32) State.reset) (fun t => t.fault ≠ none) = true := by decide

theorem witness_CommandsKeepTheHostsRegisters : holds (exec .cobsEnd (encoding 16 0)) (fun _ => true) = true := by decide

theorem witness_ResultChangesOnlyOnSuccess :
    holds (exec .cobsEnd (encoding 16 0)) (fun t => t.result ≠ (encoding 16 0).result) = true := by decide

/-- An overflow, and a delimiter that starts a delivery. -/
theorem witness_CommandsCompleteWithTheirStatuses :
    holds (exec (.frByte 0x41) (received (List.replicate 30 0x41) true)) (fun t => t.fault = none ∧ t.code = .frameTooLarge) = true ∧
    holds (exec (.frByte 0) (received packet14 true)) (fun t => t.fault = none ∧ t.phase = .delivering) = true := by
  decide +kernel

/-- FR.PKT with A0 to A2 written and A3 not, and FR.REG right after reset. -/
theorem witness_UnwrittenArgumentFaults :
    (({ withRegs 0x1000 12 0x3000 18 0 0 with a3 := ⟨18, false⟩ } : State).fault = none ∧
      ({ withRegs 0x1000 12 0x3000 18 0 0 with a3 := ⟨18, false⟩ } : State).phase = .idle ∧
      commandArgs .frPkt = [.a0, .a1, .a2] ++ .a3 :: [] ∧
      (∀ k ∈ [ArgIdx.a0, .a1, .a2], (({ withRegs 0x1000 12 0x3000 18 0 0 with a3 := ⟨18, false⟩ } : State).arg k).written = true) ∧
      (({ withRegs 0x1000 12 0x3000 18 0 0 with a3 := ⟨18, false⟩ } : State).arg .a3).written = false) ∧
    (commandArgs .frReg = [] ++ .a0 :: [] ∧ (State.reset.arg .a0).written = false ∧ State.reset.phase = .idle) := by decide

/-- The second input of COBS.ENC2 passes the top by one byte. -/
theorem witness_SpanFaultsInOrder_wrap :
    (withRegs 0x1000 4 0xFFFFFFFF 2 0x2000 8).ready .cobsEnc2 ∧
    (withRegs 0x1000 4 0xFFFFFFFF 2 0x2000 8).statusChecksPass .cobsEnc2 ∧
    (withRegs 0x1000 4 0xFFFFFFFF 2 0x2000 8).inputSpans .cobsEnc2 ++ (withRegs 0x1000 4 0xFFFFFFFF 2 0x2000 8).outputSpans .cobsEnc2 =
      [⟨0x1000, 4⟩] ++ ⟨0xFFFFFFFF, 2⟩ :: [⟨0x2000, 8⟩] ∧
    (∀ q ∈ [(⟨0x1000, 4⟩ : Span)], q.fits) ∧ ¬ (⟨0xFFFFFFFF, 2⟩ : Span).fits := by
  refine ⟨⟨rfl, by decide⟩, ?_, rfl, ?_, ?_⟩
  · simp only [State.statusChecksPass, Span.nullOk]; decide
  · simp only [Span.fits]; decide
  · simp only [Span.fits]; decide

/-- The third byte of CRC32's span is the first byte past HostMem (95_test_vectors.md 2.1). -/
theorem witness_SpanFaultsInOrder_input :
    (withRegs 0x7FFE 4 0 0 0 0).ready .crc32 ∧ (withRegs 0x7FFE 4 0 0 0 0).statusChecksPass .crc32 ∧
    (∀ p ∈ (withRegs 0x7FFE 4 0 0 0 0).inputSpans .crc32 ++ (withRegs 0x7FFE 4 0 0 0 0).outputSpans .crc32, p.fits) ∧
    (withRegs 0x7FFE 4 0 0 0 0).inputSpans .crc32 = [] ++ ⟨0x7FFE, 4⟩ :: [] ∧
    (withRegs 0x7FFE 4 0 0 0 0).inputAdmitted (0x7FFE + 2) = false ∧
    ∀ j, j < 2 → (withRegs 0x7FFE 4 0 0 0 0).inputAdmitted (0x7FFE + j) = true := by
  refine ⟨⟨rfl, by decide⟩, ?_, ?_, rfl, by decide, by decide⟩
  · simp only [State.statusChecksPass, Span.nullOk]; decide
  · simp only [Span.fits]; decide

/-- COBS.BEGIN on a span whose last byte lies past HostMem. -/
theorem witness_SpanFaultsInOrder_output :
    (withRegs 0x7FFF 2 0 0 0 0).ready .cobsBegin ∧ (withRegs 0x7FFF 2 0 0 0 0).statusChecksPass .cobsBegin ∧
    (∀ p ∈ (withRegs 0x7FFF 2 0 0 0 0).inputSpans .cobsBegin ++ (withRegs 0x7FFF 2 0 0 0 0).outputSpans .cobsBegin, p.fits) ∧
    (∀ p ∈ (withRegs 0x7FFF 2 0 0 0 0).inputSpans .cobsBegin, (withRegs 0x7FFF 2 0 0 0 0).readableSpan p) ∧
    (withRegs 0x7FFF 2 0 0 0 0).outputSpans .cobsBegin = [⟨0x7FFF, 2⟩] ∧
    (withRegs 0x7FFF 2 0 0 0 0).inHostMem (0x7FFF + 1) = false ∧
    ∀ j, j < 1 → (withRegs 0x7FFF 2 0 0 0 0).inHostMem (0x7FFF + j) = true := by
  refine ⟨⟨rfl, by decide⟩, ?_, ?_, ?_, rfl, by decide, by decide⟩
  · simp only [State.statusChecksPass]; decide
  · simp only [Span.fits]; decide
  · exact fun p hp => absurd hp List.not_mem_nil

/-- FB.BUILD whose output starts at the last byte of its payload. -/
theorem witness_SpanFaultsInOrder_overlap :
    (withRegs 0 0x1000 4 0x1003 12 0).ready (.fbBuild 1) ∧ (withRegs 0 0x1000 4 0x1003 12 0).statusChecksPass (.fbBuild 1) ∧
    (∀ p ∈ (withRegs 0 0x1000 4 0x1003 12 0).inputSpans (.fbBuild 1) ++ (withRegs 0 0x1000 4 0x1003 12 0).outputSpans (.fbBuild 1),
      p.fits) ∧
    (∀ p ∈ (withRegs 0 0x1000 4 0x1003 12 0).inputSpans (.fbBuild 1), (withRegs 0 0x1000 4 0x1003 12 0).readableSpan p) ∧
    (withRegs 0 0x1000 4 0x1003 12 0).outputSpans (.fbBuild 1) = [⟨0x1003, 12⟩] ∧
    (withRegs 0 0x1000 4 0x1003 12 0).writableSpan ⟨0x1003, 12⟩ ∧
    (withRegs 0 0x1000 4 0x1003 12 0).inputSpans (.fbBuild 1) = [] ++ ⟨0x1000, 4⟩ :: [] ∧
    ¬ (⟨0x1003, 12⟩ : Span).apart ⟨0x1000, 4⟩ := by
  refine ⟨⟨rfl, by decide⟩, ?_, ?_, ?_, rfl, writeFault_none.1 (by decide), rfl, ?_⟩
  · simp only [State.statusChecksPass, Span.nullOk]; decide
  · simp only [Span.fits]; decide
  · intro p hp
    obtain rfl := List.mem_singleton.1 hp
    exact readFault_none.1 (by decide)
  · exact fun h => h 0 3 (by decide) (by decide) (by decide)

/-- COBS.DEC of no bytes at null (CobsDecodeFailed), and COBS.BEGIN with no capacity. -/
theorem witness_FailedStatusChecksHaveNoEffect :
    ((withRegs 0 0 0 0 0 0).ready .cobsDec ∧ ¬ (withRegs 0 0 0 0 0 0).statusChecksPass .cobsDec) ∧
    ((withRegs 0x2000 0 0 0 0 0).ready .cobsBegin ∧ ¬ (withRegs 0x2000 0 0 0 0 0).statusChecksPass .cobsBegin) := by
  refine ⟨⟨⟨rfl, by decide⟩, ?_⟩, ⟨rfl, by decide⟩, ?_⟩
  · simp only [State.statusChecksPass]; decide
  · simp only [State.statusChecksPass]; decide

/-- An open encoder one byte short of a 254-run, at the end of its span, is put a byte. -/
theorem witness_EncoderContextInvariantIsKept :
    (doing [.wr 0x00 32 0x4111] (encoding 254 253)).encInv ∧
    holds (step (doing [.wr 0x00 32 0x4111] (encoding 254 253))) (fun t => t.enc.state = .failed) = true := by
  refine ⟨fun _ => ⟨?_, writeFault_none.1 (by decide +kernel)⟩, by decide +kernel⟩
  simp only [Enc.good]
  decide +kernel

/-- A framer one byte short of full, and a full one. -/
theorem witness_ReceiveBufferInvariantIsKept :
    (doing [.wr 0x00 32 0x4121] (received (List.replicate 29 0x41) true)).rxInv ∧
    holds (step (doing [.wr 0x00 32 0x4121] (received (List.replicate 29 0x41) true))) (fun t => t.rxIndex = 30) = true ∧
    (doing [.wr 0x00 32 0x4121] (received (List.replicate 30 0x41) true)).rxInv ∧
    holds (step (doing [.wr 0x00 32 0x4121] (received (List.replicate 30 0x41) true))) (fun t => t.rxIndex = 0) = true := by
  simp only [State.rxInv]
  decide +kernel

/-- The step that starts the delivery of 95_test_vectors.md 1.4. -/
theorem witness_DeliveryAndRegistrationInvariantsAreKept :
    (doing [.wr 0x00 32 0x21] (received packet14 true)).consumerInv ∧
    (doing [.wr 0x00 32 0x21] (received packet14 true)).rxInv ∧
    (doing [.wr 0x00 32 0x21] (received packet14 true)).deliveryInv ∧
    holds (step (doing [.wr 0x00 32 0x21] (received packet14 true))) (fun t => t.phase = .delivering) = true := by
  simp only [State.consumerInv, State.rxInv, State.deliveryInv]
  decide +kernel

/-- A store by an open encoder. -/
theorem witness_MemoryInvariantIsKept :
    (doing [.wr 0x00 32 0x4111] (encoding 2 0)).memInv ∧ (doing [.wr 0x00 32 0x4111] (encoding 2 0)).encInv ∧
    holds (step (doing [.wr 0x00 32 0x4111] (encoding 2 0))) (fun t => t.mem = [(0x2000, 0xEE), (0x2001, 0x41)]) = true := by
  refine ⟨?_, fun _ => ⟨?_, writeFault_none.1 (by decide)⟩, by decide +kernel⟩
  · simp only [State.memInv]; decide
  · simp only [Enc.good]; decide

theorem witness_ConstructionConstantsNeverChange :
    holds (step (doing [.wr 0x24 32 2] State.reset)) (fun t => t.version = 2) = true ∧ State.reset.fault = none := by decide

/-- The three ways PHASE changes. -/
theorem witness_PhaseChangesOnlyAsListed :
    holds (step (doing [.wr 0x00 32 0x21] (received packet14 true))) (fun t => t.phase ≠ .idle) = true ∧
    holds (step (doing [.wr 0x4C 32 9] delivering14)) (fun t => t.phase ≠ .delivering) = true ∧
    holds (step (doing [.reset] delivering14)) (fun t => t.phase ≠ .delivering) = true := by decide +kernel

theorem witness_DeliveryIsUndisturbedByCommands :
    delivering14.phase = .delivering ∧ holds (exec (.cobsPut 0x11) delivering14) (fun t => t.fault = none) = true ∧
    (∀ b, Instr.cobsEnd ≠ .frByte b) ∧ holds (exec .cobsEnd State.reset) (fun t => t.fault = none) = true ∧
    holds (exec .frPkt (withRegs 0x1000 0 0x3000 6 0 0)) (fun t => t.code = .ok) = true := by
  exact ⟨rfl, by decide, fun b h => Instr.noConfusion h, by decide, by decide +kernel⟩

/-- The last admitted byte, and the empty span at null. -/
theorem witness_Crc32CommandGivesTheCrc :
    ((withRegs 0x7FFF 1 0 0 0 0).ready .crc32 ∧ ((withRegs 0x7FFF 1 0 0 0 0).span .a0 .a1).nullOk ∧
      (withRegs 0x7FFF 1 0 0 0 0).readableSpan ((withRegs 0x7FFF 1 0 0 0 0).span .a0 .a1)) ∧
    ((withRegs 0 0 0 0 0 0).ready .crc32 ∧ ((withRegs 0 0 0 0 0 0).span .a0 .a1).nullOk ∧
      (withRegs 0 0 0 0 0 0).readableSpan ((withRegs 0 0 0 0 0 0).span .a0 .a1) ∧ ((withRegs 0 0 0 0 0 0).arg .a1).value = 0) :=
  ⟨⟨⟨rfl, by decide⟩, .inr (by decide), readFault_none.1 (by decide)⟩,
    ⟨rfl, by decide⟩, .inl rfl, readFault_none.1 (by decide), rfl⟩

/-- A span of one byte, and no capacity. -/
theorem witness_CobsBeginOpensTheContext :
    ((withRegs 0x7FFF 1 0 0 0 0).ready .cobsBegin ∧ ((withRegs 0x7FFF 1 0 0 0 0).arg .a0).value ≠ 0 ∧
      ((withRegs 0x7FFF 1 0 0 0 0).arg .a1).value ≠ 0 ∧
      (withRegs 0x7FFF 1 0 0 0 0).writableSpan ((withRegs 0x7FFF 1 0 0 0 0).span .a0 .a1)) ∧
    ((withRegs 0x2000 0 0 0 0 0).ready .cobsBegin ∧ ((withRegs 0x2000 0 0 0 0 0).arg .a1).value = 0) :=
  ⟨⟨⟨rfl, by decide⟩, by decide, by decide, writeFault_none.1 (by decide)⟩, ⟨rfl, by decide⟩, rfl⟩

/-- The clauses in their order, each at the edge of the capacity. -/
theorem witness_CobsPutStores :
    (State.reset.fault = none ∧ State.reset.enc.state ≠ .active) ∧
    ((encoding 1 0).fault = none ∧ (encoding 1 0).enc.state = .active ∧ (encoding 1 0).enc.cap.toNat ≤ (encoding 1 0).enc.wi.toNat) ∧
    ((encoding 2 0).enc.wi.toNat < (encoding 2 0).enc.cap.toNat ∧ (encoding 2 0).enc.code ≠ 0xFE) ∧
    ((encoding 256 253).enc.wi.toNat + 1 < (encoding 256 253).enc.cap.toNat ∧ (encoding 256 253).enc.code = 0xFE) ∧
    ((encoding 255 253).enc.wi.toNat + 1 = (encoding 255 253).enc.cap.toNat ∧ (encoding 255 253).enc.code = 0xFE) := by
  decide

theorem witness_CobsEndGivesTheLength :
    (encoding 1 0).fault = none ∧ (encoding 1 0).enc.state = .active ∧ State.reset.enc.state ≠ .active := by decide

/-- `11 22 00 33` into 5 bytes, which it fills, and into 4. -/
theorem witness_IncrementalEncodingIsEnc :
    (∀ cap ∈ [(5 : Word), 4], (withRegs 0x2000 cap 0 0 0 0).ready .cobsBegin ∧
      ((withRegs 0x2000 cap 0 0 0 0).arg .a0).value ≠ 0 ∧ ((withRegs 0x2000 cap 0 0 0 0).arg .a1).value ≠ 0 ∧
      (withRegs 0x2000 cap 0 0 0 0).writableSpan ((withRegs 0x2000 cap 0 0 0 0).span .a0 .a1)) ∧
    (cobsEnc [0x11, 0x22, 0x00, 0x33]).length = 5 := by
  refine ⟨fun cap hc => ?_, by decide⟩
  rcases List.mem_cons.1 hc with rfl | hc
  · exact ⟨⟨rfl, by decide⟩, by decide, by decide, writeFault_none.1 (by decide)⟩
  · obtain rfl := List.mem_singleton.1 hc
    exact ⟨⟨rfl, by decide⟩, by decide, by decide, writeFault_none.1 (by decide)⟩

/-- `11 22` ‖ `00 33` at its exact capacity and one below, and two empty inputs at null. -/
theorem witness_Enc2CommandIsEnc :
    (∀ cap ∈ [(5 : Word), 4], ∀ p1 ∈ [(0x1000, 2), ((0 : Word), (0 : Word))],
      let s := holding 0x1100 [0x00, 0x33] (holding 0x1000 [0x11, 0x22] (withRegs p1.1 p1.2 0x1100 2 0x2000 cap))
      s.ready .cobsEnc2 ∧ s.statusChecksPass .cobsEnc2 ∧ s.readableSpan (s.span .a0 .a1) ∧
        s.readableSpan (s.span .a2 .a3) ∧ s.writableSpan (s.span .a4 .a5) ∧
        (s.span .a4 .a5).apart (s.span .a0 .a1) ∧ (s.span .a4 .a5).apart (s.span .a2 .a3)) ∧
    (cobsEnc ([0x11, 0x22] ++ [0x00, 0x33])).length = 5 := by
  refine ⟨fun cap hc p1 hp => ?_, by decide⟩
  obtain rfl | rfl : cap = 5 ∨ cap = 4 := by simpa using hc
  all_goals
    obtain rfl | rfl : p1 = (0x1000, 2) ∨ p1 = (0, 0) := by simpa using hp
    all_goals
      refine ⟨⟨rfl, by decide⟩, ?_, readFault_none.1 (by decide), readFault_none.1 (by decide),
        writeFault_none.1 (by decide), Span.overlaps_false.1 (by decide), Span.overlaps_false.1 (by decide)⟩
      simp only [State.statusChecksPass, Span.nullOk]
      decide

/-- `FF` and 254 bytes 0x41 with no final `01`: a decodable sequence that is no encoding. -/
theorem witness_DecodableIsEncodingOrEndsInFullRun :
    cobsDec [0x02, 0x11] = some [0x11] ∧ cobsDec (0xFF :: List.replicate 254 0x41) = some (List.replicate 254 0x41) := by
  decide +kernel

/-- No bytes at null; some at null; a decodable buffer and one that is not. -/
theorem witness_DecCommandDecodesInPlace :
    ((withRegs 0 0 0 0 0 0).ready .cobsDec ∧ ((withRegs 0 0 0 0 0 0).arg .a1).value = 0) ∧
    ((withRegs 0 1 0 0 0 0).ready .cobsDec ∧ ((withRegs 0 1 0 0 0 0).arg .a1).value ≠ 0 ∧ ((withRegs 0 1 0 0 0 0).arg .a0).value = 0) ∧
    (∀ b ∈ [(0x01 : Byte), 0x02], (holding 0x7FFF [b] (withRegs 0x7FFF 1 0 0 0 0)).ready .cobsDec ∧
      (holding 0x7FFF [b] (withRegs 0x7FFF 1 0 0 0 0)).writableSpan
        ((holding 0x7FFF [b] (withRegs 0x7FFF 1 0 0 0 0)).span .a0 .a1)) ∧
    cobsDec ((holding 0x7FFF [0x01] (withRegs 0x7FFF 1 0 0 0 0)).readSpan ⟨0x7FFF, 1⟩) = some [] ∧
    cobsDec ((holding 0x7FFF [0x02] (withRegs 0x7FFF 1 0 0 0 0)).readSpan ⟨0x7FFF, 1⟩) = none := by
  refine ⟨⟨⟨rfl, by decide⟩, rfl⟩, ⟨⟨rfl, by decide⟩, by decide, rfl⟩, fun b _ => ?_, by decide, by decide⟩
  exact ⟨⟨rfl, by decide +revert⟩, writeFault_none.1 rfl⟩

theorem witness_IdleDelimiterIsIgnored :
    State.reset.fault = none ∧ State.reset.phase = .idle ∧ State.reset.rxIndex = 0 := ⟨rfl, rfl, rfl⟩

/-- RX_INDEX = MaxPacketSize − 1. -/
theorem witness_FrByteAppends :
    (received (List.replicate 29 0x41) false).fault = none ∧ (received (List.replicate 29 0x41) false).phase = .idle ∧
    (received (List.replicate 29 0x41) false).rxInv ∧ (0x41 : Byte) ≠ 0 ∧
    (received (List.replicate 29 0x41) false).rxIndex < (received (List.replicate 29 0x41) false).cfg.maxPacketSize := by
  simp only [State.rxInv]
  decide +kernel

theorem witness_FrByteOverflows :
    (received (List.replicate 30 0x41) false).fault = none ∧ (received (List.replicate 30 0x41) false).phase = .idle ∧
    (received (List.replicate 30 0x41) false).rxIndex = (received (List.replicate 30 0x41) false).cfg.maxPacketSize := by
  decide

/-- 62 bytes: two whole turns of 31 (95_test_vectors.md 2.5). -/
theorem witness_OverflowsFallEveryMaxPacketSizePlusOne :
    State.reset.rxInv ∧ State.reset.rxIndex = 0 ∧ List.replicate 62 (0x41 : Byte) ≠ [] ∧
    (∀ b ∈ List.replicate 62 (0x41 : Byte), b ≠ 0) ∧ 62 % (State.reset.cfg.maxPacketSize + 1) = 0 := by
  simp only [State.rxInv]
  decide +kernel

/-- The clauses in their order: undecodable, 3 bytes decoded, a wrong CRC, and the packet of 95_test_vectors.md 1.4 without
and with a consumer. -/
theorem witness_DelimiterChecksThePacket :
    (∀ bs ∈ [[0x03, 0x11], [0x02, 0x01, 0x01, 0x01], [0x05, 0x01, 0x02, 0x03, 0x04], packet14],
      (received bs true).fault = none ∧ (received bs true).phase = .idle ∧
        (received bs true).rxbuf.length = (received bs true).cfg.maxPacketSize ∧
        (received bs true).rxIndex ≤ (received bs true).cfg.maxPacketSize ∧
        (∀ k, k < (received bs true).rxIndex → (received bs true).rxbuf.getD k 0 ≠ 0) ∧ (received bs true).rxIndex ≠ 0 ∧
        (received bs true).rxbuf.take (received bs true).rxIndex = bs) ∧
    cobsDec [0x03, 0x11] = none ∧ cobsDec [0x02, 0x01, 0x01, 0x01] = some [0x01, 0x00, 0x00] ∧
    cobsDec [0x05, 0x01, 0x02, 0x03, 0x04] = some ([] ++ [0x01, 0x02, 0x03, 0x04]) ∧
    [0x01, 0x02, 0x03, 0x04] ≠ bytesBe32 (crc32 []) ∧
    cobsDec packet14 = some (frame13 ++ [0xB7, 0xFB, 0xB9, 0x94]) ∧ [0xB7, 0xFB, 0xB9, 0x94] = bytesBe32 (crc32 frame13) ∧
    (received packet14 false).cbValid = false ∧ (received packet14 true).cbValid = true := by decide +kernel

/-- Idle; in a delivery with values 10 and 9. -/
theorem witness_AcknowledgementEndsTheDelivery :
    (State.reset.fault = none ∧ State.reset.phase = .idle) ∧
    (delivering14.fault = none ∧ delivering14.phase = .delivering ∧ 9 < (10 : Word).toNat ∧ (9 : Word).toNat ≤ 9) := by decide

theorem witness_FrRegRegistersTheConsumer :
    ((withRegs 1 0 0 0 0 0).ready .frReg ∧ (withRegs 1 0 0 0 0 0).phase = .idle ∧ ((withRegs 1 0 0 0 0 0).arg .a0).value ≠ 0) ∧
    ((withRegs 0 0 0 0 0 0).ready .frReg ∧ (withRegs 0 0 0 0 0 0).phase = .idle ∧ ((withRegs 0 0 0 0 0 0).arg .a0).value = 0) :=
  ⟨⟨⟨rfl, by decide⟩, rfl, by decide⟩, ⟨rfl, by decide⟩, rfl, rfl⟩

theorem witness_ReentryFaults : delivering14.fault = none ∧ delivering14.phase = .delivering := ⟨rfl, rfl⟩

/-- The frame of 95_test_vectors.md 1.3 into 18 bytes, which the packet fills, and into 17. -/
theorem witness_PktCommandBuildsThePacket :
    (∀ cap ∈ [(18 : Word), 17],
      let s := holding 0x1000 frame13 (withRegs 0x1000 12 0x3000 cap 0 0)
      s.ready .frPkt ∧ s.statusChecksPass .frPkt ∧ s.readableSpan (s.span .a0 .a1) ∧ s.writableSpan (s.span .a2 .a3) ∧
        (s.span .a2 .a3).apart (s.span .a0 .a1)) ∧
    (packetOf ((holding 0x1000 frame13 (withRegs 0x1000 12 0x3000 18 0 0)).readSpan ⟨0x1000, 12⟩)).length = 18 := by
  refine ⟨fun cap hc => ?_, by decide +kernel⟩
  obtain rfl | rfl : cap = 18 ∨ cap = 17 := by simpa using hc
  all_goals
    refine ⟨⟨rfl, by decide⟩, ?_, readFault_none.1 (by decide), writeFault_none.1 (by decide),
      Span.overlaps_false.1 (by decide)⟩
    simp only [State.statusChecksPass]
    decide

/-- A frame of 25 bytes whose packet of 31 fills RXBUF, and a position inside it. -/
theorem witness_PacketRoundTrip :
    (received [] true).fault = none ∧ (received [] true).phase = .idle ∧ (received [] true).rxIndex = 0 ∧
    (received [] true).cbValid = true ∧ (received [] true).rxInv ∧ (received [] true).cfg.ok = true ∧
    (packetOf (List.replicate 25 0x41)).length = (received [] true).cfg.maxPacketSize + 1 ∧
    0 < 30 ∧ 30 < (packetOf (List.replicate 25 0x41)).length := by
  simp only [State.rxInv]
  decide +kernel

/-- A delimiter after a broken packet, then the packet of 95_test_vectors.md 1.4. -/
theorem witness_DelimiterResynchronises :
    (received [0x41] true).fault = none ∧ (received [0x41] true).phase = .idle ∧ (received [0x41] true).cbValid = true ∧
    (received [0x41] true).rxInv ∧ (received [0x41] true).cfg.ok = true ∧
    (packetOf frame13).length ≤ (received [0x41] true).cfg.maxPacketSize + 1 ∧
    holds (exec (.frByte 0) (received [0x41] true)) (fun u => u.phase = .idle) = true := by
  simp only [State.rxInv]
  decide +kernel

/-- A payload of 4 bytes into 12, which the frame fills, and the empty payload at null into 8. -/
theorem witness_BuildCommandWritesTheFrame :
    ∀ q ∈ [((0x1000 : Word), (4 : Word), (12 : Word)), (0, 0, 8)],
      let s := holding 0x1000 [0x01, 0x02, 0x03, 0x04] (withRegs 0x12345678 q.1 q.2.1 0x2000 q.2.2 0)
      s.ready (.fbBuild 7) ∧ s.statusChecksPass (.fbBuild 7) ∧ s.readableSpan (s.span .a1 .a2) ∧
        s.writableSpan (s.span .a3 .a4) ∧ (s.span .a3 .a4).apart (s.span .a1 .a2) := by
  intro q hq
  obtain rfl | rfl : q = (0x1000, 4, 12) ∨ q = (0, 0, 8) := by simpa using hq
  all_goals
    refine ⟨⟨rfl, by decide⟩, ?_, readFault_none.1 (by decide), writeFault_none.1 (by decide),
      Span.overlaps_false.1 (by decide)⟩
    simp only [State.statusChecksPass, Span.nullOk]
    decide

/-- A frame of exactly maxFrameSize(P) bytes. -/
theorem witness_PacketSizeBounds : (List.replicate 8 (0x41 : Byte)).length ≤ maxFrameSize 0 := by decide

/-- Each read, and by address a four-byte read of CFG_RXBASE (a value) and a one-byte read of the file's last byte (a fault). -/
theorem witness_RegisterReadsReturnTheRegisters :
    State.reset.fault = none ∧ State.reset.resultWritten = false ∧ (State.reset.arg .a5).written = false ∧
    ({ withRegs 1 2 3 4 5 6 with resultWritten := true } : State).fault = none ∧
    ({ withRegs 1 2 3 4 5 6 with resultWritten := true } : State).resultWritten = true ∧
    (withRegs 1 2 3 4 5 6).a0.written = true ∧ (withRegs 1 2 3 4 5 6).a1.written = true ∧
    (withRegs 1 2 3 4 5 6).a2.written = true ∧ (withRegs 1 2 3 4 5 6).a3.written = true ∧
    (withRegs 1 2 3 4 5 6).a4.written = true ∧ (withRegs 1 2 3 4 5 6).a5.written = true ∧
    ((0xF0000054 : Word).toNat = State.reset.cfg.regBase + 0x54 ∧
      (∀ k, k < 4 → State.reset.inWindow ((0xF0000054 : Word).toNat + k) = false) ∧
      perform (.rd 0x54 (8 * 4)) State.reset = .next { State.reset with busData := .word 0x8000 }) ∧
    ((0xF0000057 : Word).toNat = State.reset.cfg.regBase + 0x57 ∧ 0x57 < 0x58 ∧
      (∀ k, k < 1 → State.reset.inWindow ((0xF0000057 : Word).toNat + k) = false) ∧
      perform (.rd 0x57 (8 * 1)) State.reset =
        .next { State.reset with fault := some (.busMisuse 0x57 8 .read) }) := by
  refine ⟨rfl, rfl, rfl, rfl, rfl, rfl, rfl, rfl, rfl, rfl, rfl, ⟨by decide, by decide, rfl⟩, by decide, by decide, by decide, rfl⟩

theorem witness_RegisterReadsHaveNoSideEffect :
    holds (perform (.rd 0x54 32) State.reset) (fun t => t.fault = none) = true := by decide

/-- The last register, the first offset past it, and the offsets that meet at the edges of the lists. -/
theorem witness_BusMisuseExactlyWhenNotAdmitted :
    State.reset.fault = none ∧ 0x54 < 0x58 ∧ 0x06 % 4 ≠ 0 ∧
    0x54 ∈ [0x04, 0x08, 0x28, 0x2C, 0x30, 0x34, 0x38, 0x3C, 0x40, 0x44, 0x48, 0x50, 0x54] ∧
    0x4C ∈ [0x00, 0x0C, 0x10, 0x14, 0x18, 0x1C, 0x20, 0x24, 0x4C] ∧
    (∀ o ∈ [0x00, 0x0C, 0x10, 0x14, 0x18, 0x1C, 0x20, 0x24, 0x4C],
      o ∉ [0x04, 0x08, 0x28, 0x2C, 0x30, 0x34, 0x38, 0x3C, 0x40, 0x44, 0x48, 0x50, 0x54] ∧ o % 4 = 0 ∧ o ≤ 0x54) := by
  decide

/-- By address, the four bytes of DELIV_ACK. -/
theorem witness_RegisterWritesStore :
    State.reset.fault = none ∧ [(9 : Byte), 0, 0, 0] ≠ [] ∧ (0xF000004C : Word).toNat = State.reset.cfg.regBase + 0x4C ∧
    ∀ k, k < 4 → State.reset.inWindow ((0xF000004C : Word).toNat + k) = false := by decide

/-- In a delivery the last frame byte and the first past it; idle, the last byte of the window; and a wide access that
begins one byte before the window. -/
theorem witness_WindowIsReadableOnlyInADelivery :
    (delivering14.fault = none ∧ (0x800B : Word).toNat + 0 = delivering14.cfg.rxBase + 11 ∧
      11 < delivering14.cfg.maxPacketSize ∧ delivering14.phase = .delivering ∧ 11 < delivering14.delivLen.toNat) ∧
    ((0x800C : Word).toNat + 0 = delivering14.cfg.rxBase + 12 ∧ delivering14.delivLen.toNat ≤ 12 ∧
      12 < delivering14.cfg.maxPacketSize) ∧
    (State.reset.fault = none ∧ (0x801D : Word).toNat + 0 = State.reset.cfg.rxBase + 29 ∧ State.reset.phase = .idle ∧
      29 < State.reset.cfg.maxPacketSize) ∧
    ((0x7FFF : Word).toNat + 1 = State.reset.cfg.rxBase + 0 ∧
      (∀ j, j < 1 → State.reset.inWindow ((0x7FFF : Word).toNat + j) = false) ∧ 1 < [(0x11 : Byte), 0x22].length) := by
  decide

/-- The last byte of HostMem. -/
theorem witness_HostMemoryReadsWhatWasWritten :
    State.reset.fault = none ∧ State.reset.cfg.ok = true ∧ State.reset.inHostMem (0x7FFF : Word).toNat = true := by decide

theorem witness_FrameOfCommandsThatStoreNothing :
    holds (exec .crc32 (withRegs 0 0 0 0 0 0)) (fun t => t.fault = none) = true ∧
    holds (exec .frReg (withRegs 1 0 0 0 0 0)) (fun t => t.fault = none) = true ∧
    holds (exec (.frByte 0x41) State.reset) (fun t => t.fault = none) = true := by decide

theorem witness_FrameOfTheIncrementalEncoder :
    holds (exec .cobsBegin (withRegs 0x2000 1 0 0 0 0)) (fun t => t.fault = none) = true ∧
    holds (exec (.cobsPut 0) (encoding 2 0)) (fun t => t.code = .ok) = true ∧
    holds (exec (.cobsPut 0x41) (encoding 256 253)) (fun t => t.code = .ok) = true ∧ (encoding 256 253).enc.code = 0xFE ∧
    holds (exec .cobsEnd (encoding 1 0)) (fun t => t.code = .ok) = true := by decide +kernel

theorem witness_FrameOfCommandsThatStoreIntoASpan :
    ((withRegs 0 0 0 0 0x2000 1).outputSpans .cobsEnc2 = [⟨0x2000, 1⟩] ∧
      holds (exec .cobsEnc2 (withRegs 0 0 0 0 0x2000 1)) (fun t => t.code = .ok) = true) ∧
    ((holding 0x2000 [0x01] (withRegs 0x2000 1 0 0 0 0)).outputSpans .cobsDec = [⟨0x2000, 1⟩] ∧
      holds (exec .cobsDec (holding 0x2000 [0x01] (withRegs 0x2000 1 0 0 0 0))) (fun t => t.code = .ok) = true) ∧
    ((withRegs 0x1000 0 0x3000 6 0 0).outputSpans .frPkt = [⟨0x3000, 6⟩] ∧
      holds (exec .frPkt (withRegs 0x1000 0 0x3000 6 0 0)) (fun t => t.code = .ok) = true) ∧
    ((withRegs 0 0 0 0x2000 8 0).outputSpans (.fbBuild 1) = [⟨0x2000, 8⟩] ∧
      holds (exec (.fbBuild 1) (withRegs 0 0 0 0x2000 8 0)) (fun t => t.code = .ok) = true) := by decide +kernel

end Sys2Proof.Tests
end

section
/-! Proofs about the scope of the block (00_scope.md): every step stores inside HostMem only, the sizes of encodings and
packets, the state after reset, and the host's accesses to the register file. -/

namespace Sys2Proof.Machine

/-! ### What a command stores, and that it lies in HostMem -/

theorem Memory.within_writeBytes (m : Memory) {lo n : Nat} {bs : List Byte} (h : bs.length ≤ n) :
    Memory.Within lo n m (m.writeBytes lo bs) := by
  refine ⟨fun a ha => Memory.read_writeBytes_outside _ _ _ _ (by omega), fun c hc => ?_,
    fun hw => Memory.wf_writeBytes hw _ _⟩
  obtain ⟨hlo, hhi⟩ | hc := Memory.mem_writeBytes hc
  · exact .inr ⟨hlo, by omega⟩
  · exact .inl hc

theorem inHostMem_congr {s t : State} (h : t.cfg = s.cfg) (a : Nat) : t.inHostMem a = s.inHostMem a := by
  simp [State.inHostMem, h]

/-- Writes to a run of HostMem addresses keep the memory invariant. -/
theorem memInv_of_within {s t : State} {lo n : Nat} (hi : s.memInv) (hcfg : t.cfg = s.cfg)
    (hin : ∀ k, k < n → s.inHostMem (lo + k) = true) (hw : Memory.Within lo n s.mem t.mem) : t.memInv := by
  obtain ⟨hwf, hlisted⟩ := hi
  obtain ⟨-, hcells, hform⟩ := hw
  refine ⟨hform hwf, fun c hc => ?_⟩
  rw [inHostMem_congr hcfg]
  obtain hold | ⟨hlo, hhi⟩ := hcells c hc
  · exact hlisted c hold
  · have := hin (c.1 - lo) (by omega)
    rwa [Nat.add_sub_cancel' hlo] at this

/-- `t` is `s` with no store to memory, or with stores inside the admitted output span `p` only (20_memory.md R214). -/
def StoredInto (p : Span) (s t : State) : Prop :=
  t.mem = s.mem ∨ (s.writableSpan p ∧ Memory.Within p.ptr.toNat p.len.toNat s.mem t.mem)

theorem StoredInto.memInv {p : Span} {s t : State} (h : StoredInto p s t) (hcfg : t.cfg = s.cfg) (hi : s.memInv) :
    t.memInv := by
  obtain hm | ⟨⟨-, hadm⟩, hw⟩ := h
  · exact memInv_of_within (lo := 0) (n := 0) hi hcfg (by simp) (hm ▸ .refl _ _ _)
  · exact memInv_of_within hi hcfg hadm hw

theorem scrambleSpan_storedInto {p : Span} {s : State} (h : s.writableSpan p) : StoredInto p s (scrambleSpan p s) :=
  .inr ⟨h, Memory.within_writeBytes _ (by simp)⟩

/-- An encoding of a command's own that succeeds writes as many bytes as its length says, which fit the capacity. -/
theorem encodeSpan_within {out cap len : Word} {bs : List Byte} {s u : State} (hc : cap ≠ 0)
    (h : encodeSpan out cap bs s = some (len, u)) :
    len.toNat ≤ cap.toNat ∧ Memory.Within out.toNat len.toNat s.mem u.mem := by
  obtain ⟨hfit, hfull⟩ := encodeSpan_spec (out := out) hc bs s
  rcases Nat.lt_or_ge cap.toNat (cobsEnc bs).length with hlt | hle
  · rw [hfull hlt] at h; cases h
  · obtain ⟨m, he, -, hw⟩ := hfit hle
    rw [he] at h; cases h
    have hlen : (BitVec.ofNat 32 (cobsEnc bs).length).toNat = (cobsEnc bs).length := by
      have := cap.isLt
      rw [BitVec.toNat_ofNat, Nat.mod_eq_of_lt (by omega)]
    rw [hlen]
    exact ⟨hle, hw⟩

@[simp] theorem Dec.emit_buf_length (d : Dec) (v : Byte) : (d.emit v).buf.length = d.buf.length := by
  simp [Dec.emit]

theorem decodeGroup_buf_length {n k : Nat} {d d' : Dec} (h : decodeGroup n k d = some d') :
    d'.buf.length = d.buf.length := by
  induction k generalizing d with
  | zero => cases h; rfl
  | succ k ih =>
    simp only [decodeGroup] at h
    split at h
    · cases h
    split at h
    · cases h
    · simpa using ih h

theorem decodeLoop_buf_length {n fuel : Nat} {d d' : Dec} (h : decodeLoop n fuel d = some d') :
    d'.buf.length = d.buf.length := by
  induction fuel generalizing d with
  | zero =>
    simp only [decodeLoop] at h
    split at h <;> cases h
    rfl
  | succ fuel ih =>
    simp only [decodeLoop] at h
    split at h
    · split at h
      · cases h
      · obtain ⟨g, hg, hl⟩ := Option.bind_eq_some_iff.1 h
        have hgroup := decodeGroup_buf_length hg
        have hloop := ih hl
        split at hloop <;> simp_all
    · cases h; rfl

/-- Decoding in place keeps the buffer's size (41_cobs.md R475, R476). -/
theorem cobsDecode_buf_length {buf out : List Byte} {n w : Nat} (h : cobsDecode buf n = some (out, w)) :
    out.length = buf.length := by
  unfold cobsDecode at h
  split at h
  · cases h
  · obtain ⟨d, hd, he⟩ := Option.map_eq_some_iff.1 h
    cases he
    exact decodeLoop_buf_length hd

theorem execCobsBegin_storedInto {s t : State} (h : execCobsBegin s = .next t) :
    t.cfg = s.cfg ∧ StoredInto (s.span .a0 .a1) s t := by
  obtain ⟨-, ⟨r, rfl⟩ | ⟨-, rfl | ⟨-, hlen, hw, rfl⟩⟩⟩ := execCobsBegin_cases h
  · exact ⟨rfl, .inl rfl⟩
  · exact ⟨rfl, .inl rfl⟩
  · exact ⟨rfl, .inr ⟨hw, Memory.within_write s.mem (k := 0) (BitVec.toNat_pos_of_ne_zero hlen) _⟩⟩

theorem execCobsEnc2_storedInto {s t : State} (h : execCobsEnc2 s = .next t) :
    t.cfg = s.cfg ∧ StoredInto (s.span .a4 .a5) s t := by
  obtain ⟨-, ⟨r, rfl⟩ | ⟨-, rfl | ⟨hw, -, hlen, ⟨len, u, he, rfl⟩ | rfl⟩⟩⟩ := execCobsEnc2_cases h
  · exact ⟨rfl, .inl rfl⟩
  · exact ⟨rfl, .inl rfl⟩
  · obtain ⟨hle, hin⟩ := encodeSpan_within hlen he
    obtain ⟨m, rfl, -⟩ := encodeSpan_some he
    exact ⟨rfl, .inr ⟨hw, hin.mono hle⟩⟩
  · exact ⟨rfl, scrambleSpan_storedInto hw⟩

theorem execCobsDec_storedInto {s t : State} (h : execCobsDec s = .next t) :
    t.cfg = s.cfg ∧ StoredInto (s.span .a0 .a1) s t := by
  obtain ⟨-, ⟨r, rfl⟩ | ⟨-, rfl | rfl | ⟨hw, ⟨buf, w, hd, rfl⟩ | rfl⟩⟩⟩ := execCobsDec_cases h
  · exact ⟨rfl, .inl rfl⟩
  · exact ⟨rfl, .inl rfl⟩
  · exact ⟨rfl, .inl rfl⟩
  · have hbuf : buf.length = (s.span .a0 .a1).len.toNat := by simpa [State.readSpan] using cobsDecode_buf_length hd
    exact ⟨rfl, .inr ⟨hw, Memory.within_writeBytes _ (by rw [List.length_take]; omega)⟩⟩
  · exact ⟨rfl, scrambleSpan_storedInto hw⟩

theorem execFrPkt_storedInto {s t : State} (h : execFrPkt s = .next t) :
    t.cfg = s.cfg ∧ StoredInto (s.span .a2 .a3) s t := by
  obtain ⟨-, ⟨r, rfl⟩ | ⟨-, rfl | ⟨hw, -, h2, ⟨len, u, he, rfl⟩ | rfl⟩⟩⟩ := execFrPkt_cases h
  · exact ⟨rfl, .inl rfl⟩
  · exact ⟨rfl, .inl rfl⟩
  · have hcap : (s.a3.value - 1).toNat = s.a3.value.toNat - 1 := by bv_omega
    obtain ⟨hle, hin⟩ := encodeSpan_within (fun h0 => by rw [h0] at hcap; simp at hcap; omega) he
    obtain ⟨m, rfl, -⟩ := encodeSpan_some he
    have hlast : len.toNat < (s.span .a2 .a3).len.toNat := by
      show len.toNat < s.a3.value.toNat
      omega
    exact ⟨rfl, .inr ⟨hw, (hin.mono hlast.le).trans (Memory.within_write m hlast 0)⟩⟩
  · exact ⟨rfl, scrambleSpan_storedInto hw⟩

theorem execFbBuild_storedInto {id : Byte} {s t : State} (h : execFbBuild id s = .next t) :
    t.cfg = s.cfg ∧ StoredInto (s.span .a3 .a4) s t := by
  obtain ⟨-, ⟨r, rfl⟩ | ⟨-, rfl | ⟨hw, hroom, rfl⟩⟩⟩ := execFbBuild_cases h
  · exact ⟨rfl, .inl rfl⟩
  · exact ⟨rfl, .inl rfl⟩
  · have hlen : (frameHeader s.version id s.a0.value s.a2.value.toNat ++ s.readSpan (s.span .a1 .a2)).length =
        8 + s.a2.value.toNat := by
      simp [frameHeader, bytesBe32, bytesBe16, State.readSpan, State.span, State.arg]
      omega
    exact ⟨rfl, .inr ⟨hw, Memory.within_writeBytes _ (hlen.trans_le hroom)⟩⟩

/-- In an Active context the code byte's slot lies in the output span (10_state.md R117). -/
theorem Enc.good.ci_lt_cap {e : Enc} (h : e.good) : e.ci.toNat < e.cap.toNat := by
  obtain ⟨-, -, hci, hwi, -⟩ := h
  omega

theorem execCobsPut_storedInto {b : Byte} {s t : State} (hinv : s.encInv) (h : execCobsPut b s = .next t) :
    t.cfg = s.cfg ∧ StoredInto ⟨s.enc.out, s.enc.cap⟩ s t := by
  obtain ⟨-, ⟨-, rfl⟩ | ⟨ha, rfl⟩⟩ := execCobsPut_cases h
  · exact ⟨rfl, .inl rfl⟩
  · obtain ⟨hgood, hw⟩ := hinv ha
    exact ⟨rfl, .inr ⟨hw, encPut_within hgood.ci_lt_cap s.mem b⟩⟩

theorem execCobsEnd_storedInto {s t : State} (hinv : s.encInv) (h : execCobsEnd s = .next t) :
    t.cfg = s.cfg ∧ StoredInto ⟨s.enc.out, s.enc.cap⟩ s t := by
  obtain ⟨-, ⟨-, rfl⟩ | ⟨ha, rfl⟩⟩ := execCobsEnd_cases h
  · exact ⟨rfl, .inl rfl⟩
  · obtain ⟨hgood, hw⟩ := hinv ha
    exact ⟨rfl, .inr ⟨hw, Memory.within_write s.mem hgood.ci_lt_cap _⟩⟩

theorem execCrc32_mem {s t : State} (h : execCrc32 s = .next t) : t.cfg = s.cfg ∧ t.mem = s.mem := by
  obtain ⟨-, ⟨r, rfl⟩ | ⟨-, rfl | ⟨-, rfl⟩⟩⟩ := execCrc32_cases h
  · exact ⟨rfl, rfl⟩
  · exact ⟨rfl, rfl⟩
  · exact ⟨rfl, rfl⟩

theorem frDelimiter_mem {s t : State} (h : frDelimiter s = .next t) : t.cfg = s.cfg ∧ t.mem = s.mem := by
  obtain ⟨-, rfl⟩ | ⟨-, ⟨c, -, rfl⟩ | ⟨buf, w, -, -, ⟨-, rfl⟩ | ⟨-, rfl⟩⟩⟩ := frDelimiter_cases h
  · exact ⟨rfl, rfl⟩
  · exact ⟨rfl, rfl⟩
  · exact ⟨rfl, rfl⟩
  · exact ⟨rfl, rfl⟩

theorem execFrByte_mem {b : Byte} {s t : State} (h : execFrByte b s = .next t) : t.cfg = s.cfg ∧ t.mem = s.mem := by
  obtain ⟨-, ⟨-, r, rfl⟩ | ⟨-, ⟨-, hd⟩ | ⟨-, -, rfl⟩ | ⟨-, -, rfl⟩⟩⟩ := execFrByte_cases h
  · exact ⟨rfl, rfl⟩
  · exact frDelimiter_mem hd
  · exact ⟨rfl, rfl⟩
  · exact ⟨rfl, rfl⟩

theorem execFrReg_mem {s t : State} (h : execFrReg s = .next t) : t.cfg = s.cfg ∧ t.mem = s.mem := by
  obtain ⟨-, ⟨r, rfl⟩ | ⟨-, -, rfl | ⟨-, rfl⟩⟩⟩ := execFrReg_cases h
  · exact ⟨rfl, rfl⟩
  · exact ⟨rfl, rfl⟩
  · exact ⟨rfl, rfl⟩

/-- Every command stores inside one span that the block admits for output, or nothing (20_memory.md R214). -/
theorem exec_storedInto {i : Instr} {s t : State} (hinv : s.encInv) (h : exec i s = .next t) :
    t.cfg = s.cfg ∧ ∃ p, StoredInto p s t := by
  have hnone (hm : t.cfg = s.cfg ∧ t.mem = s.mem) : t.cfg = s.cfg ∧ ∃ p, StoredInto p s t :=
    hm.imp_right fun hm => ⟨⟨0, 0⟩, .inl hm⟩
  cases i with
  | crc32 => exact hnone (execCrc32_mem h)
  | cobsBegin => exact (execCobsBegin_storedInto h).imp_right fun hp => ⟨_, hp⟩
  | cobsPut b => exact (execCobsPut_storedInto hinv h).imp_right fun hp => ⟨_, hp⟩
  | cobsEnd => exact (execCobsEnd_storedInto hinv h).imp_right fun hp => ⟨_, hp⟩
  | cobsEnc2 => exact (execCobsEnc2_storedInto h).imp_right fun hp => ⟨_, hp⟩
  | cobsDec => exact (execCobsDec_storedInto h).imp_right fun hp => ⟨_, hp⟩
  | frPkt => exact (execFrPkt_storedInto h).imp_right fun hp => ⟨_, hp⟩
  | frByte b => exact hnone (execFrByte_mem h)
  | frReg => exact hnone (execFrReg_mem h)
  | fbBuild id => exact (execFbBuild_storedInto h).imp_right fun hp => ⟨_, hp⟩

/-- The host's own operations store in HostMem only (00_scope.md R15, 20_memory.md R216, R222). -/
theorem HostEffect.memInv {op : HostOp} {u t : State} (h : HostEffect op u t) (hi : u.memInv) : t.memInv := by
  cases h with
  | raised h => obtain ⟨r, rfl⟩ := h; exact hi
  | wroteArg i v _ h => subst h; cases i <;> exact hi
  | wroteVersion v _ h => subst h; exact hi
  | acknowledged v c _ _ h => subst h; exact hi
  | hasRead d ops h => subst h; exact hi
  | stored a bs ha h =>
    subst h
    exact memInv_of_within hi rfl ha (Memory.within_writeBytes _ le_rfl)

/-- Settles O18: what a command stores lies in an admitted output span, and a host write reaches memory only inside
HostMem. -/
theorem memoryInvariantIsKept : Obligations.MemoryInvariantIsKept := by
  intro s t hmem henc hstep
  obtain ⟨-, rfl⟩ | ⟨op, rest, -, ⟨-, rfl⟩ | ⟨-, ⟨w, i, -, -, hexec⟩ | heff⟩⟩ := step_cases hstep
  · exact hmem
  · exact hmem
  · obtain ⟨hcfg, p, hp⟩ := exec_storedInto (s := { s with hostOps := rest }) henc hexec
    exact hp.memInv hcfg hmem
  · exact heff.memInv hmem

/-! ### The sizes of encodings and packets -/

/-- Induction over the groups of a COBS encoding: the last group, a group that a zero ends, and a 254-run
(41_cobs.md R470). -/
theorem cobs_induction {P : List Byte → Prop} (short : ∀ q, (0 : Byte) ∉ q → q.length < 254 → P q)
    (zero : ∀ q r, (0 : Byte) ∉ q → q.length < 254 → P r → P (q ++ 0 :: r))
    (run : ∀ q r, (0 : Byte) ∉ q → q.length = 254 → P r → P (q ++ r)) (s : List Byte) : P s := by
  induction hn : s.length using Nat.strong_induction_on generalizing s with
  | _ n ih =>
    subst hn
    obtain ⟨hq, hl⟩ | ⟨q, r, rfl, hq, hl⟩ | ⟨q, r, rfl, hq, hl⟩ := cobs_groups s
    · exact short s hq hl
    · exact zero q r hq hl (ih r.length (by simp; omega) r rfl)
    · exact run q r hq hl (ih r.length (by simp; omega) r rfl)

/-- One code byte for each group: the last one, those that a zero ends, and the 254-runs (41_cobs.md R470). -/
theorem cobsEnc_length (s : List Byte) : (cobsEnc s).length = s.length + 1 + fullRuns s := by
  induction s using cobs_induction with
  | short q hq hl => simp [cobsEnc_short hq hl, fullRuns_short hq hl]
  | zero q r hq hl ih =>
    rw [cobsEnc_zero hq hl, fullRuns_zero hq hl]
    simp only [List.length_cons, List.length_append]
    omega
  | run q r hq hl ih =>
    rw [cobsEnc_run hq hl, fullRuns_run hq hl]
    simp only [List.length_cons, List.length_append]
    omega

/-- Each 254-run takes 254 bytes of the sequence. -/
theorem fullRuns_le (s : List Byte) : fullRuns s ≤ s.length / 254 := by
  induction s using cobs_induction with
  | short q hq hl => simp [fullRuns_short hq hl]
  | zero q r hq hl ih => simp only [fullRuns_zero hq hl, List.length_append, List.length_cons]; omega
  | run q r hq hl ih => simp only [fullRuns_run hq hl, List.length_append, hl]; omega

/-- Settles O31: the length by induction over the groups; both bounds follow from `fullRuns_le`. -/
theorem encodedLength : Obligations.EncodedLength := by
  intro s
  have hlen := cobsEnc_length s
  have hruns := fullRuns_le s
  refine ⟨hlen, by omega, ?_⟩
  unfold cobsMaxOverhead
  omega

/-- A packet is the encoding of the frame and its four CRC bytes, and the delimiter (42_framer.md R542, R543). -/
theorem packetOf_length (frame : List Byte) :
    (packetOf frame).length = frame.length + 6 + fullRuns (frame ++ bytesBe32 (crc32 frame)) := by
  simp [packetOf, cobsEnc_length, bytesBe32]
  omega

theorem packetOf_length_le (frame : List Byte) :
    (packetOf frame).length ≤ frame.length + 6 + (frame.length + 4) / 254 := by
  have hruns := fullRuns_le (frame ++ bytesBe32 (crc32 frame))
  have hlen : (frame ++ bytesBe32 (crc32 frame)).length = frame.length + 4 := by simp [bytesBe32]
  rw [packetOf_length]
  rw [hlen] at hruns
  omega

/-- Settles O50: the length of an encoding at n + 4 bytes, and the bound on its 254-runs. -/
theorem packetSizeBounds : Obligations.PacketSizeBounds := by
  intro frame
  refine ⟨packetOf_length frame, packetOf_length_le frame, fun P hP => ?_⟩
  have hle := packetOf_length_le frame
  have hmono : (frame.length + 4) / 254 ≤ (maxFrameSize P + 4) / 254 := Nat.div_le_div_right (by omega)
  unfold packetBound maxPacketSize cobsMaxOverhead
  constructor
  · omega
  · omega

/-! ### The state after reset -/

/-- Settles O19: no context is active, no packet or delivery is open, no consumer is registered, no byte is listed, and
the launch parameters pass the check. -/
theorem invariantsHoldAtReset : Obligations.InvariantsHoldAtReset := by
  have henc : State.reset.encInv := fun h => EncState.noConfusion h
  have hrx : State.reset.rxInv := ⟨List.length_replicate, Nat.zero_le _, fun k hk => absurd hk (Nat.not_lt_zero k)⟩
  have hdelivery : State.reset.deliveryInv := fun h => Phase.noConfusion h
  have hconsumer : State.reset.consumerInv := ⟨fun h => Bool.noConfusion h, fun h => absurd rfl h⟩
  have hmem : State.reset.memInv := ⟨List.Pairwise.nil, fun _ h => absurd h List.not_mem_nil⟩
  exact ⟨henc, hrx, hdelivery, hconsumer, hmem, by decide⟩

/-! ### The host's accesses to the register file -/

/-- A 32-bit access at a register's offset reaches that register (10_state.md R130, R131). -/
theorem Reg.select_offset (r : Reg) : Reg.select r.offset 32 = some r := by
  cases r with
  | arg i => cases i <;> rfl
  | _ => rfl

theorem Reg.forRead_offset {r : Reg} (h : r.readable = true) : Reg.forRead r.offset 32 = some r := by
  simp [Reg.forRead, Reg.select_offset, h]

/-- A read of a readable register whose mark, if it has one, is set gives its value (10_state.md R131). -/
theorem perform_rd_value {s : State} (hf : s.fault = none) {r : Reg} (hr : r.readable = true)
    (hw : s.unwrittenFault r = none) :
    perform (.rd r.offset 32) s = .next { s with busData := .word (s.regValue r) } := by
  simp [perform, hf, hostRead, State.readReg, Reg.forRead_offset hr, hw]

/-- A read of a register whose mark is clear raises its fault (10_state.md R103, R104). -/
theorem perform_rd_unwritten {s : State} (hf : s.fault = none) {r : Reg} (hr : r.readable = true) {f : FaultReason}
    (hw : s.unwrittenFault r = some f) :
    perform (.rd r.offset 32) s = .next { s with fault := some f } := by
  simp [perform, hf, hostRead, State.readReg, Reg.forRead_offset hr, hw, raise]

theorem unwrittenFault_arg {s : State} {i : ArgIdx} (h : (s.arg i).written = true) :
    s.unwrittenFault (.arg i) = none := by
  simp [State.unwrittenFault, h]

/-- A read by offset gives a word or raises a fault, as `readReg` answers (10_state.md R131, R132). -/
theorem perform_rd {s : State} (hf : s.fault = none) (offset width : Nat) :
    (∃ v, s.readReg offset width = .ok v ∧ perform (.rd offset width) s = .next { s with busData := .word v }) ∨
    (∃ f, s.readReg offset width = .error f ∧ perform (.rd offset width) s = .next { s with fault := some f }) := by
  rw [perform, unlessFaulted_none hf, hostRead]
  cases h : s.readReg offset width with
  | ok v => exact .inl ⟨v, rfl, rfl⟩
  | error f => exact .inr ⟨f, rfl, rfl⟩

/-- A read by address that begins in the register file and has no window byte is the register read of its offset and
width (log 20). -/
theorem perform_memRd_registers {s : State} (hf : s.fault = none) {a : Word} {n offset : Nat} (hn : 0 < n)
    (ho : offset < 0x58) (ha : a.toNat = s.cfg.regBase + offset)
    (hw : ∀ k, k < n → s.inWindow (a.toNat + k) = false) :
    (∀ v, s.readReg offset (8 * n) = .ok v → perform (.memRd a n) s = .next { s with busData := .bytes (busBytes v) }) ∧
    (∀ f, s.readReg offset (8 * n) = .error f → perform (.memRd a n) s = .next { s with fault := some f }) := by
  have hreg : perform (.memRd a n) s = hostRegRead a.toNat n s := by
    rw [perform, unlessFaulted_none hf, hostMemRead, hostTarget_registers hn ho ha hw]
  have hoff : a.toNat - s.cfg.regBase = offset := by omega
  rw [hreg, hostRegRead, if_neg (by omega), hoff]
  exact ⟨fun v hv => by rw [hv], fun f hv => by rw [hv]; rfl⟩

/-- Settles O52: each register by its row of the map; a read by address through the same `readReg`. -/
theorem registerReadsReturnTheRegisters : Obligations.RegisterReadsReturnTheRegisters := by
  intro s hf
  have reads (r : Reg) (hr : r.readable = true) (hw : s.unwrittenFault r = none) := perform_rd_value hf hr hw
  have readsArg (i : ArgIdx) (hw : (s.arg i).written = true) := reads (.arg i) rfl (unwrittenFault_arg hw)
  refine ⟨fun hw => ?_, fun i hw => ?_, ?_, fun a n offset hn ho ha hwin => ?_⟩
  · exact perform_rd_unwritten (r := .result) hf rfl (by simp [State.unwrittenFault, hw])
  · exact perform_rd_unwritten (r := .arg i) hf rfl (by simp [State.unwrittenFault, hw])
  · exact ⟨reads .status rfl rfl, fun hw => reads .result rfl (by simp [State.unwrittenFault, hw]),
      readsArg .a0, readsArg .a1, readsArg .a2, readsArg .a3, readsArg .a4, readsArg .a5,
      reads .version rfl rfl, reads .cbHandle rfl rfl, reads .rxIndex rfl rfl,
      reads .encState rfl rfl, reads .encCode rfl rfl, reads .encCi rfl rfl,
      reads .encWi rfl rfl, reads .encOut rfl rfl, reads .encCap rfl rfl, reads .delivLen rfl rfl,
      reads .cfgMaxpkt rfl rfl, reads .cfgRxbase rfl rfl⟩
  · obtain ⟨hval, hfault⟩ := perform_memRd_registers hf hn ho ha hwin
    obtain ⟨v, hv, hrd⟩ | ⟨f, hv, hrd⟩ := perform_rd hf offset (8 * n)
    · simp [hrd, hval v hv, hf]
    · simp [hrd, hfault f hv, hf]

/-- A write of a writable register by offset passes the access checks (10_state.md R131). -/
theorem Reg.forWrite_offset {r : Reg} (h : r.writable = true) : Reg.forWrite r.offset 32 = some r := by
  simp [Reg.forWrite, Reg.select_offset, h]

theorem perform_wr_arg {s : State} (hf : s.fault = none) (i : ArgIdx) (v : Word) :
    perform (.wr (Reg.arg i).offset 32 v) s = .next (setArg i v s) := by
  rw [perform, unlessFaulted_none hf, hostWrite, Reg.forWrite_offset rfl]

theorem perform_wr_version {s : State} (hf : s.fault = none) (v : Word) :
    perform (.wr 0x24 32 v) s = .next { s with version := v.extractLsb' 0 8 } := by
  rw [show 0x24 = Reg.version.offset from rfl, perform, unlessFaulted_none hf, hostWrite, Reg.forWrite_offset rfl]

/-- A write by address that begins in the register file and has no window byte is the register write of its offset and
width (log 20). -/
theorem perform_memWr_registers {s : State} (hf : s.fault = none) {a : Word} {bs : List Byte} {offset : Nat}
    (hn : 0 < bs.length) (ho : offset < 0x58) (ha : a.toNat = s.cfg.regBase + offset)
    (hw : ∀ k, k < bs.length → s.inWindow (a.toNat + k) = false) :
    perform (.memWr a bs) s = perform (.wr offset (8 * bs.length) (busWord bs)) s := by
  simp only [perform, unlessFaulted_none hf]
  rw [hostMemWrite, hostTarget_registers hn ho ha hw]
  simp only [hostRegWrite]
  rw [if_neg (by omega), show a.toNat - s.cfg.regBase = offset by omega]

/-- Settles O55: each write by its row of the map; a write by address through the same `hostWrite`. -/
theorem registerWritesStore : Obligations.RegisterWritesStore := by
  intro s hf
  refine ⟨fun v i => ⟨_, perform_wr_arg hf i v, ?_, fun j hj => ?_, ?_⟩, perform_wr_version hf,
    fun a bs offset hbs ho ha hw => perform_memWr_registers hf (List.length_pos_of_ne_nil hbs) ho ha hw⟩
  · rw [setArg_arg, if_pos rfl]
  · rw [setArg_arg, if_neg hj]
  · cases i <;> rfl

end Sys2Proof.Machine
end

section
/-! Proofs about the state (10_state.md): which fields each command may change and how it ends, the invariants that every
step keeps, the registers that only the host writes, and the access rules of the register file. -/

namespace Sys2Proof.Machine

/-! ### What a command may change, and how it ends -/

/-- `s` with every field that the command may change as it is in `t`: the frame of the command (40_crc.md R410; 41_cobs.md
R451, R455, R460, R465, R480; 42_framer.md R510, R530, R540; 43_frame_builder.md R601). -/
def commandFrame (i : Instr) (s t : State) : State :=
  match i with
  | .crc32 => { s with result := t.result, resultWritten := t.resultWritten, code := t.code, fault := t.fault }
  | .cobsBegin => { s with enc := t.enc, mem := t.mem, draws := t.draws, code := t.code, fault := t.fault }
  | .cobsPut _ => { s with enc := t.enc, mem := t.mem, code := t.code, fault := t.fault }
  | .cobsEnd =>
    { s with
      enc := t.enc, mem := t.mem, result := t.result, resultWritten := t.resultWritten, code := t.code
      fault := t.fault }
  | .cobsEnc2 | .cobsDec | .frPkt | .fbBuild _ =>
    { s with
      mem := t.mem, result := t.result, resultWritten := t.resultWritten, code := t.code, fault := t.fault
      draws := t.draws }
  | .frByte _ =>
    { s with
      rxbuf := t.rxbuf, rxIndex := t.rxIndex, phase := t.phase, delivLen := t.delivLen, code := t.code
      fault := t.fault, draws := t.draws }
  | .frReg => { s with cbHandle := t.cbHandle, cbValid := t.cbValid, code := t.code, fault := t.fault }

/-- The commands that give RESULT when they complete OK (10_state.md R104, R120). -/
def hasResult : Instr → Bool
  | .crc32 | .cobsEnd | .cobsEnc2 | .cobsDec | .frPkt | .fbBuild _ => true
  | .cobsBegin | .cobsPut _ | .frByte _ | .frReg => false

/-- An idle framer with a consumer has handed the decoded packet over (42_framer.md R512, R520). -/
def HandedOver (s t : State) : Prop :=
  s.phase = .idle ∧ s.cbValid = true ∧ ∃ buf w, cobsDecode s.rxbuf s.rxIndex = some (buf, w) ∧ 4 ≤ w ∧
    t = handOver (w - 4) { s with rxIndex := 0, rxbuf := buf }

/-- How a command ends: with a fault, with a status, with OK and a result, or open in a delivery (10_state.md R107, R120;
60_exceptions.md R702, R720). -/
inductive Ends (i : Instr) (s t : State) : Prop where
  | raised (h : Raised s t)
  | completed (hcode : t.code ∈ commandStatuses i) (hfault : t.fault = none) (hresult : t.result = s.result)
      (hmark : t.resultWritten = s.resultWritten) (hphase : t.phase = s.phase)
  | gaveResult (hi : hasResult i = true) (hcode : t.code = .ok) (hfault : t.fault = none)
      (hmark : t.resultWritten = true) (hphase : t.phase = s.phase)
  | handedOver (hi : i = .frByte 0) (hfault : t.fault = none) (h : HandedOver s t)

section Commands
variable {s t : State}

theorem execCrc32_frame_ends (h : execCrc32 s = .next t) : t = commandFrame .crc32 s t ∧ Ends .crc32 s t := by
  obtain ⟨hf, ⟨r, rfl⟩ | ⟨-, rfl | ⟨-, rfl⟩⟩⟩ := execCrc32_cases h
  · exact ⟨rfl, .raised ⟨r, rfl⟩⟩
  · exact ⟨rfl, .completed (by simp [commandStatuses]) hf rfl rfl rfl⟩
  · exact ⟨rfl, .gaveResult rfl rfl hf rfl rfl⟩

theorem execCobsBegin_frame_ends (h : execCobsBegin s = .next t) :
    t = commandFrame .cobsBegin s t ∧ Ends .cobsBegin s t := by
  obtain ⟨hf, ⟨r, rfl⟩ | ⟨-, rfl | ⟨-, -, -, rfl⟩⟩⟩ := execCobsBegin_cases h
  · exact ⟨rfl, .raised ⟨r, rfl⟩⟩
  · exact ⟨rfl, .completed (by simp [commandStatuses]) hf rfl rfl rfl⟩
  · exact ⟨rfl, .completed (by simp [commandStatuses]) hf rfl rfl rfl⟩

theorem execCobsPut_frame_ends {b : Byte} (h : execCobsPut b s = .next t) :
    t = commandFrame (.cobsPut b) s t ∧ Ends (.cobsPut b) s t := by
  obtain ⟨hf, ⟨-, rfl⟩ | ⟨-, rfl⟩⟩ := execCobsPut_cases h
  · exact ⟨rfl, .completed (by simp [commandStatuses]) hf rfl rfl rfl⟩
  · exact ⟨rfl, .completed (by cases (encPut s.enc s.mem b).ok <;> simp [commandStatuses]) hf rfl rfl rfl⟩

theorem execCobsEnd_frame_ends (h : execCobsEnd s = .next t) : t = commandFrame .cobsEnd s t ∧ Ends .cobsEnd s t := by
  obtain ⟨hf, ⟨-, rfl⟩ | ⟨-, rfl⟩⟩ := execCobsEnd_cases h
  · exact ⟨rfl, .completed (by simp [commandStatuses]) hf rfl rfl rfl⟩
  · exact ⟨rfl, .gaveResult rfl rfl hf rfl rfl⟩

theorem execCobsEnc2_frame_ends (h : execCobsEnc2 s = .next t) : t = commandFrame .cobsEnc2 s t ∧ Ends .cobsEnc2 s t := by
  obtain ⟨hf, ⟨r, rfl⟩ | ⟨-, rfl | ⟨-, -, -, ⟨len, u, he, rfl⟩ | rfl⟩⟩⟩ := execCobsEnc2_cases h
  · exact ⟨rfl, .raised ⟨r, rfl⟩⟩
  · exact ⟨rfl, .completed (by simp [commandStatuses]) hf rfl rfl rfl⟩
  · obtain ⟨m, rfl, -⟩ := encodeSpan_some he
    exact ⟨rfl, .gaveResult rfl rfl hf rfl rfl⟩
  · exact ⟨rfl, .completed (by simp [commandStatuses]) hf rfl rfl rfl⟩

theorem execCobsDec_frame_ends (h : execCobsDec s = .next t) : t = commandFrame .cobsDec s t ∧ Ends .cobsDec s t := by
  obtain ⟨hf, ⟨r, rfl⟩ | ⟨-, rfl | rfl | ⟨-, ⟨buf, w, -, rfl⟩ | rfl⟩⟩⟩ := execCobsDec_cases h
  · exact ⟨rfl, .raised ⟨r, rfl⟩⟩
  · exact ⟨rfl, .completed (by simp [commandStatuses]) hf rfl rfl rfl⟩
  · exact ⟨rfl, .completed (by simp [commandStatuses]) hf rfl rfl rfl⟩
  · exact ⟨rfl, .gaveResult rfl rfl hf rfl rfl⟩
  · exact ⟨rfl, .completed (by simp [commandStatuses]) hf rfl rfl rfl⟩

theorem execFrPkt_frame_ends (h : execFrPkt s = .next t) : t = commandFrame .frPkt s t ∧ Ends .frPkt s t := by
  obtain ⟨hf, ⟨r, rfl⟩ | ⟨-, rfl | ⟨-, -, -, ⟨len, u, he, rfl⟩ | rfl⟩⟩⟩ := execFrPkt_cases h
  · exact ⟨rfl, .raised ⟨r, rfl⟩⟩
  · exact ⟨rfl, .completed (by simp [commandStatuses]) hf rfl rfl rfl⟩
  · obtain ⟨m, rfl, -⟩ := encodeSpan_some he
    exact ⟨rfl, .gaveResult rfl rfl hf rfl rfl⟩
  · exact ⟨rfl, .completed (by simp [commandStatuses]) hf rfl rfl rfl⟩

theorem execFrByte_frame_ends {b : Byte} (h : execFrByte b s = .next t) :
    t = commandFrame (.frByte b) s t ∧ Ends (.frByte b) s t := by
  obtain ⟨hf, ⟨-, r, rfl⟩ | ⟨hp, ⟨rfl, hd⟩ | ⟨hb, -, rfl⟩ | ⟨hb, -, rfl⟩⟩⟩ := execFrByte_cases h
  · exact ⟨rfl, .raised ⟨r, rfl⟩⟩
  · obtain ⟨-, rfl⟩ | ⟨-, ⟨c, hc, rfl⟩ | ⟨buf, w, hdec, hw, ⟨hv, rfl⟩ | ⟨-, rfl⟩⟩⟩ := frDelimiter_cases hd
    · exact ⟨rfl, .completed (by simp [commandStatuses]) hf rfl rfl rfl⟩
    · exact ⟨rfl, .completed (by simp [commandStatuses] at hc ⊢; tauto) hf rfl rfl rfl⟩
    · exact ⟨rfl, .handedOver rfl hf ⟨hp, hv, buf, w, hdec, hw, rfl⟩⟩
    · exact ⟨rfl, .completed (by simp [commandStatuses]) hf rfl rfl rfl⟩
  · exact ⟨rfl, .completed (by rw [commandStatuses, if_neg hb]; simp) hf rfl rfl rfl⟩
  · exact ⟨rfl, .completed (by rw [commandStatuses, if_neg hb]; simp) hf rfl rfl rfl⟩

theorem execFrReg_frame_ends (h : execFrReg s = .next t) : t = commandFrame .frReg s t ∧ Ends .frReg s t := by
  obtain ⟨hf, ⟨r, rfl⟩ | ⟨-, -, rfl | ⟨-, rfl⟩⟩⟩ := execFrReg_cases h
  · exact ⟨rfl, .raised ⟨r, rfl⟩⟩
  · exact ⟨rfl, .completed (by simp [commandStatuses]) hf rfl rfl rfl⟩
  · exact ⟨rfl, .completed (by simp [commandStatuses]) hf rfl rfl rfl⟩

theorem execFbBuild_frame_ends {id : Byte} (h : execFbBuild id s = .next t) :
    t = commandFrame (.fbBuild id) s t ∧ Ends (.fbBuild id) s t := by
  obtain ⟨hf, ⟨r, rfl⟩ | ⟨-, rfl | ⟨-, -, rfl⟩⟩⟩ := execFbBuild_cases h
  · exact ⟨rfl, .raised ⟨r, rfl⟩⟩
  · exact ⟨rfl, .completed (by simp [commandStatuses]) hf rfl rfl rfl⟩
  · exact ⟨rfl, .gaveResult rfl rfl hf rfl rfl⟩

/-- Every command changes at most the fields of its frame, and ends in one of the four ways. -/
theorem exec_frame_ends {i : Instr} (h : exec i s = .next t) : t = commandFrame i s t ∧ Ends i s t := by
  cases i with
  | crc32 => exact execCrc32_frame_ends h
  | cobsBegin => exact execCobsBegin_frame_ends h
  | cobsPut b => exact execCobsPut_frame_ends h
  | cobsEnd => exact execCobsEnd_frame_ends h
  | cobsEnc2 => exact execCobsEnc2_frame_ends h
  | cobsDec => exact execCobsDec_frame_ends h
  | frPkt => exact execFrPkt_frame_ends h
  | frByte b => exact execFrByte_frame_ends h
  | frReg => exact execFrReg_frame_ends h
  | fbBuild id => exact execFbBuild_frame_ends h

end Commands

section Exec
variable {i : Instr} {s t : State} (h : exec i s = .next t)
include h

/-- The command changes at most the fields of its frame. -/
theorem exec_frame : t = commandFrame i s t := (exec_frame_ends h).1

theorem exec_ends : Ends i s t := (exec_frame_ends h).2

/-- What only the host writes is in no command's frame (10_state.md R101, R112, R142). -/
theorem exec_keepsHost :
    (∀ j, t.arg j = s.arg j) ∧ t.version = s.version ∧ t.cfg = s.cfg ∧ t.hostOps = s.hostOps ∧ t.busData = s.busData := by
  rw [exec_frame h]
  cases i <;> exact ⟨fun _ => rfl, rfl, rfl, rfl, rfl⟩

theorem exec_cfg : t.cfg = s.cfg := by
  obtain ⟨-, -, hcfg, -⟩ := exec_keepsHost h
  exact hcfg

/-- PHASE changes by the handover only (10_state.md R111). -/
theorem exec_phase : t.phase = s.phase ∨ (i = .frByte 0 ∧ HandedOver s t) := by
  cases exec_ends h with
  | raised hr => obtain ⟨r, rfl⟩ := hr; exact .inl rfl
  | completed _ _ _ _ hp => exact .inl hp
  | gaveResult _ _ _ _ hp => exact .inl hp
  | handedOver hi _ ht => exact .inr ⟨hi, ht⟩

end Exec

/-- OK is a status of every command with a result (60_exceptions.md R702). -/
theorem ok_mem_commandStatuses {i : Instr} (h : hasResult i = true) : Status.ok ∈ commandStatuses i := by
  cases i <;> simp_all [hasResult, commandStatuses]

/-- Settles O9: none of these fields is in a command's frame. -/
theorem commandsKeepTheHostsRegisters : Obligations.CommandsKeepTheHostsRegisters := by
  intro i s t h
  exact exec_keepsHost h

/-- Settles O10: of the four ways a command ends, only OK with a result writes RESULT. -/
theorem resultChangesOnlyOnSuccess : Obligations.ResultChangesOnlyOnSuccess := by
  intro i s t h hchange
  cases exec_ends h with
  | raised hr => obtain ⟨r, rfl⟩ := hr; simp at hchange
  | completed _ _ hresult hmark _ => simp [hresult, hmark] at hchange
  | gaveResult hi hcode hfault hmark _ =>
    refine ⟨hcode, hmark, hfault, ?_, fun b => ?_, fun b => ?_, ?_⟩ <;> rintro rfl <;> cases hi
  | handedOver _ _ ht => obtain ⟨-, -, buf, w, -, -, rfl⟩ := ht; simp at hchange

/-- Settles O11: a command that raises no fault has completed, with or without a result, or has handed a frame over. -/
theorem commandsCompleteWithTheirStatuses : Obligations.CommandsCompleteWithTheirStatuses := by
  intro i s t h hf
  cases exec_ends h with
  | raised hr => obtain ⟨r, rfl⟩ := hr; cases hf
  | completed hcode => exact .inl hcode
  | gaveResult hi hcode => exact .inl (hcode ▸ ok_mem_commandStatuses hi)
  | handedOver hi _ ht =>
    obtain ⟨hidle, -, buf, w, -, -, rfl⟩ := ht
    exact .inr ⟨hi, hidle, rfl, rfl⟩

/-- A store into the span leaves every byte outside it. -/
theorem StoredInto.read_misses {p : Span} {s t : State} (h : StoredInto p s t) {a : Nat} (ha : p.misses a) :
    t.mem.read a = s.mem.read a := by
  obtain hm | ⟨-, hread, -⟩ := h
  · rw [hm]
  · exact hread a ha

/-- Settles O60: the frame of each command, and its stores lie in its output span. -/
theorem frameOfCommandsThatStoreIntoASpan : Obligations.FrameOfCommandsThatStoreIntoASpan := by
  rintro i s t out (rfl | rfl | rfl | ⟨id, rfl⟩) hout h <;> cases hout
  · exact ⟨exec_frame h, fun a ha => (execCobsEnc2_storedInto h).2.read_misses ha⟩
  · exact ⟨exec_frame h, fun a ha => (execCobsDec_storedInto h).2.read_misses ha⟩
  · exact ⟨exec_frame h, fun a ha => (execFrPkt_storedInto h).2.read_misses ha⟩
  · exact ⟨exec_frame h, fun a ha => (execFbBuild_storedInto h).2.read_misses ha⟩

/-! ### What every step keeps -/

/-- A host operation that issues no command changes at most the argument registers, VERSION, STATUS.CODE, PHASE, FAULT,
memory and the host's own fields (10_state.md R131). -/
theorem HostEffect.frame {op : HostOp} {u t : State} (h : HostEffect op u t) :
    t = { u with
          a0 := t.a0, a1 := t.a1, a2 := t.a2, a3 := t.a3, a4 := t.a4, a5 := t.a5, version := t.version, code := t.code
          phase := t.phase, fault := t.fault, mem := t.mem, hostOps := t.hostOps, busData := t.busData } := by
  cases h with
  | raised h => obtain ⟨r, rfl⟩ := h; rfl
  | wroteArg i v _ h => subst h; cases i <;> rfl
  | wroteVersion v _ h => subst h; rfl
  | acknowledged v c _ _ h => subst h; rfl
  | hasRead d ops h => subst h; rfl
  | stored a bs _ h => subst h; rfl

section
variable {op : HostOp} {u t : State} (h : HostEffect op u t)
include h

theorem HostEffect.cfg : t.cfg = u.cfg := by rw [h.frame]

theorem HostEffect.enc : t.enc = u.enc := by rw [h.frame]

theorem HostEffect.receiver : t.rxIndex = u.rxIndex ∧ t.rxbuf = u.rxbuf ∧ t.delivLen = u.delivLen := by
  rw [h.frame]
  exact ⟨rfl, rfl, rfl⟩

theorem HostEffect.consumer : t.cbValid = u.cbValid ∧ t.cbHandle = u.cbHandle := by
  rw [h.frame]
  exact ⟨rfl, rfl⟩

end

/-- PHASE changes by the acknowledgement only (10_state.md R111). -/
theorem HostEffect.phase {op : HostOp} {u t : State} (h : HostEffect op u t) :
    t.phase = u.phase ∨ (u.phase = .delivering ∧ t.phase = .idle ∧ ∃ v, u.writesWord op 0x4C v) := by
  cases h with
  | raised h => obtain ⟨r, rfl⟩ := h; exact .inl rfl
  | wroteArg i v _ h => subst h; exact .inl (setArg_phase i v u)
  | wroteVersion v _ h => subst h; exact .inl rfl
  | acknowledged v c hop hp h => subst h; exact .inr ⟨hp, rfl, v, hop⟩
  | hasRead d ops h => subst h; exact .inl rfl
  | stored a bs _ h => subst h; exact .inl rfl

/-- The case split of a step, done once: a property that the list of operations does not enter and that reset, every command
and the host's other operations keep is kept by every step. -/
theorem step_keeps {P : State → Prop} (hops : ∀ s ops, P s → P { s with hostOps := ops })
    (hreset : ∀ s, P s → P (hostReset s)) (hexec : ∀ i s t, P s → exec i s = .next t → P t)
    (hhost : ∀ op u t, P u → HostEffect op u t → P t) {s t : State} (hs : P s) (h : step s = .next t) : P t := by
  obtain ⟨-, rfl⟩ | ⟨op, rest, -, ⟨-, rfl⟩ | ⟨-, ⟨w, i, -, -, hx⟩ | heff⟩⟩ := step_cases h
  · exact hs
  · exact hreset _ (hops s rest hs)
  · exact hexec i _ t (hops s rest hs) hx
  · exact hhost op _ t (hops s rest hs) heff

/-! ### The encoder context -/

theorem writableSpan_congr {s t : State} (h : t.cfg = s.cfg) {p : Span} (hw : s.writableSpan p) : t.writableSpan p :=
  ⟨hw.1, fun k hk => (inHostMem_congr h _).trans (hw.2 k hk)⟩

/-- The context's invariant depends on ENC and the construction constants only. -/
theorem State.encInv.congr {s t : State} (hs : s.encInv) (hcfg : t.cfg = s.cfg) (henc : t.enc = s.enc) : t.encInv := by
  unfold State.encInv at hs ⊢
  rw [henc]
  exact fun ha => (hs ha).imp_right (writableSpan_congr hcfg)

/-- EncFlush that leaves the context Active leaves it good, since a slot was left (41_cobs.md R450). -/
theorem encFlush_good {e : Enc} {m : Memory} (ha : (encFlush e m).enc.state = .active) : (encFlush e m).enc.good := by
  rcases Nat.lt_or_ge e.wi.toNat e.cap.toNat with hlt | hle
  · rw [encFlush_room hlt]
    have hwi : (e.wi + 1).toNat = e.wi.toNat + 1 := by bv_omega
    refine ⟨by simp, by simp, ?_, ?_, ?_⟩
    · show e.wi.toNat < (e.wi + 1).toNat
      omega
    · show (e.wi + 1).toNat ≤ e.cap.toNat
      omega
    · show (e.wi + 1).toNat - e.wi.toNat - 1 = 0
      omega
  · rw [encFlush_full hle] at ha; cases ha

/-- EncPut that leaves a good context Active leaves it good (10_state.md R117, 41_cobs.md R450). -/
theorem encPut_good {e : Enc} {m : Memory} {b : Byte} (hstate : e.state = .active) (he : e.good)
    (ha : (encPut e m b).enc.state = .active) : (encPut e m b).enc.good := by
  obtain rfl | hb := eq_or_ne b 0
  · rw [encPut_flush hstate] at ha ⊢
    exact encFlush_good ha
  rcases Nat.lt_or_ge e.wi.toNat e.cap.toNat with hlt | hle
  · by_cases hc : e.code + 1 = 0xFF
    · rw [encPut_run hstate hb hlt hc] at ha ⊢
      exact encFlush_good ha
    · rw [encPut_data hstate hb hlt hc]
      obtain ⟨hcode, hmax, hci, hwi, hopen⟩ := he
      have hwi1 : (e.wi + 1).toNat = e.wi.toNat + 1 := by bv_omega
      have hcode1 : (e.code + 1).toNat = e.code.toNat + 1 := by bv_omega
      have hmax1 : e.code.toNat + 1 ≠ 0xFF := fun heq => hc (BitVec.eq_of_toNat_eq (hcode1.trans heq))
      refine ⟨?_, ?_, ?_, ?_, ?_⟩ <;> simp only [hwi1, hcode1] <;> omega
  · rw [encPut_full hstate hb hle] at ha; cases ha

section
variable {s t : State}

/-- COBS.BEGIN leaves the context Failed, or at the start of an admitted span of at least one byte (41_cobs.md R451). -/
theorem execCobsBegin_encInv (hs : s.encInv) (h : execCobsBegin s = .next t) : t.encInv := by
  obtain ⟨-, ⟨r, rfl⟩ | ⟨-, rfl | ⟨-, hcap, hw, rfl⟩⟩⟩ := execCobsBegin_cases h
  · exact hs
  · exact fun ha => by cases ha
  · have hpos := BitVec.toNat_pos_of_ne_zero hcap
    have hgood : Enc.good ⟨.active, s.a0.value, s.a1.value, 0, 1, 1⟩ := ⟨le_rfl, by simp, Nat.one_pos, hpos, rfl⟩
    exact fun _ => ⟨hgood, hw⟩

theorem execCobsPut_encInv {b : Byte} (hs : s.encInv) (h : execCobsPut b s = .next t) : t.encInv := by
  obtain ⟨-, ⟨-, rfl⟩ | ⟨hstate, rfl⟩⟩ := execCobsPut_cases h
  · exact hs
  · obtain ⟨hgood, hw⟩ := hs hstate
    intro ha
    refine ⟨encPut_good hstate hgood ha, ?_⟩
    show s.writableSpan ⟨(encPut s.enc s.mem b).enc.out, (encPut s.enc s.mem b).enc.cap⟩
    rwa [encPut_out, encPut_cap]

/-- COBS.END leaves the context Idle (41_cobs.md R460). -/
theorem execCobsEnd_encInv (hs : s.encInv) (h : execCobsEnd s = .next t) : t.encInv := by
  obtain ⟨-, ⟨-, rfl⟩ | ⟨-, rfl⟩⟩ := execCobsEnd_cases h
  · exact hs
  · exact fun ha => by cases ha

/-- ENC is in the frame of the incremental encoder's commands only. -/
theorem exec_encInv {i : Instr} (hs : s.encInv) (h : exec i s = .next t) : t.encInv := by
  have hframe := congrArg State.enc (exec_frame h)
  cases i with
  | cobsBegin => exact execCobsBegin_encInv hs h
  | cobsPut b => exact execCobsPut_encInv hs h
  | cobsEnd => exact execCobsEnd_encInv hs h
  | crc32 | cobsEnc2 | cobsDec | frPkt | frByte b | frReg | fbBuild id => exact hs.congr (exec_cfg h) hframe

end

/-- Settles O15: commands by `exec_encInv`; no other host operation but reset changes ENC. -/
theorem encoderContextInvariantIsKept : Obligations.EncoderContextInvariantIsKept := by
  intro s t
  exact step_keeps (P := State.encInv) (fun _ _ hs => hs) (fun _ _ ha => by cases ha) (fun _ _ _ => exec_encInv)
    fun _ _ _ hu heff => hu.congr heff.cfg heff.enc

/-! ### The receive buffer, the delivery and the registration -/

theorem State.rxInv.congr {s t : State} (hs : s.rxInv) (hcfg : t.cfg = s.cfg) (hidx : t.rxIndex = s.rxIndex)
    (hbuf : t.rxbuf = s.rxbuf) : t.rxInv := by
  unfold State.rxInv at hs ⊢
  rwa [hcfg, hidx, hbuf]

/-- An empty receive buffer of the right size. -/
theorem rxInv_of_empty {s : State} (hidx : s.rxIndex = 0) (hlen : s.rxbuf.length = s.cfg.maxPacketSize) : s.rxInv :=
  ⟨hlen, hidx ▸ Nat.zero_le _, fun k hk => absurd (hidx ▸ hk) (Nat.not_lt_zero k)⟩

/-- A delimiter keeps RXBUF as it is, scrambles it or decodes it in place, and resets RX_INDEX (42_framer.md R512, R513). -/
theorem frDelimiter_rxInv {s t : State} (hs : s.rxInv) (h : frDelimiter s = .next t) : t.rxInv := by
  obtain ⟨-, rfl⟩ | ⟨-, ⟨c, -, rfl⟩ | ⟨buf, w, hd, -, hdone⟩⟩ := frDelimiter_cases h
  · exact hs
  · exact rxInv_of_empty rfl (freeBytes_length _ _)
  · have hlen := (cobsDecode_buf_length hd).trans hs.1
    obtain ⟨-, rfl⟩ | ⟨-, rfl⟩ := hdone
    · exact rxInv_of_empty rfl hlen
    · exact rxInv_of_empty rfl hlen

theorem execFrByte_rxInv {b : Byte} {s t : State} (hs : s.rxInv) (h : execFrByte b s = .next t) : t.rxInv := by
  obtain ⟨-, ⟨-, r, rfl⟩ | ⟨-, ⟨-, hd⟩ | ⟨-, -, rfl⟩ | ⟨hb, hroom, rfl⟩⟩⟩ := execFrByte_cases h
  · exact hs
  · exact frDelimiter_rxInv hs hd
  · exact rxInv_of_empty rfl hs.1
  · obtain ⟨hlen, hle, hnonzero⟩ := hs
    refine ⟨(List.length_set ..).trans hlen, Nat.lt_of_le_of_ne hle hroom, fun k hk => ?_⟩
    show (s.rxbuf.set s.rxIndex b).getD k 0 ≠ 0
    obtain rfl | hlt := Nat.eq_or_lt_of_le (Nat.le_of_lt_succ hk)
    · rw [List.getD_eq_getElem?_getD, List.getElem?_set_self (by omega)]
      exact hb
    · rw [List.getD_eq_getElem?_getD, List.getElem?_set_ne (by omega), ← List.getD_eq_getElem?_getD]
      exact hnonzero k hlt

theorem exec_rxInv {i : Instr} {s t : State} (hs : s.rxInv) (h : exec i s = .next t) : t.rxInv := by
  have hidx := congrArg State.rxIndex (exec_frame h)
  have hbuf := congrArg State.rxbuf (exec_frame h)
  cases i with
  | frByte b => exact execFrByte_rxInv hs h
  | crc32 | cobsBegin | cobsPut b | cobsEnd | cobsEnc2 | cobsDec | frPkt | frReg | fbBuild id =>
    exact hs.congr (exec_cfg h) hidx hbuf

theorem HostEffect.rxInv {op : HostOp} {u t : State} (heff : HostEffect op u t) (hu : u.rxInv) : t.rxInv := by
  obtain ⟨hidx, hbuf, -⟩ := heff.receiver
  exact hu.congr heff.cfg hidx hbuf

theorem hostReset_rxInv (s : State) : (hostReset s).rxInv := rxInv_of_empty rfl List.length_replicate

/-- Settles O16: of the commands only FR.BYTE writes the receive buffer; reset empties it. -/
theorem receiveBufferInvariantIsKept : Obligations.ReceiveBufferInvariantIsKept := by
  intro s t
  exact step_keeps (P := State.rxInv) (fun _ _ hs => hs) (fun s _ => hostReset_rxInv s) (fun _ _ _ => exec_rxInv)
    fun _ _ _ hu heff => heff.rxInv hu

/-- The data bytes of a group take as many steps of the read index as of the write index (41_cobs.md R475). -/
theorem decodeGroup_indices {n k : Nat} {d d' : Dec} (h : decodeGroup n k d = some d') (hr : d.r ≤ n) :
    d'.r ≤ n ∧ d'.w + d.r = d.w + d'.r := by
  induction k generalizing d with
  | zero => cases h; exact ⟨hr, rfl⟩
  | succ k ih =>
    simp only [decodeGroup] at h
    split at h
    · cases h
    split at h
    · cases h
    · obtain ⟨hle, heq⟩ := ih h (by show d.r + 1 ≤ n; omega)
      simp only [Dec.emit] at heq
      exact ⟨hle, by omega⟩

/-- The write index stays at or below the read index, and below it once the input is used up: every group reads a code
byte it does not write (41_cobs.md R475). -/
theorem decodeLoop_w_lt {n fuel : Nat} {d d' : Dec} (h : decodeLoop n fuel d = some d') (hr : d.r ≤ n) (hw : d.w ≤ d.r)
    (hend : d.r = n → d.w < n) : d'.w < n := by
  induction fuel generalizing d with
  | zero =>
    simp only [decodeLoop] at h
    split at h <;> cases h
    exact hend (by omega)
  | succ fuel ih =>
    simp only [decodeLoop] at h
    split at h
    · split at h
      · cases h
      · obtain ⟨g, hg, hl⟩ := Option.bind_eq_some_iff.1 h
        obtain ⟨hgr, hgw⟩ := decodeGroup_indices hg (by show d.r + 1 ≤ n; omega)
        dsimp only at hgw
        split at hl
        · exact ih hl hgr (by simp only [Dec.emit]; omega) (by simp only [Dec.emit]; omega)
        · exact ih hl hgr (by omega) (by omega)
    · cases h
      exact hend (by omega)

/-- A decoding is shorter than its input (41_cobs.md R475). -/
theorem cobsDecode_length_lt {buf out : List Byte} {n w : Nat} (h : cobsDecode buf n = some (out, w)) : w < n := by
  unfold cobsDecode at h
  split at h
  · cases h
  · obtain ⟨d, hd, he⟩ := Option.map_eq_some_iff.1 h
    cases he
    exact decodeLoop_w_lt hd (Nat.zero_le n) le_rfl (fun h0 => by dsimp only at h0; omega)

/-- The frame handed over and its CRC came from a packet that fitted RXBUF (42_framer.md R512, R520). -/
theorem HandedOver.deliveryInv {s t : State} (h : HandedOver s t) (hrx : s.rxInv) : t.deliveryInv := by
  obtain ⟨-, hv, buf, w, hd, hw, rfl⟩ := h
  obtain ⟨-, hle, -⟩ := hrx
  have hlt := cobsDecode_length_lt hd
  have hmod := Nat.mod_le (w - 4) (2 ^ 32)
  refine fun _ => ⟨rfl, hv, ?_⟩
  show (BitVec.ofNat 32 (w - 4)).toNat + 5 ≤ s.cfg.maxPacketSize
  rw [BitVec.toNat_ofNat]
  omega

theorem State.deliveryInv.congr {s t : State} (hs : s.deliveryInv) (hcfg : t.cfg = s.cfg) (hidx : t.rxIndex = s.rxIndex)
    (hv : t.cbValid = s.cbValid) (hlen : t.delivLen = s.delivLen) (hp : t.phase = .delivering → s.phase = .delivering) :
    t.deliveryInv := by
  intro ht
  rw [hcfg, hidx, hv, hlen]
  exact hs (hp ht)

/-- During a delivery FR.BYTE and FR.REG only raise a fault, and no other command touches the framer (42_framer.md R523,
30_encoding.md R307). -/
theorem exec_delivering {i : Instr} {s t : State} (h : exec i s = .next t) (hp : s.phase = .delivering) :
    t.rxIndex = s.rxIndex ∧ t.cbValid = s.cbValid ∧ t.delivLen = s.delivLen := by
  have hidx := congrArg State.rxIndex (exec_frame h)
  have hv := congrArg State.cbValid (exec_frame h)
  have hlen := congrArg State.delivLen (exec_frame h)
  cases i with
  | frByte b =>
    obtain ⟨-, ⟨-, r, rfl⟩ | ⟨hidle, -⟩⟩ := execFrByte_cases h
    · exact ⟨rfl, rfl, rfl⟩
    · rw [hp] at hidle; cases hidle
  | frReg =>
    obtain ⟨-, ⟨r, rfl⟩ | ⟨hidle, -⟩⟩ := execFrReg_cases h
    · exact ⟨rfl, rfl, rfl⟩
    · rw [hp] at hidle; cases hidle
  | crc32 | cobsBegin | cobsPut b | cobsEnd | cobsEnc2 | cobsDec | frPkt | fbBuild id => exact ⟨hidx, hv, hlen⟩

theorem exec_deliveryInv {i : Instr} {s t : State} (hrx : s.rxInv) (hs : s.deliveryInv) (h : exec i s = .next t) :
    t.deliveryInv := by
  obtain hp | ⟨-, hover⟩ := exec_phase h
  · intro ht
    have hdeliv : s.phase = .delivering := hp ▸ ht
    obtain ⟨hidx, hv, hlen⟩ := exec_delivering h hdeliv
    exact hs.congr (exec_cfg h) hidx hv hlen (fun _ => hdeliv) ht
  · exact hover.deliveryInv hrx

/-- No host operation but a command starts a delivery. -/
theorem HostEffect.deliveryInv {op : HostOp} {u t : State} (heff : HostEffect op u t) (hu : u.deliveryInv) :
    t.deliveryInv := by
  obtain ⟨hidx, -, hlen⟩ := heff.receiver
  refine hu.congr heff.cfg hidx heff.consumer.1 hlen fun ht => ?_
  obtain hp | ⟨hp, -⟩ := heff.phase
  · exact hp ▸ ht
  · exact hp

theorem State.consumerInv.congr {s t : State} (hs : s.consumerInv) (hv : t.cbValid = s.cbValid)
    (hh : t.cbHandle = s.cbHandle) : t.consumerInv := by
  unfold State.consumerInv at hs ⊢
  rwa [hv, hh]

/-- FR.REG sets CB_VALID with a non-zero handle, and no other command writes either (42_framer.md R530). -/
theorem exec_consumerInv {i : Instr} {s t : State} (hs : s.consumerInv) (h : exec i s = .next t) : t.consumerInv := by
  have hv := congrArg State.cbValid (exec_frame h)
  have hh := congrArg State.cbHandle (exec_frame h)
  cases i with
  | frReg =>
    obtain ⟨-, ⟨r, rfl⟩ | ⟨-, -, rfl | ⟨hne, rfl⟩⟩⟩ := execFrReg_cases h
    · exact hs
    · exact hs
    · exact ⟨fun _ => hne, fun _ => rfl⟩
  | crc32 | cobsBegin | cobsPut b | cobsEnd | cobsEnc2 | cobsDec | frPkt | frByte b | fbBuild id => exact hs.congr hv hh

/-- Settles O17: the registration changes by FR.REG and reset, a delivery begins by the handover; the delivery's invariant
is carried together with the receive buffer's. -/
theorem deliveryAndRegistrationInvariantsAreKept : Obligations.DeliveryAndRegistrationInvariantsAreKept := by
  intro s t h
  constructor
  · intro hs
    have hreset (s : State) : (hostReset s).consumerInv := ⟨fun hv => Bool.noConfusion hv, fun hne => absurd rfl hne⟩
    exact step_keeps (P := State.consumerInv) (fun _ _ hs => hs) (fun s _ => hreset s) (fun _ _ _ => exec_consumerInv)
      (fun _ _ _ hu heff => hu.congr heff.consumer.1 heff.consumer.2) hs h
  · intro hrx hs
    have hreset (s : State) : (hostReset s).deliveryInv := fun hp => by cases hp
    exact (step_keeps (P := fun s => s.rxInv ∧ s.deliveryInv) (fun _ _ hs => hs)
      (fun s _ => ⟨hostReset_rxInv s, hreset s⟩)
      (fun _ _ _ hs hx => ⟨exec_rxInv hs.1 hx, exec_deliveryInv hs.1 hs.2 hx⟩)
      (fun _ _ _ hu heff => ⟨heff.rxInv hu.1, heff.deliveryInv hu.2⟩) ⟨hrx, hs⟩ h).2

/-! ### PHASE and the construction constants -/

/-- Settles O20: the constants are in no frame; the two registers read them. -/
theorem constructionConstantsNeverChange : Obligations.ConstructionConstantsNeverChange := by
  refine ⟨fun s t h => ?_, fun s hf => ⟨?_, ?_⟩⟩
  · exact step_keeps (P := fun u => u.cfg = s.cfg) (fun _ _ hs => hs) (fun _ hs => hs)
      (fun _ _ _ hs hx => (exec_cfg hx).trans hs) (fun _ _ _ hu heff => heff.cfg.trans hu) rfl h
  · exact perform_rd_value (r := .cfgMaxpkt) hf rfl rfl
  · exact perform_rd_value (r := .cfgRxbase) hf rfl rfl

/-- Settles O21: a command changes PHASE by the handover only, another host operation by the acknowledgement or as a
reset. -/
theorem phaseChangesOnlyAsListed : Obligations.PhaseChangesOnlyAsListed := by
  intro s t h hne
  obtain ⟨-, rfl⟩ | ⟨op, rest, hops, ⟨rfl, rfl⟩ | ⟨-, ⟨w, i, hw, hdec, hx⟩ | heff⟩⟩ := step_cases h
  · exact absurd rfl hne
  · exact ⟨.reset, rest, hops, .inr (.inr ⟨rfl, rfl⟩)⟩
  · obtain hp | ⟨rfl, hidle, hv, buf, len, -, -, rfl⟩ := exec_phase hx
    · exact absurd hp hne
    · exact ⟨op, rest, hops, .inl ⟨hidle, rfl, hv, w, hw, hdec⟩⟩
  · obtain hp | ⟨hdeliv, hidle, hack⟩ := heff.phase
    · exact absurd hp hne
    · exact ⟨op, rest, hops, .inr (.inl ⟨hdeliv, hidle, hack⟩)⟩

/-! ### Written marks, reset, FR.REG and STATUS -/

/-- Every command checks FAULT and then the written marks, FR.REG once it is outside a delivery (10_state.md R103;
60_exceptions.md R721, R722). -/
theorem exec_guarded {i : Instr} {s : State} (h : s.phase = .idle ∨ i ≠ .frReg) :
    ∃ k, exec i s = unlessFaulted s (withArgs (commandArgs i) s k) := by
  cases i with
  | frReg =>
    obtain hidle | hne := h
    · exact ⟨_, congrArg (unlessFaulted s) (unlessDelivering_idle hidle _ _)⟩
    · exact absurd rfl hne
  | frByte b => exact ⟨unlessDelivering (.frByte b) s _, rfl⟩
  | crc32 | cobsBegin | cobsPut b | cobsEnd | cobsEnc2 | cobsDec | frPkt | fbBuild id => exact ⟨_, rfl⟩

/-- The first register whose mark is clear raises UnwrittenArg (10_state.md R103, 30_encoding.md R310). -/
theorem withArgs_unwritten {s : State} {before after : List ArgIdx} {j : ArgIdx}
    (hbefore : ∀ k ∈ before, (s.arg k).written = true) (hj : (s.arg j).written = false) (k : Result) :
    withArgs (before ++ j :: after) s k = raise (.unwrittenArg j) s := by
  have hfirst : s.firstUnwritten (before ++ j :: after) = some j := by
    rw [State.firstUnwritten, List.find?_append, List.find?_eq_none.2 (by simpa using hbefore)]
    simp [hj]
  rw [withArgs, hfirst]

/-- Settles O12: every command's written marks are checked before anything but FAULT and, for FR.REG, PHASE. -/
theorem unwrittenArgumentFaults : Obligations.UnwrittenArgumentFaults := by
  refine ⟨fun j => by cases j <;> rfl, fun j v s => ?_, fun i s before after j hf hp hargs hbefore hj => ?_⟩
  · rw [setArg_arg, if_pos rfl]
  · obtain ⟨k, hk⟩ := exec_guarded hp
    rw [hk, unlessFaulted_none hf, hargs, withArgs_unwritten hbefore hj, raise]

/-- Settles O6: each field of the state that reset leaves. -/
theorem resetStateIsAsGiven : Obligations.ResetStateIsAsGiven := by
  intro s
  have hmarks : ∀ i, ((hostReset s).arg i).written = false := fun i => by cases i <;> rfl
  exact ⟨hostReset s, rfl, rfl, rfl, rfl, rfl, rfl, rfl, rfl, rfl, rfl, hmarks, rfl, rfl, rfl⟩

/-- FR.REG past its guards (42_framer.md R530). -/
theorem exec_frReg {s : State} (hr : s.ready .frReg) (hp : s.phase = .idle) :
    exec .frReg s =
      if (s.arg .a0).value = 0 then .next (complete .invalidParameter s)
      else .next (complete .ok { s with cbHandle := (s.arg .a0).value, cbValid := true }) := by
  obtain ⟨hf, hw⟩ := hr
  show execFrReg s = _
  rw [execFrReg, unlessFaulted_none hf, unlessDelivering_idle hp, withArgs_written hw]

/-- Settles O43: the two branches of FR.REG. -/
theorem frRegRegistersTheConsumer : Obligations.FrRegRegistersTheConsumer := by
  intro s hr hp
  rw [exec_frReg hr hp]
  exact ⟨fun hne => if_neg hne, fun hz => if_pos hz⟩

/-- STATUS above CODE: DELIV, CB_VALID, then zeros (10_state.md R105, R108, R109). -/
theorem status_flag (s : State) (k : Nat) :
    s.status.getLsbD (8 + k) = if k = 0 then s.deliv else if k = 1 then s.cbValid else false := by
  simp only [State.status, BitVec.getLsbD_append]
  rcases k with _ | _ | k
  · simp
  · simp
  · simp

/-- Settles O51: CODE is the low byte, and each flag is a bit above it. -/
theorem statusFields : Obligations.StatusFields := by
  intro s
  refine ⟨?_, ?_, status_flag s 1, fun k hk => ?_⟩
  · exact BitVec.extractLsb'_append_eq_right
  · rw [status_flag s 0]
    simp [State.deliv]
  · have := status_flag s (k - 8)
    rwa [Nat.add_sub_cancel' (by omega), if_neg (by omega), if_neg (by omega)] at this

/-! ### The access rules of the register file -/

/-- A register read looks at nothing but the block's state (10_state.md R133). -/
theorem readReg_busData (s : State) (d : BusData) (offset width : Nat) :
    ({ s with busData := d }).readReg offset width = s.readReg offset width := by
  unfold State.readReg
  cases Reg.forRead offset width with
  | none => rfl
  | some r => cases r with
    | arg i => cases i <;> rfl
    | _ => rfl

/-- Settles O53: a read that gives a value leaves it in the host's field only, where the next read does not look. -/
theorem registerReadsHaveNoSideEffect : Obligations.RegisterReadsHaveNoSideEffect := by
  intro s t offset width h ht
  obtain ⟨hf, -⟩ := unlessFaulted_next h
  obtain ⟨v, hv, hrd⟩ | ⟨f, -, hrd⟩ := perform_rd hf offset width
  · cases hrd.symm.trans h
    refine ⟨rfl, ?_⟩
    rw [perform, unlessFaulted_none ht, hostRead, readReg_busData, hv]
  · cases hrd.symm.trans h
    cases ht

/-- Past the end of the map there is no register (10_state.md R130). -/
theorem Reg.select_above {offset : Nat} (h : 0x58 ≤ offset) (width : Nat) : Reg.select offset width = none := by
  have hmap : ∀ r ∈ Reg.all, r.offset < 0x58 := by decide
  unfold Reg.select
  split
  · refine List.find?_eq_none.2 fun r hr => ?_
    have := hmap r hr
    simp only [beq_iff_eq]
    omega
  · rfl

theorem Reg.select_width {width : Nat} (h : width ≠ 32) (offset : Nat) : Reg.select offset width = none := if_neg h

/-- Which reads reach no readable register (10_state.md R130, R132). -/
theorem Reg.forRead_eq_none {offset width : Nat} :
    Reg.forRead offset width = none ↔
      width ≠ 32 ∨ offset % 4 ≠ 0 ∨ 0x54 < offset ∨ offset = 0x00 ∨ offset = 0x4C := by
  have hmap : ∀ o < 0x58, Reg.forRead o 32 = none ↔ o % 4 ≠ 0 ∨ 0x54 < o ∨ o = 0x00 ∨ o = 0x4C := by decide
  obtain rfl | hw := eq_or_ne width 32
  · rcases Nat.lt_or_ge offset 0x58 with hlt | hge
    · simpa using hmap offset hlt
    · exact iff_of_true (by rw [Reg.forRead, Reg.select_above hge]; rfl) (.inr (.inr (.inl (by omega))))
  · exact iff_of_true (by rw [Reg.forRead, Reg.select_width hw]; rfl) (.inl hw)

/-- The offsets of the read-only registers (10_state.md R130). -/
def readOnlyOffsets : List Nat := [0x04, 0x08, 0x28, 0x2C, 0x30, 0x34, 0x38, 0x3C, 0x40, 0x44, 0x48, 0x50, 0x54]

/-- Which writes reach no writable register (10_state.md R130, R132). -/
theorem Reg.forWrite_eq_none {offset width : Nat}
    (h : width ≠ 32 ∨ offset % 4 ≠ 0 ∨ 0x54 < offset ∨ offset ∈ readOnlyOffsets) : Reg.forWrite offset width = none := by
  have hmap : ∀ o < 0x58, o % 4 ≠ 0 ∨ 0x54 < o ∨ o ∈ readOnlyOffsets → Reg.forWrite o 32 = none := by decide
  obtain rfl | hw := eq_or_ne width 32
  · rcases Nat.lt_or_ge offset 0x58 with hlt | hge
    · exact hmap offset hlt (by simpa using h)
    · rw [Reg.forWrite, Reg.select_above hge]; rfl
  · rw [Reg.forWrite, Reg.select_width hw]; rfl

/-- A read raises BusMisuse exactly when it reaches no readable register; a clear mark raises another fault
(60_exceptions.md R722). -/
theorem readReg_busMisuse {s : State} {offset width : Nat} :
    s.readReg offset width = .error (.busMisuse offset width .read) ↔ Reg.forRead offset width = none := by
  unfold State.readReg
  cases Reg.forRead offset width with
  | none => simp
  | some r =>
    cases r with
    | arg i => by_cases hw : (s.arg i).written = true <;> simp [State.unwrittenFault, hw]
    | result => by_cases hw : s.resultWritten = true <;> simp [State.unwrittenFault, hw]
    | _ => simp [State.unwrittenFault]

/-- The operation does not end in BusMisuse. -/
def NoBusMisuse (k : Result) : Prop := ∀ t offset width dir, k = .next t → t.fault ≠ some (.busMisuse offset width dir)

/-- The fault reason is BusMisuse (60_exceptions.md R720). -/
def FaultReason.isBusMisuse : FaultReason → Bool
  | .busMisuse _ _ _ => true
  | _ => false

section
variable {s : State} {k : Result}

theorem noBusMisuse_next (h : s.fault = none) : NoBusMisuse (.next s) := by
  rintro t offset width dir ⟨⟩
  simp [h]

theorem noBusMisuse_raise {r : FaultReason} (h : r.isBusMisuse = false) : NoBusMisuse (raise r s) := by
  rintro t offset width dir ⟨⟩ hr
  cases hr
  cases h

theorem noBusMisuse_unlessFaulted (h : s.fault = none → NoBusMisuse k) : NoBusMisuse (unlessFaulted s k) := by
  intro t offset width dir ht
  obtain ⟨hf, hk⟩ := unlessFaulted_next ht
  exact h hf t offset width dir hk

theorem noBusMisuse_unlessDelivering {i : Instr} (h : NoBusMisuse k) : NoBusMisuse (unlessDelivering i s k) := by
  unfold unlessDelivering
  split
  · exact noBusMisuse_raise rfl
  · exact h

theorem noBusMisuse_withArgs {is : List ArgIdx} (h : NoBusMisuse k) : NoBusMisuse (withArgs is s k) := by
  unfold withArgs
  split
  · exact noBusMisuse_raise rfl
  · exact h

theorem noBusMisuse_onceAdmitted {f : Option FaultReason} (hf : ∀ r ∈ f, r.isBusMisuse = false) (h : NoBusMisuse k) :
    NoBusMisuse (onceAdmitted f s k) := by
  unfold onceAdmitted
  split
  · exact noBusMisuse_raise (hf _ rfl)
  · exact h

end

theorem orElse_forall {P : FaultReason → Prop} {f g : Option FaultReason} (hf : ∀ r ∈ f, P r) (hg : ∀ r ∈ g, P r) :
    ∀ r ∈ (f <|> g), P r := by
  cases f with
  | none => exact hg
  | some r => exact hf

section
variable (s : State) (ins : List Span) (out : Span)

theorem readFault_notBusMisuse : ∀ r ∈ readFault s ins, r.isBusMisuse = false :=
  orElse_forall (Option.forall_mem_map.2 fun _ _ => rfl) (Option.forall_mem_map.2 fun _ _ => rfl)

theorem writeFault_notBusMisuse : ∀ r ∈ writeFault s out, r.isBusMisuse = false :=
  orElse_forall (Option.forall_mem_map.2 fun _ _ => rfl) (Option.forall_mem_map.2 fun _ _ => rfl)

/-- The span checks raise SpanWrap, MemNotAdmitted and SpanOverlap only (20_memory.md R218). -/
theorem copyFault_notBusMisuse : ∀ r ∈ copyFault s ins out, r.isBusMisuse = false :=
  orElse_forall (Option.forall_mem_map.2 fun _ _ => rfl) <| orElse_forall (Option.forall_mem_map.2 fun _ _ => rfl) <|
    orElse_forall (Option.forall_mem_map.2 fun _ _ => rfl) (Option.forall_mem_map.2 fun _ _ => rfl)

end

theorem encodeSpan_fault {out cap len : Word} {bs : List Byte} {s u : State} (h : encodeSpan out cap bs s = some (len, u)) :
    u.fault = s.fault := by
  obtain ⟨m, rfl, -⟩ := encodeSpan_some h
  rfl

/-- A delimiter raises no fault. -/
theorem frDelimiter_fault {s t : State} (h : frDelimiter s = .next t) : t.fault = s.fault := by
  obtain ⟨-, rfl⟩ | ⟨-, ⟨c, -, rfl⟩ | ⟨buf, w, -, -, ⟨-, rfl⟩ | ⟨-, rfl⟩⟩⟩ := frDelimiter_cases h
  · rfl
  · rfl
  · rfl
  · rfl

section
variable (s : State)

theorem execCrc32_noBusMisuse : NoBusMisuse (execCrc32 s) := by
  refine noBusMisuse_unlessFaulted fun hf => noBusMisuse_withArgs ?_
  dsimp only
  split
  · exact noBusMisuse_next hf
  · exact noBusMisuse_onceAdmitted (readFault_notBusMisuse s _) (noBusMisuse_next hf)

theorem execCobsBegin_noBusMisuse : NoBusMisuse (execCobsBegin s) := by
  refine noBusMisuse_unlessFaulted fun hf => noBusMisuse_withArgs ?_
  dsimp only
  split
  · exact noBusMisuse_next hf
  · exact noBusMisuse_onceAdmitted (writeFault_notBusMisuse s _) (noBusMisuse_next hf)

theorem execCobsPut_noBusMisuse (b : Byte) : NoBusMisuse (execCobsPut b s) := by
  refine noBusMisuse_unlessFaulted fun hf => noBusMisuse_withArgs ?_
  split
  · exact noBusMisuse_next hf
  · exact noBusMisuse_next hf

theorem execCobsEnd_noBusMisuse : NoBusMisuse (execCobsEnd s) := by
  refine noBusMisuse_unlessFaulted fun hf => noBusMisuse_withArgs ?_
  split
  · exact noBusMisuse_next hf
  · exact noBusMisuse_next hf

theorem execCobsEnc2_noBusMisuse : NoBusMisuse (execCobsEnc2 s) := by
  refine noBusMisuse_unlessFaulted fun hf => noBusMisuse_withArgs ?_
  dsimp only
  split
  · exact noBusMisuse_next hf
  split
  · exact noBusMisuse_next hf
  split
  · exact noBusMisuse_next hf
  refine noBusMisuse_onceAdmitted (copyFault_notBusMisuse s _ _) ?_
  split
  · rename_i he; exact noBusMisuse_next ((encodeSpan_fault he).trans hf)
  · exact noBusMisuse_next hf

theorem execCobsDec_noBusMisuse : NoBusMisuse (execCobsDec s) := by
  refine noBusMisuse_unlessFaulted fun hf => noBusMisuse_withArgs ?_
  dsimp only
  split
  · exact noBusMisuse_next hf
  split
  · exact noBusMisuse_next hf
  refine noBusMisuse_onceAdmitted (writeFault_notBusMisuse s _) ?_
  split
  · exact noBusMisuse_next hf
  · exact noBusMisuse_next hf

theorem execFrPkt_noBusMisuse : NoBusMisuse (execFrPkt s) := by
  refine noBusMisuse_unlessFaulted fun hf => noBusMisuse_withArgs ?_
  dsimp only
  split
  · exact noBusMisuse_next hf
  split
  · exact noBusMisuse_next hf
  refine noBusMisuse_onceAdmitted (copyFault_notBusMisuse s _ _) ?_
  split
  · rename_i he; exact noBusMisuse_next ((encodeSpan_fault he).trans hf)
  · exact noBusMisuse_next hf

theorem execFrByte_noBusMisuse (b : Byte) : NoBusMisuse (execFrByte b s) := by
  refine noBusMisuse_unlessFaulted fun hf => noBusMisuse_unlessDelivering (noBusMisuse_withArgs ?_)
  split
  · intro t offset width dir ht
    simp [frDelimiter_fault ht, hf]
  · unfold frAppend
    split
    · exact noBusMisuse_next hf
    · exact noBusMisuse_next hf

theorem execFrReg_noBusMisuse : NoBusMisuse (execFrReg s) := by
  refine noBusMisuse_unlessFaulted fun hf => noBusMisuse_unlessDelivering (noBusMisuse_withArgs ?_)
  dsimp only
  split
  · exact noBusMisuse_next hf
  · exact noBusMisuse_next hf

theorem execFbBuild_noBusMisuse (id : Byte) : NoBusMisuse (execFbBuild id s) := by
  refine noBusMisuse_unlessFaulted fun hf => noBusMisuse_withArgs ?_
  dsimp only
  split
  · exact noBusMisuse_next hf
  split
  · exact noBusMisuse_next hf
  split
  · exact noBusMisuse_next hf
  split
  · exact noBusMisuse_next hf
  exact noBusMisuse_onceAdmitted (copyFault_notBusMisuse s _ _) (noBusMisuse_next hf)

/-- BusMisuse belongs to the host's accesses: no command raises it (60_exceptions.md R720, R722). -/
theorem exec_noBusMisuse (i : Instr) : NoBusMisuse (exec i s) := by
  cases i with
  | crc32 => exact execCrc32_noBusMisuse s
  | cobsBegin => exact execCobsBegin_noBusMisuse s
  | cobsPut b => exact execCobsPut_noBusMisuse s b
  | cobsEnd => exact execCobsEnd_noBusMisuse s
  | cobsEnc2 => exact execCobsEnc2_noBusMisuse s
  | cobsDec => exact execCobsDec_noBusMisuse s
  | frPkt => exact execFrPkt_noBusMisuse s
  | frByte b => exact execFrByte_noBusMisuse s b
  | frReg => exact execFrReg_noBusMisuse s
  | fbBuild id => exact execFbBuild_noBusMisuse s id

theorem issueCommand_noBusMisuse (w : Word) : NoBusMisuse (issueCommand w s) := by
  unfold issueCommand
  split
  · exact noBusMisuse_raise rfl
  · exact exec_noBusMisuse s _

theorem acknowledge_noBusMisuse (hf : s.fault = none) (v : Word) : NoBusMisuse (acknowledge v s) := by
  unfold acknowledge
  split
  · exact noBusMisuse_raise rfl
  split
  · exact noBusMisuse_raise rfl
  · exact noBusMisuse_next hf

/-- A write that reaches a writable register is no misuse of the bus (10_state.md R131). -/
theorem hostWrite_noBusMisuse (hf : s.fault = none) {r : Reg} (hr : r.writable = true) (v : Word) :
    NoBusMisuse (hostWrite r.offset 32 v s) := by
  rw [hostWrite, Reg.forWrite_offset hr]
  cases r with
  | cmd => exact issueCommand_noBusMisuse s v
  | arg i => exact noBusMisuse_next ((setArg_fault i v s).trans hf)
  | version => exact noBusMisuse_next hf
  | delivAck => exact acknowledge_noBusMisuse s hf v
  | _ => cases hr

end

/-- A write that reaches no writable register raises BusMisuse (10_state.md R132). -/
theorem hostWrite_none {offset width : Nat} (h : Reg.forWrite offset width = none) (v : Word) (s : State) :
    hostWrite offset width v s = raise (.busMisuse offset width .write) s := by
  rw [hostWrite, h]

theorem writableOffsets {offset : Nat} (h : offset ∈ [0x00, 0x0C, 0x10, 0x14, 0x18, 0x1C, 0x20, 0x24, 0x4C]) :
    ∃ r : Reg, r.writable = true ∧ r.offset = offset := by
  have hmap : ∀ o ∈ [0x00, 0x0C, 0x10, 0x14, 0x18, 0x1C, 0x20, 0x24, 0x4C],
      ∃ r ∈ Reg.all, r.writable = true ∧ r.offset = o := by decide
  obtain ⟨r, -, hr⟩ := hmap offset h
  exact ⟨r, hr⟩

/-- Settles O54: the map decides which accesses reach a register, and an access that reaches one ends without
BusMisuse. -/
theorem busMisuseExactlyWhenNotAdmitted : Obligations.BusMisuseExactlyWhenNotAdmitted := by
  refine ⟨fun s offset width hf => ?_, fun s offset width v hf h => ?_, fun s offset v hf h => ?_⟩
  · rw [← Reg.forRead_eq_none, ← readReg_busMisuse (s := s)]
    obtain ⟨v, hv, hrd⟩ | ⟨f, hv, hrd⟩ := perform_rd hf offset width
    · simp [hrd, hv, hf]
    · simp [hrd, hv]
  · rw [perform, unlessFaulted_none hf, hostWrite_none (Reg.forWrite_eq_none h), raise]
  · obtain ⟨r, hr, rfl⟩ := writableOffsets h
    intro hmisuse
    rw [perform, unlessFaulted_none hf] at hmisuse
    exact hostWrite_noBusMisuse s hf hr v _ _ _ _ hmisuse rfl

end Sys2Proof.Machine
end

section
/-! Proofs about memory and the spans of commands (20_memory.md): the checks a command makes on its operands, in their
order; that every command ends; the host's accesses to the RX window and to host memory; and the frames of the commands
that store nothing or one byte at a time. -/

namespace Sys2Proof.Machine

/-! ### The span checks in their order -/

/-- The fault of a command with these input and output spans: rules R212, R213, R214 and R217, in that order
(20_memory.md R218). -/
def State.spanFault (s : State) (ins outs : List Span) : Option FaultReason :=
  wrapFault (ins ++ outs) <|> inputFault s ins <|> outputFault s outs <|> outs.findSome? (overlapFault ins)

section
variable {s : State} {ins outs before after : List Span} {p out : Span} {k : Nat}

theorem readFault_eq_spanFault : readFault s ins = s.spanFault ins [] := by
  simp [readFault, State.spanFault, outputFault]

theorem writeFault_eq_spanFault : writeFault s out = s.spanFault [] [out] := by
  simp [writeFault, State.spanFault, inputFault, overlapFault]

theorem copyFault_eq_spanFault : copyFault s ins out = s.spanFault ins [out] := by
  simp [copyFault, State.spanFault]

/-- An admitted input span has no byte that is refused (20_memory.md R213). -/
theorem State.readableSpan.firstRefused (h : s.readableSpan p) : p.firstRefused s.inputAdmitted = none :=
  firstRefused_none.2 fun k hk => by simpa [State.inputAdmitted] using h.2 k hk

theorem inputFault_of_readable (h : ∀ p ∈ ins, s.readableSpan p) : inputFault s ins = none :=
  inputFault_none.2 fun p hp => (h p hp).2

/-- The first span that passes the top of memory (20_memory.md R212). -/
theorem spanFault_wrap (hsplit : ins ++ outs = before ++ p :: after) (hbefore : ∀ q ∈ before, q.fits)
    (hp : ¬ p.fits) : s.spanFault ins outs = some (.spanWrap p.ptr p.len) := by
  have hwraps : p.wraps = true := by rwa [← Span.wraps_false, Bool.not_eq_false] at hp
  have hfind : (ins ++ outs).find? Span.wraps = some p :=
    List.find?_eq_some_iff_append.2
      ⟨hwraps, before, after, hsplit, fun q hq => by simp [Span.wraps_false.2 (hbefore q hq)]⟩
  simp [State.spanFault, wrapFault, hfind]

/-- The first input byte that is not admitted (20_memory.md R213). -/
theorem spanFault_input (hfits : ∀ q ∈ ins ++ outs, q.fits) (hsplit : ins = before ++ p :: after)
    (hbefore : ∀ q ∈ before, s.readableSpan q) (hrefused : p.firstRefused s.inputAdmitted = some k) :
    s.spanFault ins outs = some (.memNotAdmitted k) := by
  have hfind : ins.findSome? (fun p => p.firstRefused s.inputAdmitted) = some k :=
    List.findSome?_eq_some_iff.2 ⟨before, p, after, hsplit, hrefused, fun q hq => (hbefore q hq).firstRefused⟩
  simp [State.spanFault, wrapFault_none.2 hfits, inputFault, hfind]

/-- The first output byte outside HostMem (20_memory.md R214). -/
theorem spanFault_output (hfits : ∀ q ∈ ins ++ [p], q.fits) (hins : ∀ q ∈ ins, s.readableSpan q)
    (hrefused : p.firstRefused s.outputAdmitted = some k) :
    s.spanFault ins [p] = some (.memNotAdmitted k) := by
  simp [State.spanFault, wrapFault_none.2 hfits, inputFault_of_readable hins, outputFault, hrefused]

/-- The first input the output overlaps (20_memory.md R217; log 19). -/
theorem spanFault_overlap (hins : ∀ q ∈ ins, s.readableSpan q) (hout : s.writableSpan out)
    (hsplit : ins = before ++ p :: after) (hbefore : ∀ q ∈ before, out.apart q) (hp : ¬ out.apart p) :
    s.spanFault ins [out] = some (.spanOverlap out p) := by
  have hoverlaps : out.overlaps p = true := by rwa [← Span.overlaps_false, Bool.not_eq_false] at hp
  have hfind : ins.find? (fun q => out.overlaps q) = some p :=
    List.find?_eq_some_iff_append.2
      ⟨hoverlaps, before, after, hsplit, fun q hq => by simp [Span.overlaps_false.2 (hbefore q hq)]⟩
  have hfits : ∀ q ∈ ins ++ [out], q.fits := fun q hq => by
    obtain hq | hq := List.mem_append.1 hq
    · exact (hins q hq).1
    · exact List.mem_singleton.1 hq ▸ hout.1
  simp [State.spanFault, wrapFault_none.2 hfits, inputFault_of_readable hins, outputFault_none.2 hout.2, overlapFault,
    hfind]

end

/-! ### A command past its written marks -/

/-- The state after a command's status checks failed (40_crc.md R410; 41_cobs.md R451, R465, R480; 42_framer.md R540;
43_frame_builder.md R601). -/
def checksFailed (i : Instr) (s : State) : State :=
  { s with
    code := if i = .cobsDec ∧ (s.arg .a1).value = 0 then .cobsDecodeFailed else .invalidParameter
    enc := if i = .cobsBegin then { s.enc with state := .failed } else s.enc }

theorem checksFailed_cobsDec (s : State) :
    checksFailed .cobsDec s =
      complete (if (s.span .a0 .a1).len = 0 then .cobsDecodeFailed else .invalidParameter) s := by
  simp only [checksFailed, complete, State.span, true_and, reduceCtorEq, if_false]
  congr

/-- What a command does once its argument registers are written: it completes with the status of a failed check, or its
span checks follow and then one next state (20_memory.md R218). -/
inductive Checked (i : Instr) (s : State) : Prop where
  | failed (h : ¬ s.statusChecksPass i) (he : exec i s = .next (checksFailed i s))
  | passed (h : s.statusChecksPass i) (t : State)
      (he : exec i s = onceAdmitted (s.spanFault (s.inputSpans i) (s.outputSpans i)) s (.next t))

theorem Span.nullOk_iff {p : Span} : p.nullOk ↔ ¬ (p.len ≠ 0 ∧ p.ptr = 0) := by
  unfold Span.nullOk
  tauto

section
variable {s : State}

theorem execCrc32_checked (h : s.ready .crc32) : Checked .crc32 s := by
  have he : exec .crc32 s = _ := guarded_ready h _
  dsimp only at he
  split at he
  · rename_i hnull
    exact .failed (fun hpass => Span.nullOk_iff.1 hpass hnull) he
  · rename_i hnull
    exact .passed (Span.nullOk_iff.2 hnull) _ (readFault_eq_spanFault ▸ he)

theorem execCobsBegin_checked (h : s.ready .cobsBegin) : Checked .cobsBegin s := by
  have he : exec .cobsBegin s = _ := guarded_ready h _
  dsimp only at he
  split at he
  · rename_i hz
    exact .failed (fun ⟨hptr, hlen⟩ => hz.elim hptr hlen) he
  · rename_i hz
    exact .passed (not_or.1 hz) _ (writeFault_eq_spanFault ▸ he)

theorem execCobsEnc2_checked (h : s.ready .cobsEnc2) : Checked .cobsEnc2 s := by
  have he : exec .cobsEnc2 s = _ := guarded_ready h _
  dsimp only at he
  split at he
  · rename_i hz
    exact .failed (fun ⟨hptr, hlen, _⟩ => hz.elim hptr hlen) he
  rename_i hout
  split at he
  · rename_i hnull
    exact .failed (fun ⟨_, _, h1, _⟩ => Span.nullOk_iff.1 h1 hnull) he
  rename_i h1
  split at he
  · rename_i hnull
    exact .failed (fun ⟨_, _, _, h2⟩ => Span.nullOk_iff.1 h2 hnull) he
  rename_i h2
  obtain ⟨hptr, hlen⟩ := not_or.1 hout
  have hpass : s.statusChecksPass .cobsEnc2 := ⟨hptr, hlen, Span.nullOk_iff.2 h1, Span.nullOk_iff.2 h2⟩
  rw [copyFault_eq_spanFault] at he
  split at he
  · exact .passed hpass _ he
  · exact .passed hpass _ he

theorem execCobsDec_checked (h : s.ready .cobsDec) : Checked .cobsDec s := by
  have he : exec .cobsDec s = _ := guarded_ready h _
  dsimp only at he
  split at he
  · rename_i hlen
    exact .failed (fun ⟨hne, _⟩ => hne hlen) (by rw [he, checksFailed_cobsDec, if_pos hlen])
  rename_i hlen
  split at he
  · rename_i hnull
    exact .failed (fun ⟨_, hne⟩ => hne hnull) (by rw [he, checksFailed_cobsDec, if_neg hlen])
  rename_i hnull
  rw [writeFault_eq_spanFault] at he
  split at he
  · exact .passed ⟨hlen, hnull⟩ _ he
  · exact .passed ⟨hlen, hnull⟩ _ he

theorem execFrPkt_checked (h : s.ready .frPkt) : Checked .frPkt s := by
  have he : exec .frPkt s = _ := guarded_ready h _
  dsimp only at he
  split at he
  · rename_i hz
    exact .failed (fun ⟨hf, hpk, _⟩ => hz.elim hf hpk) he
  rename_i hptrs
  split at he
  · rename_i hlen
    exact .failed (fun ⟨_, _, h2⟩ => Nat.not_lt.2 h2 hlen) he
  rename_i hlen
  obtain ⟨hf, hpk⟩ := not_or.1 hptrs
  have hpass : s.statusChecksPass .frPkt := ⟨hf, hpk, Nat.not_lt.1 hlen⟩
  rw [copyFault_eq_spanFault] at he
  split at he
  · exact .passed hpass _ he
  · exact .passed hpass _ he

theorem execFbBuild_checked {id : Byte} (h : s.ready (.fbBuild id)) : Checked (.fbBuild id) s := by
  have he : exec (.fbBuild id) s = _ := guarded_ready h _
  dsimp only at he
  split at he
  · rename_i hz
    exact .failed (fun ⟨hout, _⟩ => hout hz) he
  rename_i hout
  split at he
  · rename_i hnull
    exact .failed (fun ⟨_, hok, _⟩ => Span.nullOk_iff.1 hok hnull) he
  rename_i hnull
  split at he
  · rename_i hlong
    exact .failed (fun ⟨_, _, hlen, _⟩ => Nat.not_lt.2 hlen hlong) he
  rename_i hlen
  split at he
  · rename_i hsmall
    exact .failed (fun ⟨_, _, _, hroom⟩ => Nat.not_lt.2 hroom hsmall) he
  rename_i hroom
  exact .passed ⟨hout, Span.nullOk_iff.2 hnull, Nat.not_lt.1 hlen, Nat.not_lt.1 hroom⟩ _
    (copyFault_eq_spanFault ▸ he)

end

/-- A command without spans whose status checks pass has no span check to fail. -/
theorem Checked.of_no_spans {i : Instr} {s : State} (hin : s.inputSpans i = []) (hout : s.outputSpans i = [])
    (hpass : s.statusChecksPass i) (hends : ∃ t, exec i s = .next t) : Checked i s := by
  obtain ⟨t, ht⟩ := hends
  exact .passed hpass t (by rw [hin, hout, ht]; rfl)

section
variable {s : State} {k : Result}

theorem raise_ends (r : FaultReason) (s : State) : ∃ t, raise r s = .next t := ⟨_, rfl⟩

theorem unlessDelivering_ends (i : Instr) (h : ∃ t, k = .next t) : ∃ t, unlessDelivering i s k = .next t := by
  unfold unlessDelivering
  split
  · exact raise_ends _ s
  · exact h

theorem withArgs_ends {is : List ArgIdx} (h : (∀ i ∈ is, (s.arg i).written = true) → ∃ t, k = .next t) :
    ∃ t, withArgs is s k = .next t := by
  unfold withArgs
  split
  · exact raise_ends _ s
  · exact h (firstUnwritten_none.1 ‹_›)

theorem onceAdmitted_ends (f : Option FaultReason) (h : ∃ t, k = .next t) : ∃ t, onceAdmitted f s k = .next t := by
  cases f with
  | none => exact h
  | some r => exact raise_ends r s

end

theorem frDelimiter_ends (s : State) : ∃ t, frDelimiter s = .next t := by
  unfold frDelimiter
  split
  · exact ⟨_, rfl⟩
  split
  · exact ⟨_, rfl⟩
  split
  · exact ⟨_, rfl⟩
  split
  · exact ⟨_, rfl⟩
  dsimp only
  split
  · exact ⟨_, rfl⟩
  · exact ⟨_, rfl⟩

theorem frAppend_ends (b : Byte) (s : State) : ∃ t, frAppend b s = .next t := by
  unfold frAppend
  split
  · exact ⟨_, rfl⟩
  · exact ⟨_, rfl⟩

section
variable {s : State} (hf : s.fault = none)
include hf

theorem execCobsPut_ends (b : Byte) : ∃ t, exec (.cobsPut b) s = .next t := by
  show ∃ t, execCobsPut b s = .next t
  rw [execCobsPut, unlessFaulted_none hf, commandArgs, withArgs_nil]
  split
  · exact ⟨_, rfl⟩
  · exact ⟨_, rfl⟩

theorem execCobsEnd_ends : ∃ t, exec .cobsEnd s = .next t := by
  show ∃ t, execCobsEnd s = .next t
  rw [execCobsEnd, unlessFaulted_none hf, commandArgs, withArgs_nil]
  split
  · exact ⟨_, rfl⟩
  · exact ⟨_, rfl⟩

theorem execFrByte_ends (b : Byte) : ∃ t, exec (.frByte b) s = .next t := by
  show ∃ t, execFrByte b s = .next t
  rw [execFrByte, unlessFaulted_none hf]
  refine unlessDelivering_ends _ (withArgs_ends fun _ => ?_)
  split
  · exact frDelimiter_ends s
  · exact frAppend_ends b s

theorem execFrReg_ends : ∃ t, exec .frReg s = .next t := by
  show ∃ t, execFrReg s = .next t
  rw [execFrReg, unlessFaulted_none hf]
  refine unlessDelivering_ends _ (withArgs_ends fun _ => ?_)
  dsimp only
  split
  · exact ⟨_, rfl⟩
  · exact ⟨_, rfl⟩

end

/-- Every command past its written marks makes its status checks, then its span checks (20_memory.md
R218). -/
theorem exec_checked {i : Instr} {s : State} (h : s.ready i) : Checked i s := by
  have hf : s.fault = none := h.1
  cases i with
  | crc32 => exact execCrc32_checked h
  | cobsBegin => exact execCobsBegin_checked h
  | cobsPut b => exact .of_no_spans rfl rfl trivial (execCobsPut_ends hf b)
  | cobsEnd => exact .of_no_spans rfl rfl trivial (execCobsEnd_ends hf)
  | cobsEnc2 => exact execCobsEnc2_checked h
  | cobsDec => exact execCobsDec_checked h
  | frPkt => exact execFrPkt_checked h
  | frByte b => exact .of_no_spans rfl rfl trivial (execFrByte_ends hf b)
  | frReg => exact .of_no_spans rfl rfl trivial (execFrReg_ends hf)
  | fbBuild id => exact execFbBuild_checked h

theorem Checked.ends {i : Instr} {s : State} (h : Checked i s) : ∃ t, exec i s = .next t := by
  cases h with
  | failed _ he => exact ⟨_, he⟩
  | passed _ t he => exact he ▸ onceAdmitted_ends _ ⟨t, rfl⟩

/-- A fault that the span checks find is raised, with no other effect (20_memory.md R218; 60_exceptions.md R720). -/
theorem exec_spanFault {i : Instr} {s : State} {r : FaultReason} (h : s.ready i) (hpass : s.statusChecksPass i)
    (hfault : s.spanFault (s.inputSpans i) (s.outputSpans i) = some r) :
    exec i s = .next { s with fault := some r } := by
  cases exec_checked h with
  | failed hnot => exact absurd hpass hnot
  | passed _ t he => rw [he, hfault]; rfl

/-- Settles O7: a clear written mark is a fault; a command past its marks ends by `exec_checked`. -/
theorem everyCommandEnds : Obligations.EveryCommandEnds := by
  intro i s hf
  by_cases hreg : i = .frReg
  · exact hreg ▸ execFrReg_ends hf
  · obtain ⟨k, hk⟩ := exec_guarded (s := s) (.inr hreg)
    rw [unlessFaulted_none hf] at hk
    rw [hk]
    refine withArgs_ends fun hw => ?_
    have hends := (exec_checked ⟨hf, hw⟩).ends
    rwa [hk, withArgs_written hw] at hends

/-- Settles O13: the four faults of the span checks, each in its order. -/
theorem spanFaultsInOrder : Obligations.SpanFaultsInOrder := by
  intro i s h hpass
  refine ⟨fun before p after hsplit hbefore hp => exec_spanFault h hpass (spanFault_wrap hsplit hbefore hp),
    fun hfits => ⟨fun before p after k hsplit hbefore hk hbad hok => ?_,
      fun hins => ⟨fun p k hout hk hbad hok => ?_, fun out before p after hout hw hsplit hbefore hp => ?_⟩⟩⟩
  · exact exec_spanFault h hpass (spanFault_input hfits hsplit hbefore (firstRefused_at hk hok hbad))
  · rw [hout] at hfits
    exact exec_spanFault h hpass (hout ▸ spanFault_output hfits hins (firstRefused_at hk hok hbad))
  · exact exec_spanFault h hpass (hout ▸ spanFault_overlap hins hw hsplit hbefore hp)

/-- Settles O14: the status checks come before every span check. -/
theorem failedStatusChecksHaveNoEffect : Obligations.FailedStatusChecksHaveNoEffect := by
  intro i s h hnot
  cases exec_checked h with
  | failed _ he => exact he
  | passed hpass => exact absurd hpass hnot

/-! ### The RX window -/

/-- A byte of the window is readable in a delivery, below DELIV_LEN (20_memory.md R215). -/
theorem windowReadable_iff {s : State} {i : Nat} (hi : i < s.cfg.maxPacketSize) :
    s.windowReadable (s.cfg.rxBase + i) = true ↔ s.phase = .delivering ∧ i < s.delivLen.toNat := by
  have hwin : s.inWindow (s.cfg.rxBase + i) = true := decide_eq_true ⟨by omega, by omega⟩
  simp [State.windowReadable, hwin]

theorem byteAt_window {s : State} {i : Nat} (hi : i < s.cfg.maxPacketSize) :
    s.byteAt (s.cfg.rxBase + i) = s.rxbuf.getD i 0 := by
  have hwin : s.inWindow (s.cfg.rxBase + i) = true := decide_eq_true ⟨by omega, by omega⟩
  rw [State.byteAt, if_pos hwin, Nat.add_sub_cancel_left]

section
variable {s : State} {a : Word} {x : Nat} (hf : s.fault = none)
include hf

theorem perform_memRd_window {n : Nat} (h : s.hostTarget a.toNat n = .window x) :
    perform (.memRd a n) s =
      if n = 1 ∧ s.windowReadable a.toNat = true then .next { s with busData := .bytes (s.bytesFrom a.toNat n) }
      else raise (.rxWindowMisuse x .read) s := by
  rw [perform, unlessFaulted_none hf, hostMemRead, h]

theorem perform_memWr_window {bs : List Byte} (h : s.hostTarget a.toNat bs.length = .window x) :
    perform (.memWr a bs) s = raise (.rxWindowMisuse x .write) s := by
  rw [perform, unlessFaulted_none hf, hostMemWrite, h]

end

/-- Settles O56: an access that touches the window goes there, and of those only the read of one readable byte is
admitted. -/
theorem windowIsReadableOnlyInADelivery : Obligations.WindowIsReadableOnlyInADelivery := by
  intro s a k i hf hi ha hbefore
  have htarget (n : Nat) (hk : k < n) : s.hostTarget a.toNat n = .window (s.cfg.rxBase + i) :=
    ha ▸ hostTarget_window hk hbefore (decide_eq_true ⟨by omega, by omega⟩)
  refine ⟨fun hk hp hlt => ?_, fun hk hnot => ?_, fun n hn hk => ?_, fun bs hk => ?_⟩
  · obtain rfl := hk
    rw [Nat.add_zero] at ha
    rw [perform_memRd_window hf (htarget 1 Nat.one_pos), ha, if_pos ⟨rfl, (windowReadable_iff hi).2 ⟨hp, hlt⟩⟩,
      State.bytesFrom, State.bytesFrom, byteAt_window hi]
  · obtain rfl := hk
    have hread : ¬ s.windowReadable a.toNat = true := by
      rw [← Nat.add_zero a.toNat, ha, windowReadable_iff hi]
      rintro ⟨hp, hlt⟩
      obtain hidle | hle := hnot
      · cases hp.symm.trans hidle
      · omega
    rw [perform_memRd_window hf (htarget 1 Nat.one_pos), if_neg fun h => hread h.2, raise]
  · rw [perform_memRd_window hf (htarget n hk), if_neg fun h => by omega, raise]
  · rw [perform_memWr_window hf (htarget bs.length hk), raise]

/-! ### Host memory -/

theorem Region.disjoint_not_mem {r q : Region} {a : Nat} (h : r.disjoint q = true)
    (hr : r.base ≤ a ∧ a < r.base + r.size) : ¬ (q.base ≤ a ∧ a < q.base + q.size) := by
  simp only [Region.disjoint, Bool.or_eq_true, beq_iff_eq, decide_eq_true_eq] at h
  omega

/-- HostMem has no byte of the RX window or of the register file (00_scope.md R15). -/
theorem inHostMem_apart {s : State} {a : Nat} (hok : s.cfg.ok = true) (h : s.inHostMem a = true) :
    s.inWindow a = false ∧ s.inRegFile a = false := by
  obtain ⟨r, hr, ha⟩ := List.any_eq_true.1 h
  obtain ⟨-, hmem⟩ := Bool.and_eq_true_iff.1 hok
  obtain ⟨hwin, hreg⟩ := Bool.and_eq_true_iff.1 (List.all_eq_true.1 hmem r hr)
  obtain ⟨-, hwin⟩ := Bool.and_eq_true_iff.1 hwin
  exact ⟨decide_eq_false (Region.disjoint_not_mem hwin (of_decide_eq_true ha)),
    decide_eq_false (Region.disjoint_not_mem hreg (of_decide_eq_true ha))⟩

/-- A one-byte access in HostMem goes to memory (20_memory.md R222, R223). -/
theorem hostTarget_hostMem {s : State} {a : Nat} (hok : s.cfg.ok = true) (h : s.inHostMem a = true) :
    s.hostTarget a 1 = .memory := by
  obtain ⟨hwin, hreg⟩ := inHostMem_apart hok h
  simp [State.hostTarget, firstRefused, hwin, hreg, h]

section
variable {s : State} {a : Word} (hf : s.fault = none) (hok : s.cfg.ok = true) (h : s.inHostMem a.toNat = true)
include hf hok h

theorem perform_memWr_hostMem (b : Byte) : perform (.memWr a [b]) s = .next (storeBytes a.toNat [b] s) := by
  rw [perform, unlessFaulted_none hf, hostMemWrite, List.length_singleton, hostTarget_hostMem hok h]

theorem perform_memRd_hostMem :
    perform (.memRd a 1) s = .next { s with busData := .bytes [s.mem.read a.toNat] } := by
  obtain ⟨hwin, -⟩ := inHostMem_apart hok h
  rw [perform, unlessFaulted_none hf, hostMemRead, hostTarget_hostMem hok h]
  simp [State.bytesFrom, State.byteAt, hwin]

end

/-- Settles O57: the write stores one byte of memory, and the read finds it there. -/
theorem hostMemoryReadsWhatWasWritten : Obligations.HostMemoryReadsWhatWasWritten := by
  intro s a b hf hok h
  refine ⟨_, perform_memWr_hostMem hf hok h b, rfl, ?_, fun x hx => Memory.read_write_ne s.mem b hx⟩
  rw [perform_memRd_hostMem (s := storeBytes a.toNat [b] s) hf hok h, storeBytes_mem, Memory.writeBytes,
    Memory.writeBytes, Memory.read_write_self]

/-! ### Frames -/

/-- Settles O58: the frame of each command, and its memory is the one before it. -/
theorem frameOfCommandsThatStoreNothing : Obligations.FrameOfCommandsThatStoreNothing := by
  intro s t
  refine ⟨fun h => ⟨exec_frame h, fun a => ?_⟩, fun h => ⟨exec_frame h, fun a => ?_⟩,
    fun b h => ⟨exec_frame h, fun a => ?_⟩⟩
  · obtain ⟨-, hmem⟩ := execCrc32_mem h
    rw [hmem]
  · obtain ⟨-, hmem⟩ := execFrReg_mem h
    rw [hmem]
  · obtain ⟨-, hmem⟩ := execFrByte_mem h
    rw [hmem]

section
variable {s t : State} {a : Nat}

/-- COBS.BEGIN stores the placeholder only (41_cobs.md R451). -/
theorem execCobsBegin_read_ne (h : execCobsBegin s = .next t) (ha : a ≠ s.a0.value.toNat) :
    t.mem.read a = s.mem.read a := by
  obtain ⟨-, ⟨r, rfl⟩ | ⟨-, rfl | ⟨-, -, -, rfl⟩⟩⟩ := execCobsBegin_cases h
  · rfl
  · rfl
  · exact Memory.read_write_ne s.mem _ ha

/-- EncPut stores a data byte at the write index, and the code byte when it flushes: for a zero, and for the 254th byte
of a group (41_cobs.md R450). -/
theorem encPut_read_ne {e : Enc} {m : Memory} {b : Byte} (hdata : b ≠ 0 → a ≠ e.out.toNat + e.wi.toNat)
    (hcode : b = 0 ∨ e.code = 0xFE → a ≠ e.out.toNat + e.ci.toNat) : (encPut e m b).mem.read a = m.read a := by
  obtain hm | ⟨hb, hm⟩ | ⟨hb, -, hm⟩ | ⟨hb, -, hff, hm⟩ := encPut_mem e m b
  · rw [hm]
  · rw [hm, Memory.read_write_ne _ _ (hcode (.inl hb))]
  · rw [hm, Memory.read_write_ne _ _ (hdata hb)]
  · have hfe : e.code = 0xFE := by bv_omega
    rw [hm, Memory.read_write_ne _ _ (hcode (.inr hfe)), Memory.read_write_ne _ _ (hdata hb)]

theorem execCobsPut_read_ne {b : Byte} (h : execCobsPut b s = .next t)
    (hdata : b ≠ 0 → a ≠ s.enc.out.toNat + s.enc.wi.toNat)
    (hcode : b = 0 ∨ s.enc.code = 0xFE → a ≠ s.enc.out.toNat + s.enc.ci.toNat) : t.mem.read a = s.mem.read a := by
  obtain ⟨-, ⟨-, rfl⟩ | ⟨-, rfl⟩⟩ := execCobsPut_cases h
  · rfl
  · exact encPut_read_ne hdata hcode

/-- COBS.END stores the last code byte only (41_cobs.md R460). -/
theorem execCobsEnd_read_ne (h : execCobsEnd s = .next t) (ha : a ≠ s.enc.out.toNat + s.enc.ci.toNat) :
    t.mem.read a = s.mem.read a := by
  obtain ⟨-, ⟨-, rfl⟩ | ⟨-, rfl⟩⟩ := execCobsEnd_cases h
  · rfl
  · exact Memory.read_write_ne s.mem _ ha

end

/-- Settles O59: the frame of each command, and the bytes it stores. -/
theorem frameOfTheIncrementalEncoder : Obligations.FrameOfTheIncrementalEncoder := by
  intro s t
  refine ⟨fun h => ⟨exec_frame h, fun a ha => execCobsBegin_read_ne h ha⟩,
    fun b h => ⟨exec_frame h, fun hb a ha => ?_, fun hb a hdata hcode => ?_⟩,
    fun h => ⟨exec_frame h, fun a ha => execCobsEnd_read_ne h ha⟩⟩
  · exact execCobsPut_read_ne h (fun hne => absurd hb hne) fun _ => ha
  · exact execCobsPut_read_ne h (fun _ => hdata) fun hflush => hcode (hflush.resolve_left hb)

end Sys2Proof.Machine
end

section
/-! Proofs about command words (30_encoding.md): the fields of a word, the rows of the opcode table, decode against
encode, the legal words and their number, the issue of a command, and FR.BYTE and FR.REG during a delivery. -/

namespace Sys2Proof

/-! ### The fields of a word -/

/-- A word is its fields RSV, IMM8 and OPC (30_encoding.md R302). -/
theorem append_fields (w : Word) : fieldRsv w ++ fieldImm8 w ++ fieldOpc w = w := by
  unfold fieldRsv fieldImm8 fieldOpc
  have hhigh : w.extractLsb' 16 16 ++ w.extractLsb' 8 8 = w.extractLsb' 8 24 :=
    BitVec.extractLsb'_append_extractLsb'_eq_extractLsb' rfl
  have hword : w.extractLsb' 8 24 ++ w.extractLsb' 0 8 = w.extractLsb' 0 32 :=
    BitVec.extractLsb'_append_extractLsb'_eq_extractLsb' rfl
  rw [hhigh, hword, BitVec.extractLsb'_eq_self]

theorem toNat_fields (rsv : BitVec 16) (imm opc : Byte) :
    (rsv ++ imm ++ opc : Word).toNat = rsv.toNat * 2 ^ 16 + imm.toNat * 2 ^ 8 + opc.toNat := by
  rw [BitVec.toNat_append, BitVec.toNat_append, ← Nat.shiftLeft_add_eq_or_of_lt imm.isLt,
    ← Nat.shiftLeft_add_eq_or_of_lt opc.isLt, Nat.shiftLeft_eq, Nat.shiftLeft_eq]
  omega

/-- IMM8 can be added to a word that has none, in its place (30_encoding.md R302). -/
theorem append_imm8 (rsv : BitVec 16) (imm opc : Byte) :
    (rsv ++ imm ++ opc : Word) = (rsv ++ 0#8 ++ opc : Word) + (imm.zeroExtend 32 <<< 8) := by
  have himm : (imm.zeroExtend 32 <<< 8).toNat = imm.toNat * 2 ^ 8 := by
    rw [BitVec.toNat_shiftLeft, BitVec.toNat_setWidth, Nat.shiftLeft_eq]
    omega
  apply BitVec.eq_of_toNat_eq
  rw [BitVec.toNat_add, himm, toNat_fields, toNat_fields, BitVec.toNat_zero]
  omega

/-- A word is its bits outside IMM8 plus IMM8 in its place (30_encoding.md R302). -/
theorem and_mask_add_imm8 (w : Word) : (w &&& (0xFFFF00FF : Word)) + ((fieldImm8 w).zeroExtend 32 <<< 8) = w := by
  have hmask : (0xFFFF00FF : Word) = (BitVec.allOnes 16 ++ 0#8 ++ BitVec.allOnes 8 : Word) := by decide
  have hmasked : (w &&& (0xFFFF00FF : Word)) = (fieldRsv w ++ 0#8 ++ fieldOpc w : Word) :=
    calc (w &&& (0xFFFF00FF : Word))
        = (fieldRsv w ++ fieldImm8 w ++ fieldOpc w) &&& (BitVec.allOnes 16 ++ 0#8 ++ BitVec.allOnes 8) := by
          rw [append_fields, hmask]
      _ = fieldRsv w ++ 0#8 ++ fieldOpc w := by
          simp only [BitVec.and_append, BitVec.and_allOnes, BitVec.and_zero]
  rw [hmasked, ← append_imm8, append_fields]

/-- The word of a command as 30_encoding.md R306 lists it. -/
theorem encode_eq_add_shift (i : Instr) : encode i = i.opc.zeroExtend 32 + (i.imm8.zeroExtend 32 <<< 8) := by
  have hopc : (0#16 ++ 0#8 ++ i.opc : Word) = i.opc.zeroExtend 32 := by
    apply BitVec.eq_of_toNat_eq
    rw [toNat_fields, BitVec.toNat_setWidth, BitVec.toNat_zero, BitVec.toNat_zero]
    omega
  rw [← hopc]
  exact append_imm8 0 i.imm8 i.opc

/-- The word of every command is legal, with the command's fields (30_encoding.md R302, R305, R306). -/
theorem encodesLegal (i : Instr) : Laws.EncodesLegal.Statement i := by
  cases i with
  | crc32 => exact Laws.EncodesLegal.crc32
  | cobsBegin => exact Laws.EncodesLegal.cobsBegin
  | cobsPut b => exact Laws.EncodesLegal.cobsPut b
  | cobsEnd => exact Laws.EncodesLegal.cobsEnd
  | cobsEnc2 => exact Laws.EncodesLegal.cobsEnc2
  | cobsDec => exact Laws.EncodesLegal.cobsDec
  | frPkt => exact Laws.EncodesLegal.frPkt
  | frByte b => exact Laws.EncodesLegal.frByte b
  | frReg => exact Laws.EncodesLegal.frReg
  | fbBuild id => exact Laws.EncodesLegal.fbBuild id

@[simp] theorem fieldOpc_encode (i : Instr) : fieldOpc (encode i) = i.opc := by
  obtain ⟨-, hopc, -⟩ := encodesLegal i
  exact hopc

@[simp] theorem fieldImm8_encode (i : Instr) : fieldImm8 (encode i) = i.imm8 := by
  obtain ⟨-, -, himm, -⟩ := encodesLegal i
  exact himm

/-! ### The rows of the opcode table -/

/-- The command that a row of the opcode table gives for an operation code and an immediate (30_encoding.md R305). -/
def commandOf (opc imm : Byte) : Option Instr :=
  (opcodeTable.find? fun r => fieldOpc r.pattern == opc).map fun r => r.command imm

/-- OPC and IMM8 determine a command (30_encoding.md R305). -/
theorem commandOf_opc_imm8 (i : Instr) : commandOf i.opc i.imm8 = some i := by
  cases i <;> rfl

theorem encode_injective : Function.Injective encode := by
  intro i j h
  have hopc : i.opc = j.opc := by rw [← fieldOpc_encode, h, fieldOpc_encode]
  have himm : i.imm8 = j.imm8 := by rw [← fieldImm8_encode, h, fieldImm8_encode]
  have hsome : some i = some j := by rw [← commandOf_opc_imm8 i, hopc, himm, commandOf_opc_imm8]
  exact Option.some.inj hsome

/-- Every command stands in the opcode table (30_encoding.md R305). -/
theorem exists_row (i : Instr) : ∃ r ∈ opcodeTable, r.command i.imm8 = i := by
  obtain ⟨r, hfind, hr⟩ := Option.map_eq_some_iff.1 (commandOf_opc_imm8 i)
  exact ⟨r, List.mem_of_find?_eq_some hfind, hr⟩

/-- A row without an operand fixes all 32 bits; a row with one leaves IMM8 open and fixes the rest (30_encoding.md R305,
R306). -/
def OpcodeRow.MaskedBy (r : OpcodeRow) : Prop :=
  (r.mask = 0xFFFFFFFF ∧ ∀ b, encode (r.command b) = r.pattern) ∨
    (r.mask = 0xFFFF00FF ∧ ∀ b, encode (r.command b) = r.pattern + (b.zeroExtend 32 <<< 8))

/-- The masks of the opcode table go with its commands (30_encoding.md R305). -/
theorem opcodeTable_masked : ∀ r ∈ opcodeTable, r.MaskedBy := by
  have hfull : ∀ i : Instr, OpcodeRow.MaskedBy ⟨encode i, 0xFFFFFFFF, fun _ => i⟩ := fun i => .inl ⟨rfl, fun _ => rfl⟩
  have hput : OpcodeRow.MaskedBy ⟨0x00000011, 0xFFFF00FF, .cobsPut⟩ :=
    .inr ⟨rfl, fun b => encode_eq_add_shift (.cobsPut b)⟩
  have hbyte : OpcodeRow.MaskedBy ⟨0x00000021, 0xFFFF00FF, .frByte⟩ :=
    .inr ⟨rfl, fun b => encode_eq_add_shift (.frByte b)⟩
  have hbuild : OpcodeRow.MaskedBy ⟨0x00000030, 0xFFFF00FF, .fbBuild⟩ :=
    .inr ⟨rfl, fun b => encode_eq_add_shift (.fbBuild b)⟩
  simp only [opcodeTable, List.forall_mem_cons]
  exact ⟨hfull .crc32, hfull .cobsBegin, hput, hfull .cobsEnd, hfull .cobsEnc2, hfull .cobsDec, hfull .frPkt, hbyte,
    hfull .frReg, hbuild, List.forall_mem_nil _⟩

/-- A row fits a word exactly when the word is that of the row's command with the word's IMM8. -/
theorem OpcodeRow.fits_iff {r : OpcodeRow} (hr : r ∈ opcodeTable) (w : Word) :
    r.fits w = true ↔ w = encode (r.command (fieldImm8 w)) := by
  rw [OpcodeRow.fits, beq_iff_eq]
  obtain ⟨hmask, hword⟩ | ⟨hmask, hword⟩ := opcodeTable_masked r hr
  · have hall : (0xFFFFFFFF : Word) = BitVec.allOnes 32 := rfl
    rw [hmask, hword, hall, BitVec.and_allOnes]
  · rw [hmask, hword]
    conv_rhs => lhs; rw [← and_mask_add_imm8 w]
    exact (add_left_inj _).symm

/-! ### Decode against encode -/

theorem eq_encode_of_decode {w : Word} {i : Instr} (h : decode w = .ok i) : w = encode i := by
  unfold decode at h
  split at h
  · rename_i r hfind
    cases h
    exact (OpcodeRow.fits_iff (List.mem_of_find?_eq_some hfind) w).1 (by simpa using List.find?_some hfind)
  · cases h

theorem decode_of_fits {w : Word} (h : ∃ r ∈ opcodeTable, r.fits w = true) : ∃ i, decode w = .ok i := by
  obtain ⟨r, hfind⟩ := Option.isSome_iff_exists.1 (List.find?_isSome.2 h)
  exact ⟨_, by rw [decode, hfind]⟩

theorem decode_encode (i : Instr) : decode (encode i) = .ok i := by
  obtain ⟨r, hr, hcommand⟩ := exists_row i
  have hfits : r.fits (encode i) = true := by rw [OpcodeRow.fits_iff hr, fieldImm8_encode, hcommand]
  obtain ⟨j, hj⟩ := decode_of_fits ⟨r, hr, hfits⟩
  rw [hj, encode_injective (eq_encode_of_decode hj)]

/-- Settles O1: a row fits exactly the words of its commands, every command has a row, and encode is injective. -/
theorem decodeIsInverseOfEncode : Obligations.DecodeIsInverseOfEncode := by
  intro w i
  exact ⟨eq_encode_of_decode, fun h => h ▸ decode_encode i⟩

/-- Settles O3: each word is the word of its command. -/
theorem exampleWordsDecode : Obligations.ExampleWordsDecode :=
  ⟨decode_encode .crc32, decode_encode .cobsBegin, decode_encode (.cobsPut 0x41), decode_encode .cobsEnd,
    decode_encode (.frByte 0), decode_encode (.fbBuild 7)⟩

/-! ### The legal words -/

/-- The words that decode are the words of the commands. -/
theorem decodes_iff {w : Word} : (∃ i, decode w = .ok i) ↔ ∃ i, encode i = w := by
  simp only [decodeIsInverseOfEncode w, eq_comm]

/-- The bytes 0x00 to 0xFF. -/
def allBytes : List Byte := (List.finRange 256).map BitVec.ofFin

theorem mem_allBytes (b : Byte) : b ∈ allBytes := List.mem_map.2 ⟨b.toFin, List.mem_finRange _, rfl⟩

theorem allBytes_nodup : allBytes.Nodup :=
  (List.nodup_finRange 256).map fun _ _ h => BitVec.ofFin.inj h

theorem allBytes_length : allBytes.length = 256 := by
  rw [allBytes, List.length_map, List.length_finRange]

/-- The seven commands without an operand (30_encoding.md R305). -/
def plainCommands : List Instr := [.crc32, .cobsBegin, .cobsEnd, .cobsEnc2, .cobsDec, .frPkt, .frReg]

/-- Every command with every immediate (30_encoding.md R305). -/
def allCommands : List Instr :=
  plainCommands ++ allBytes.map .cobsPut ++ allBytes.map .frByte ++ allBytes.map .fbBuild

theorem mem_allCommands (i : Instr) : i ∈ allCommands := by
  cases i <;> simp [allCommands, plainCommands, mem_allBytes]

theorem allCommands_nodup : allCommands.Nodup := by
  have hput : (allBytes.map Instr.cobsPut).Nodup := allBytes_nodup.map fun _ _ h => Instr.cobsPut.inj h
  have hbyte : (allBytes.map Instr.frByte).Nodup := allBytes_nodup.map fun _ _ h => Instr.frByte.inj h
  have hbuild : (allBytes.map Instr.fbBuild).Nodup := allBytes_nodup.map fun _ _ h => Instr.fbBuild.inj h
  have hplain : plainCommands.Nodup := by decide
  rw [allCommands, List.nodup_append, List.nodup_append, List.nodup_append]
  refine ⟨⟨⟨hplain, hput, ?_⟩, hbyte, ?_⟩, hbuild, ?_⟩
  · simp [plainCommands]
  · simp [plainCommands]
  · simp [plainCommands, or_imp, forall_and]

theorem allCommands_length : allCommands.length = 775 := by
  simp [allCommands, plainCommands, allBytes_length]

/-- The words of the commands are those that 30_encoding.md R306 lists. -/
theorem exists_encode_iff_listed (w : Word) : (∃ i, encode i = w) ↔
    w ∈ ([0x00000001, 0x00000010, 0x00000012, 0x00000013, 0x00000014, 0x00000020, 0x00000022] : List Word) ∨
      ∃ b : Byte, w = 0x00000011 + (b.zeroExtend 32 <<< 8) ∨ w = 0x00000021 + (b.zeroExtend 32 <<< 8) ∨
        w = 0x00000030 + (b.zeroExtend 32 <<< 8) := by
  have hplain : plainCommands.map encode =
      [0x00000001, 0x00000010, 0x00000012, 0x00000013, 0x00000014, 0x00000020, 0x00000022] := by decide
  rw [← hplain, List.mem_map]
  constructor
  · rintro ⟨i, rfl⟩
    cases i with
    | cobsPut b => exact .inr ⟨b, .inl (encode_eq_add_shift _)⟩
    | frByte b => exact .inr ⟨b, .inr (.inl (encode_eq_add_shift _))⟩
    | fbBuild id => exact .inr ⟨id, .inr (.inr (encode_eq_add_shift _))⟩
    | crc32 | cobsBegin | cobsEnd | cobsEnc2 | cobsDec | frPkt | frReg => exact .inl ⟨_, by decide, rfl⟩
  · rintro (⟨i, -, hi⟩ | ⟨b, rfl | rfl | rfl⟩)
    · exact ⟨i, hi⟩
    · exact ⟨.cobsPut b, encode_eq_add_shift _⟩
    · exact ⟨.frByte b, encode_eq_add_shift _⟩
    · exact ⟨.fbBuild b, encode_eq_add_shift _⟩

/-- An assigned code has a command for every IMM8 its column allows (30_encoding.md R305, R306). -/
theorem exists_command {opc imm : Byte} (ha : ∃ p ∈ opcodes, p.1 = opc) (himm : imm = 0 ∨ (opc, true) ∈ opcodes) :
    ∃ i : Instr, i.opc = opc ∧ i.imm8 = imm := by
  have hassigned : ∀ p ∈ opcodes, ∃ i : Instr, i.opc = p.1 ∧ i.imm8 = 0 := by
    simp only [opcodes, List.forall_mem_cons]
    exact ⟨⟨.crc32, rfl, rfl⟩, ⟨.cobsBegin, rfl, rfl⟩, ⟨.cobsPut 0, rfl, rfl⟩, ⟨.cobsEnd, rfl, rfl⟩,
      ⟨.cobsEnc2, rfl, rfl⟩, ⟨.cobsDec, rfl, rfl⟩, ⟨.frPkt, rfl, rfl⟩, ⟨.frByte 0, rfl, rfl⟩, ⟨.frReg, rfl, rfl⟩,
      ⟨.fbBuild 0, rfl, rfl⟩, List.forall_mem_nil _⟩
  have hoperand : ∀ p ∈ opcodes, p.2 = true → p.1 = 0x11 ∨ p.1 = 0x21 ∨ p.1 = 0x30 := by simp [opcodes]
  obtain ⟨p, hp, rfl⟩ := ha
  obtain rfl | himm := himm
  · exact hassigned p hp
  · obtain h | h | h := hoperand _ himm rfl
    · exact ⟨.cobsPut imm, h.symm, rfl⟩
    · exact ⟨.frByte imm, h.symm, rfl⟩
    · exact ⟨.fbBuild imm, h.symm, rfl⟩

theorem decodes_iff_checks (w : Word) :
    (∃ i, decode w = .ok i) ↔ opcAssigned w = true ∧ rsvZero w = true ∧ imm8Allowed w = true := by
  rw [decodes_iff]
  constructor
  · rintro ⟨i, rfl⟩
    obtain ⟨hlegal, -⟩ := encodesLegal i
    simpa [legalWord, and_assoc] using hlegal
  · rintro ⟨hopc, hrsv, himm⟩
    obtain ⟨i, hi, hb⟩ := exists_command (by simpa [opcAssigned] using hopc) (by simpa [imm8Allowed] using himm)
    exact ⟨i, by rw [encode, hi, hb, ← eq_of_beq hrsv, append_fields]⟩

end Sys2Proof

namespace Sys2Proof.Machine

/-! ### The issue of a command -/

/-- A write to CMD issues the word (30_encoding.md R300). -/
theorem perform_wr_cmd {s : State} (hf : s.fault = none) (w : Word) : perform (.wr 0x00 32 w) s = issueCommand w s := by
  have hcmd : Reg.forWrite 0x00 32 = some .cmd := Reg.forWrite_offset (r := .cmd) rfl
  rw [perform, unlessFaulted_none hf, hostWrite, hcmd]

theorem issueCommand_ok {w : Word} {i : Instr} (h : decode w = .ok i) (s : State) : issueCommand w s = exec i s := by
  rw [issueCommand, h]

theorem issueCommand_error {w : Word} {e : IllegalWord} (h : decode w = .error e) (s : State) :
    issueCommand w s = .next { s with fault := some (.illegalCommand w) } := by
  rw [issueCommand, h, raise]

/-- Settles O2: the listed words, their number, the three checks, and the fault of any other word. -/
theorem legalWordsAreExactlyTheListed : Obligations.LegalWordsAreExactlyTheListed := by
  refine ⟨fun w => decodes_iff.trans (exists_encode_iff_listed w), ?_, decodes_iff_checks, fun w s hf hillegal => ?_⟩
  · refine ⟨allCommands.map encode, allCommands_nodup.map encode_injective, ?_, fun w => ?_⟩
    · rw [List.length_map, allCommands_length]
    · simp [decodes_iff, mem_allCommands]
  · rw [perform_wr_cmd hf]
    cases h : decode w with
    | ok i => exact absurd ⟨i, h⟩ hillegal
    | error e => exact issueCommand_error h s

/-- Settles O4: the step takes the operation off the list and issues its word. -/
theorem stepPerformsTheIssuedCommand : Obligations.StepPerformsTheIssuedCommand := by
  intro s w rest hf hops
  have hstep : step s = issueCommand w { s with hostOps := rest } := by
    rw [step, hostStep, hops]
    exact perform_wr_cmd (s := { s with hostOps := rest }) hf w
  rw [hstep]
  exact ⟨fun e he => issueCommand_error he _, fun i hi => issueCommand_ok hi _⟩

/-! ### FR.BYTE and FR.REG during a delivery -/

/-- Settles O44: PHASE is checked right after FAULT (30_encoding.md R307), and the word is the command's own. -/
theorem reentryFaults : Obligations.ReentryFaults := by
  intro s hf hp
  have hbyte (b : Byte) : exec (.frByte b) s = raise (.reentrant (encode (.frByte b))) s := by
    show execFrByte b s = _
    rw [execFrByte, unlessFaulted_none hf, unlessDelivering_delivering hp]
  have hreg : exec .frReg s = raise (.reentrant (encode .frReg)) s := by
    show execFrReg s = _
    rw [execFrReg, unlessFaulted_none hf, unlessDelivering_delivering hp]
  refine ⟨fun b => ?_, hreg⟩
  rw [hbyte, encode_eq_add_shift]
  rfl

end Sys2Proof.Machine
end

section
/-! Proofs about the CRC (40_crc.md): the table form against the bit-serial one, the check values, the command CRC32,
and the packet builder FR.PKT, which writes the frame and its CRC encoded (42_framer.md R540 to R543). -/

namespace Sys2Proof.Machine

/-! ### The table form -/

/-- A shift step is linear over the bits (40_crc.md R401). -/
theorem crcShift_xor (c d : Word) : crcShift (c ^^^ d) = crcShift c ^^^ crcShift d := by
  have hshift : (c ^^^ d) >>> 1 = c >>> 1 ^^^ d >>> 1 := BitVec.ushiftRight_xor_distrib c d 1
  unfold crcShift
  rw [BitVec.getLsbD_xor, hshift]
  cases c.getLsbD 0 <;> cases d.getLsbD 0
  · rfl
  · exact BitVec.xor_assoc _ _ _
  · show c >>> 1 ^^^ d >>> 1 ^^^ crcPoly = c >>> 1 ^^^ crcPoly ^^^ d >>> 1
    ac_rfl
  · show c >>> 1 ^^^ d >>> 1 = c >>> 1 ^^^ crcPoly ^^^ (d >>> 1 ^^^ crcPoly)
    rw [BitVec.xor_comm (d >>> 1) crcPoly, BitVec.xor_assoc, ← BitVec.xor_assoc crcPoly, BitVec.xor_self,
      BitVec.zero_xor]

theorem crcShift8_xor (c d : Word) : crcShift8 (c ^^^ d) = crcShift8 c ^^^ crcShift8 d := by
  simp only [crcShift8, crcShift_xor]

/-- Shift steps that meet no set bit only shift (40_crc.md R401). -/
theorem crcShift_iterate_of_low_clear {c : Word} {n : Nat} (h : ∀ j < n, c.getLsbD j = false) :
    crcShift^[n] c = c >>> n := by
  induction n with
  | zero => simp
  | succ n ih =>
    have hbit : (c >>> n).getLsbD 0 = false := by simpa using h n n.lt_succ_self
    rw [Function.iterate_succ_apply', ih fun j hj => h j (hj.trans n.lt_succ_self), crcShift, hbit,
      if_neg Bool.false_ne_true, ← BitVec.shiftRight_add]

theorem crcShift8_of_low_clear {c : Word} (h : ∀ j < 8, c.getLsbD j = false) : crcShift8 c = c >>> 8 :=
  crcShift_iterate_of_low_clear h

/-- A byte has nothing above its eight bits. -/
theorem zeroExtend_ushiftRight_eight (b : Byte) : b.zeroExtend 32 >>> 8 = 0#32 := by
  apply BitVec.eq_of_getLsbD_eq
  intro i hi
  simp

/-- The low byte of the register, as the index of the table takes it (40_crc.md R402). -/
def lowByte (c : Word) : Word := (c.extractLsb' 0 8).zeroExtend 32

theorem xor_lowByte_low_clear (c : Word) : ∀ j < 8, (c ^^^ lowByte c).getLsbD j = false := fun j hj => by
  simp [lowByte, hj, show j < 32 by omega]

theorem xor_lowByte_ushiftRight_eight (c : Word) : (c ^^^ lowByte c) >>> 8 = c >>> 8 := by
  rw [BitVec.ushiftRight_xor_distrib, lowByte, zeroExtend_ushiftRight_eight, BitVec.xor_zero]

/-- Eight shift steps move the upper bytes down and put the table entry of the low byte over them (40_crc.md R402). -/
theorem crcShift8_eq_table (c : Word) : crcShift8 c = c >>> 8 ^^^ crcEntry (c.extractLsb' 0 8) :=
  calc crcShift8 c = crcShift8 ((c ^^^ lowByte c) ^^^ lowByte c) := by
        rw [BitVec.xor_assoc, BitVec.xor_self, BitVec.xor_zero]
    _ = crcShift8 (c ^^^ lowByte c) ^^^ crcShift8 (lowByte c) := crcShift8_xor _ _
    _ = c >>> 8 ^^^ crcShift8 (lowByte c) := by
        rw [crcShift8_of_low_clear (xor_lowByte_low_clear c), xor_lowByte_ushiftRight_eight]

/-- One byte by the table is one byte by shift steps: the byte does not reach the bits above the low eight
(40_crc.md R401, R402). -/
theorem crcByteTable_eq_crcByte (c : Word) (b : Byte) : crcByteTable c b = crcByte c b := by
  rw [crcByte, crcShift8_eq_table, BitVec.ushiftRight_xor_distrib, zeroExtend_ushiftRight_eight, BitVec.xor_zero,
    crcByteTable]

/-- Settles O25: both forms fold the same function over the bytes. -/
theorem crcTableFormIsEquivalent : Obligations.CrcTableFormIsEquivalent := by
  intro s
  have hfold : crcByteTable = crcByte := funext₂ crcByteTable_eq_crcByte
  rw [crc32Table, crc32, hfold]

/-! ### The check values and the command CRC32 -/

theorem crc32_nil : crc32 [] = 0 := BitVec.xor_self

/-- Settles O24: three closed computations. -/
theorem crcCheckValues : Obligations.CrcCheckValues :=
  ⟨crc32_nil, by decide +kernel, by decide⟩

/-- Settles O23: every check of the command passes; a span of length 0 names no byte. -/
theorem crc32CommandGivesTheCrc : Obligations.Crc32CommandGivesTheCrc := by
  intro s hready hnull hread
  refine ⟨?_, fun hlen => ?_⟩
  · have hexec : exec .crc32 s = _ := guarded_ready hready _
    rw [hexec, if_neg (Span.nullOk_iff.1 hnull), readFault_none.2 hread, onceAdmitted_none]
    rfl
  · have hempty : s.readSpan (s.span .a0 .a1) = [] := by simp [State.readSpan, State.span, hlen, State.bytesFrom]
    rw [hempty, crc32_nil]

/-! ### The packet builder -/

/-- What a packet encodes: the frame and its CRC, big-endian (42_framer.md R543). -/
def framed (frame : List Byte) : List Byte := frame ++ bytesBe32 (crc32 frame)

theorem packetOf_eq (frame : List Byte) : packetOf frame = cobsEnc (framed frame) ++ [0] := rfl

/-- FR.PKT past its checks: the encoding into all of the packet span but one byte succeeds and the delimiter follows it,
or it fails and the span is unspecified (42_framer.md R540, R541). -/
theorem exec_frPkt_admitted {s : State} (h : s.ready .frPkt) (hpass : s.statusChecksPass .frPkt)
    (hin : s.readableSpan (s.span .a0 .a1)) (hout : s.writableSpan (s.span .a2 .a3))
    (hapart : (s.span .a2 .a3).apart (s.span .a0 .a1)) :
    (∀ len u, encodeSpan (s.span .a2 .a3).ptr ((s.span .a2 .a3).len - 1) (framed (s.readSpan (s.span .a0 .a1))) s =
        some (len, u) →
      exec .frPkt s = .next (completeWith (len + 1) (storeBytes ((s.span .a2 .a3).ptr.toNat + len.toNat) [0] u))) ∧
    (encodeSpan (s.span .a2 .a3).ptr ((s.span .a2 .a3).len - 1) (framed (s.readSpan (s.span .a0 .a1))) s = none →
      exec .frPkt s = .next (complete .invalidParameter (scrambleSpan (s.span .a2 .a3) s))) := by
  obtain ⟨hframe, hpacket, hroom⟩ := hpass
  have hcap : ¬ (s.span .a2 .a3).len < 2 := Nat.not_lt.2 hroom
  have hadmitted : copyFault s [s.span .a0 .a1] (s.span .a2 .a3) = none :=
    copyFault_none.2 ⟨by simpa using hin, hout, by simpa using hapart⟩
  have hexec : exec .frPkt s = _ := guarded_ready h _
  dsimp only at hexec
  rw [if_neg (not_or.2 ⟨hframe, hpacket⟩), if_neg hcap, hadmitted, onceAdmitted_none, ← framed] at hexec
  exact ⟨fun len u he => by rw [hexec, he], fun he => by rw [hexec, he]⟩

/-- A byte stored behind a run of bytes makes the run one longer. -/
theorem Memory.read_write_append {m : Memory} {a : Nat} {bs : List Byte} (b : Byte)
    (h : ∀ k (hk : k < bs.length), m.read (a + k) = bs[k]) (k : Nat) (hk : k < (bs ++ [b]).length) :
    (m.write (a + bs.length) b).read (a + k) = (bs ++ [b])[k] := by
  rw [List.length_append, List.length_singleton] at hk
  obtain hlt | rfl := Nat.lt_succ_iff_lt_or_eq.1 hk
  · rw [Memory.read_write_ne _ _ (by omega), h k hlt, List.getElem_append_left hlt]
  · rw [Memory.read_write_self, List.getElem_concat_length rfl]

/-- Making a span unspecified leaves a draw in each of its bytes and every other byte as it was (00_scope.md R24). -/
theorem scrambleSpan_read (p : Span) (s : State) :
    (∀ k < p.len.toNat, (scrambleSpan p s).mem.read (p.ptr.toNat + k) = Config.freeByte (s.draws + k)) ∧
      ∀ a, p.misses a → (scrambleSpan p s).mem.read a = s.mem.read a := by
  constructor
  · intro k hk
    rw [scrambleSpan_mem, Memory.read_writeBytes_inside _ _ _ _ (by simpa using hk), freeBytes_getElem]
  · intro a ha
    exact Memory.read_writeBytes_outside _ _ _ _ (by simpa [Span.misses] using ha)

/-- Settles O45: the packet fits exactly when its encoding fits the capacity less one (42_framer.md R541);
`encodeSpan_spec` gives the encoding, and the delimiter goes behind it. -/
theorem pktCommandBuildsThePacket : Obligations.PktCommandBuildsThePacket := by
  intro s hready hpass hin hout hapart
  obtain ⟨hencoded, hfailed⟩ := exec_frPkt_admitted hready hpass hin hout hapart
  obtain ⟨-, -, hroom⟩ := hpass
  generalize s.readSpan (s.span .a0 .a1) = frame at hencoded hfailed ⊢
  simp only [State.span, State.arg] at hencoded hfailed hroom ⊢
  have hcap : (s.a3.value - 1).toNat = s.a3.value.toNat - 1 := by bv_omega
  obtain ⟨hfits, hfull⟩ := encodeSpan_spec (out := s.a2.value) (cap := s.a3.value - 1) (by bv_omega) (framed frame) s
  have hlen : (packetOf frame).length = (cobsEnc (framed frame)).length + 1 := by simp [packetOf_eq]
  obtain hle | hlt := le_or_gt (packetOf frame).length s.a3.value.toNat
  · obtain ⟨m, he, hbytes, hframe, -, -⟩ := hfits (by omega)
    have hnat : (BitVec.ofNat 32 (cobsEnc (framed frame)).length).toNat = (cobsEnc (framed frame)).length := by
      rw [BitVec.toNat_ofNat, Nat.mod_eq_of_lt (by omega)]
    refine ⟨_, hencoded _ _ he, fun _ => ?_, fun hlt => absurd hle (Nat.not_le.2 hlt)⟩
    rw [hnat]
    refine ⟨?_, Memory.read_write_append 0 hbytes, fun a ha => ?_⟩
    · rw [hlen, BitVec.ofNat_add]
      rfl
    · exact (Memory.read_write_ne _ _ (by omega)).trans (hframe a (by omega))
  · obtain ⟨hdraws, hframe⟩ := scrambleSpan_read (s.span .a2 .a3) s
    exact ⟨_, hfailed (hfull (by omega)), fun hle => absurd hlt (Nat.not_lt.2 hle),
      fun _ => ⟨rfl, hdraws, hframe⟩⟩

end Sys2Proof.Machine
end

section
/-! Proofs about COBS (41_cobs.md): the encoding of R470 and its decoding as functions, the in-place decoder of R475 and
COBS.DEC, the encoder context with COBS.BEGIN, COBS.PUT and COBS.END, and COBS.ENC2. -/

namespace Sys2Proof.Machine

/-! ### The bytes of an encoding -/

/-- A code byte counts the at most 254 data bytes behind it and itself (41_cobs.md R470). -/
theorem codeByte_toNat {n : Nat} (h : n ≤ 254) : (BitVec.ofNat 8 (n + 1)).toNat = n + 1 := by
  rw [BitVec.toNat_ofNat, Nat.mod_eq_of_lt (by omega)]

theorem codeByte_ne_zero {n : Nat} (h : n ≤ 254) : BitVec.ofNat 8 (n + 1) ≠ 0 := fun h0 => by
  have := congrArg BitVec.toNat h0
  rw [codeByte_toNat h] at this
  simp at this

theorem codeByte_eq_full {n : Nat} (h : n ≤ 254) : BitVec.ofNat 8 (n + 1) = 0xFF ↔ n = 254 := by
  rw [← BitVec.toNat_inj, codeByte_toNat h]
  simp

/-- Every code byte is of the form that a group of at most 254 data bytes has. -/
theorem codeByte_of_ne_zero {c : Byte} (h : c ≠ 0) : c.toNat - 1 ≤ 254 ∧ c = BitVec.ofNat 8 (c.toNat - 1 + 1) := by
  have hpos : 0 < c.toNat := BitVec.toNat_pos_of_ne_zero h
  have hlt := c.isLt
  refine ⟨by omega, ?_⟩
  rw [Nat.sub_add_cancel hpos, BitVec.ofNat_toNat, BitVec.setWidth_eq]

/-- A group has no zero byte if its data has none (41_cobs.md R471). -/
theorem zero_notMem_group {q r : List Byte} (hl : q.length ≤ 254) (hq : (0 : Byte) ∉ q) (hr : (0 : Byte) ∉ r) :
    (0 : Byte) ∉ BitVec.ofNat 8 (q.length + 1) :: (q ++ r) := by
  simp only [List.mem_cons, List.mem_append, not_or]
  exact ⟨(codeByte_ne_zero hl).symm, hq, hr⟩

/-- The encoding of a run of 254 bytes, its code byte in the form of the other groups' (41_cobs.md R470). -/
theorem cobsEnc_run_codeByte {q : List Byte} (hq : (0 : Byte) ∉ q) (h : q.length = 254) (s : List Byte) :
    cobsEnc (q ++ s) = BitVec.ofNat 8 (q.length + 1) :: (q ++ cobsEnc s) := by
  rw [cobsEnc_run hq h, (codeByte_eq_full h.le).2 h]

/-- Settles O32: by induction over the groups. -/
theorem encodingHasNoZero : Obligations.EncodingHasNoZero := by
  intro s
  induction s using cobs_induction with
  | short q hq hl =>
    rw [cobsEnc_short hq hl]
    simpa using zero_notMem_group hl.le hq List.not_mem_nil
  | zero q r hq hl ih =>
    rw [cobsEnc_zero hq hl]
    exact zero_notMem_group hl.le hq ih
  | run q r hq hl ih =>
    rw [cobsEnc_run_codeByte hq hl]
    exact zero_notMem_group hl.le hq ih

/-- Settles O46: a packet is an encoding and the delimiter. -/
theorem packetHasOneZeroAtItsEnd : Obligations.PacketHasOneZeroAtItsEnd :=
  fun frame => ⟨_, packetOf_eq frame, encodingHasNoZero _⟩

/-! ### Decoding, group by group -/

/-- What a finished group of data bytes `q` and the decoding `d` of what follows it stand for: a zero between them unless
the group is a 254-run (41_cobs.md R475). -/
def joinGroup (q d : List Byte) : List Byte := if q.length = 254 then q ++ d else q ++ 0 :: d

/-- Past the data bytes of a group the input ends or goes on with a group (41_cobs.md R475). -/
theorem decodeRest_groupEnd (code : Byte) {rest : List Byte} (h : rest ≠ []) :
    decodeRest 0 code rest = (cobsDec rest).map fun d => if code = 0xFF then d else 0 :: d := by
  cases rest with
  | nil => exact absurd rfl h
  | cons b rest =>
    by_cases hb : b = 0
    · simp [decodeRest, cobsDec, hb]
    · exact decodeRest_next hb code rest

section
variable {q : List Byte} (hq : (0 : Byte) ∉ q) (hl : q.length ≤ 254)
include hq hl

theorem cobsDec_group (rest : List Byte) :
    cobsDec (BitVec.ofNat 8 (q.length + 1) :: (q ++ rest)) =
      (decodeRest 0 (BitVec.ofNat 8 (q.length + 1)) rest).map (q ++ ·) := by
  rw [cobsDec, if_neg (codeByte_ne_zero hl), codeByte_toNat hl, Nat.add_sub_cancel, decodeRest_group hq]

/-- The last group stands for its data. -/
theorem cobsDec_lastGroup : cobsDec (BitVec.ofNat 8 (q.length + 1) :: q) = some q := by
  simpa [decodeRest] using cobsDec_group hq hl []

/-- A group that another follows. -/
theorem cobsDec_groupThen {rest : List Byte} (h : rest ≠ []) :
    cobsDec (BitVec.ofNat 8 (q.length + 1) :: (q ++ rest)) = (cobsDec rest).map (joinGroup q) := by
  rw [cobsDec_group hq hl, decodeRest_groupEnd _ h, Option.map_map]
  congr 1
  funext d
  simp only [Function.comp_apply, joinGroup, codeByte_eq_full hl]
  split <;> rfl

end

/-- Settles O33: by induction over the groups. -/
theorem decodingInvertsEncoding : Obligations.DecodingInvertsEncoding := by
  intro s
  induction s using cobs_induction with
  | short q hq hl => rw [cobsEnc_short hq hl, cobsDec_lastGroup hq hl.le]
  | zero q r hq hl ih =>
    rw [cobsEnc_zero hq hl, cobsDec_groupThen hq hl.le (cobsEnc_ne_nil r), ih, Option.map_some, joinGroup,
      if_neg hl.ne]
  | run q r hq hl ih =>
    rw [cobsEnc_run_codeByte hq hl, cobsDec_groupThen hq hl.le (cobsEnc_ne_nil r), ih, Option.map_some, joinGroup,
      if_pos hl]

/-- A decoder that has `left` data bytes to come either finds them, none of them zero, or rejects (41_cobs.md R475). -/
theorem decodeRest_data (left : Nat) (code : Byte) (l : List Byte) :
    (∃ q rest, l = q ++ rest ∧ (0 : Byte) ∉ q ∧ q.length = left) ∨ decodeRest left code l = none := by
  induction left generalizing l with
  | zero => exact .inl ⟨[], l, rfl, List.not_mem_nil, rfl⟩
  | succ left ih =>
    cases l with
    | nil => exact .inr (by simp [decodeRest])
    | cons b l =>
      by_cases hb : b = 0
      · exact .inr (by simp [decodeRest, hb])
      obtain ⟨q, rest, rfl, hq, hl⟩ | hnone := ih l
      · exact .inl ⟨b :: q, rest, rfl, List.not_mem_cons_of_ne_of_not_mem (Ne.symm hb) hq, by simp [hl]⟩
      · exact .inr (by simp [decodeRest, hnone])

/-- An accepted sequence begins with a group: a code byte and as many data bytes as it says, none of them zero
(41_cobs.md R475). -/
theorem cobsDec_firstGroup {b s : List Byte} (h : cobsDec b = some s) :
    ∃ q rest, b = BitVec.ofNat 8 (q.length + 1) :: (q ++ rest) ∧ (0 : Byte) ∉ q ∧ q.length ≤ 254 := by
  cases b with
  | nil => cases h
  | cons code l =>
    rw [cobsDec] at h
    split at h
    · cases h
    rename_i hcode
    obtain ⟨hle, hform⟩ := codeByte_of_ne_zero hcode
    obtain ⟨q, rest, rfl, hq, hl⟩ | hnone := decodeRest_data (code.toNat - 1) code l
    · exact ⟨q, rest, by rw [hl, ← hform], hq, by omega⟩
    · rw [hnone] at h
      cases h

/-- The encoding of a group and what it is joined with (41_cobs.md R470). -/
theorem cobsEnc_joinGroup {q : List Byte} (hq : (0 : Byte) ∉ q) (hl : q.length ≤ 254) (d : List Byte) :
    cobsEnc (joinGroup q d) = BitVec.ofNat 8 (q.length + 1) :: (q ++ cobsEnc d) := by
  unfold joinGroup
  split
  · exact cobsEnc_run_codeByte hq ‹_› d
  · exact cobsEnc_zero hq (by omega) d

/-- Settles O34: by induction on the length, taking off the first group; the final group 01 is missing exactly when the
last group is a 254-run. -/
theorem decodableIsEncodingOrEndsInFullRun : Obligations.DecodableIsEncodingOrEndsInFullRun := by
  intro b
  induction hn : b.length using Nat.strong_induction_on generalizing b with
  | _ n ih =>
  subst hn
  intro s h
  obtain ⟨q, rest, rfl, hq, hl⟩ := cobsDec_firstGroup h
  by_cases hrest : rest = []
  · rw [hrest, List.append_nil] at h ⊢
    rw [cobsDec_lastGroup hq hl, Option.some.injEq] at h
    subst h
    obtain hlt | hfull := Nat.lt_or_eq_of_le hl
    · exact .inl (cobsEnc_short hq hlt).symm
    · have henc := cobsEnc_run_codeByte hq hfull []
      rw [List.append_nil] at henc
      exact .inr henc.symm
  · rw [cobsDec_groupThen hq hl hrest] at h
    obtain ⟨d, hd, rfl⟩ := Option.map_eq_some_iff.1 h
    rw [cobsEnc_joinGroup hq hl]
    obtain heq | heq := ih rest.length (by simp) rest rfl d hd
    · exact .inl (by rw [← heq])
    · exact .inr (by rw [← heq, List.cons_append, List.append_assoc])

/-! ### Decoding in place -/

/-- What the in-place decoder has still to read when its read index is `r`: the bytes `B[r..n)` (41_cobs.md R475). -/
def inputFrom (B : List Byte) (n r : Nat) : List Byte := (B.take n).drop r

theorem inputFrom_cons {B : List Byte} {n r : Nat} (hn : n ≤ B.length) (hr : r < n) :
    inputFrom B n r = B.getD r 0 :: inputFrom B n (r + 1) := by
  have hlt : r < (B.take n).length := by simpa using ⟨hr, by omega⟩
  rw [inputFrom, List.drop_eq_getElem_cons hlt, List.getElem_take, List.getD_eq_getElem _ _ (by omega), inputFrom]

@[simp] theorem inputFrom_self (B : List Byte) (n : Nat) : inputFrom B n n = [] := by
  simp [inputFrom]

/-- The in-place decoder over the buffer `B` with the read index at `r`, when `out` is what it has put out: those bytes are
at the front and the rest of the buffer is as it was (41_cobs.md R476). -/
def Dec.decoded (B out : List Byte) (r : Nat) : Dec := ⟨out ++ B.drop out.length, r, out.length⟩

/-- The decoder never reads a byte that it has overwritten (41_cobs.md R476). -/
theorem Dec.decoded_at {B out : List Byte} {r : Nat} (h : out.length ≤ r) :
    (Dec.decoded B out r).at r = B.getD r 0 := by
  simp only [Dec.at, Dec.decoded, List.getD_eq_getElem?_getD]
  rw [List.getElem?_append_right h, List.getElem?_drop, Nat.add_sub_cancel' h]

theorem Dec.decoded_emit {B out : List Byte} (h : out.length < B.length) (r : Nat) (v : Byte) :
    (Dec.decoded B out r).emit v = Dec.decoded B (out ++ [v]) r := by
  simp only [Dec.emit, Dec.decoded, List.length_append, List.length_singleton, Dec.mk.injEq, and_self, and_true]
  rw [List.set_append_right _ _ le_rfl, Nat.sub_self, List.drop_eq_getElem_cons h, List.set_cons_zero,
    List.append_assoc, List.singleton_append]

/-- The copy of one data byte (41_cobs.md R475). -/
theorem decodeGroup_succ {B out : List Byte} {n r : Nat} (hout : out.length ≤ r) (hB : out.length < B.length)
    (k : Nat) :
    decodeGroup n (k + 1) (Dec.decoded B out r) =
      if r = n then none
      else if B.getD r 0 = 0 then none
      else decodeGroup n k (Dec.decoded B (out ++ [B.getD r 0]) (r + 1)) := by
  have hemit := Dec.decoded_emit hB r (B.getD r 0)
  have hat := Dec.decoded_at (B := B) hout
  simp only [decodeGroup, show (Dec.decoded B out r).r = r from rfl, hat, hemit]
  rfl

/-- The end of the input ends the decoding (41_cobs.md R475). -/
theorem decodeLoop_end (B out : List Byte) (n fuel : Nat) :
    decodeLoop n fuel (Dec.decoded B out n) = some (Dec.decoded B out n) := by
  cases fuel with
  | zero => exact if_neg (lt_irrefl n)
  | succ fuel => exact if_neg (lt_irrefl n)

section
variable {B : List Byte} {n : Nat} (hn : n ≤ B.length)
include hn

/-- The copy of a group's data bytes in place: they go behind what was put out; where they are not all there, or one is
zero, the decoder into a second buffer rejects too (41_cobs.md R475). -/
theorem decodeGroup_decoded (k : Nat) (code : Byte) {out : List Byte} {r : Nat} (hr : r ≤ n) (hout : out.length < r) :
    (∃ q, inputFrom B n r = q ++ inputFrom B n (r + k) ∧ (0 : Byte) ∉ q ∧ q.length = k ∧ r + k ≤ n ∧
      decodeGroup n k (Dec.decoded B out r) = some (Dec.decoded B (out ++ q) (r + k))) ∨
    (decodeGroup n k (Dec.decoded B out r) = none ∧ decodeRest k code (inputFrom B n r) = none) := by
  induction k generalizing out r with
  | zero => exact .inl ⟨[], rfl, List.not_mem_nil, rfl, hr, by simp [decodeGroup]⟩
  | succ k ih =>
    rw [decodeGroup_succ hout.le (by omega)]
    by_cases hend : r = n
    · exact .inr ⟨if_pos hend, by simp [hend, decodeRest]⟩
    rw [if_neg hend, inputFrom_cons hn (by omega), decodeRest]
    by_cases hb : B.getD r 0 = 0
    · exact .inr ⟨if_pos hb, if_pos hb⟩
    rw [if_neg hb, if_neg hb]
    obtain ⟨q, hin, hq, hl, hle, hgroup⟩ | ⟨hgroup, hrest⟩ :=
      ih (out := out ++ [B.getD r 0]) (r := r + 1) (by omega) (by simpa using hout)
    · have hidx : r + 1 + k = r + (k + 1) := by omega
      rw [hidx] at hin hle hgroup
      refine .inl ⟨B.getD r 0 :: q, by rw [hin, List.cons_append],
        List.not_mem_cons_of_ne_of_not_mem (Ne.symm hb) hq, by rw [List.length_cons, hl], hle, ?_⟩
      rw [hgroup, List.append_assoc, List.singleton_append]
    · exact .inr ⟨hgroup, by rw [hrest]; rfl⟩

/-- The groups from the read index on: the in-place decoder puts their decoding behind what it has put out, or rejects
them as the decoder into a second buffer does (41_cobs.md R475, R476). -/
theorem decodeLoop_decoded {fuel : Nat} {out : List Byte} {r : Nat} (hr : r < n) (hout : out.length ≤ r)
    (hfuel : n - r ≤ fuel) :
    decodeLoop n fuel (Dec.decoded B out r) =
      (cobsDec (inputFrom B n r)).map fun d => Dec.decoded B (out ++ d) n := by
  induction fuel generalizing out r with
  | zero => omega
  | succ fuel ih =>
    have hloop : decodeLoop n (fuel + 1) (Dec.decoded B out r) =
        if B.getD r 0 = 0 then none
        else (decodeGroup n ((B.getD r 0).toNat - 1) (Dec.decoded B out (r + 1))).bind fun d =>
          decodeLoop n fuel (if B.getD r 0 ≠ 0xFF ∧ d.r < n then d.emit 0 else d) := by
      rw [← Dec.decoded_at (B := B) hout]
      exact if_pos hr
    rw [hloop, inputFrom_cons hn hr, cobsDec]
    by_cases hcode : B.getD r 0 = 0
    · rw [if_pos hcode, if_pos hcode, Option.map_none]
    rw [if_neg hcode, if_neg hcode]
    generalize B.getD r 0 = code
    obtain ⟨q, hin, hq, hl, hend, hgroup⟩ | ⟨hgroup, hrest⟩ :=
      decodeGroup_decoded hn (code.toNat - 1) code (out := out) (r := r + 1) hr (by omega)
    · generalize hr' : r + 1 + (code.toNat - 1) = r' at *
      have hroom : (out ++ q).length < r' := by rw [List.length_append]; omega
      rw [hgroup, Option.bind_some, hin, ← hl, decodeRest_group hq]
      obtain rfl | hlt := Nat.eq_or_lt_of_le hend
      · rw [if_neg (fun h => lt_irrefl _ h.2), decodeLoop_end, inputFrom_self]
        simp [decodeRest]
      rw [decodeRest_groupEnd code (by rw [inputFrom_cons hn hlt]; exact List.cons_ne_nil _ _)]
      by_cases hfull : code = 0xFF
      · rw [if_neg (fun h => h.1 hfull), ih hlt hroom.le (by omega)]
        simp only [Option.map_map, Function.comp_def, if_pos hfull, List.append_assoc]
      · rw [if_pos ⟨hfull, hlt⟩, Dec.decoded_emit (by omega), ih hlt (by rwa [List.length_append]) (by omega)]
        simp only [Option.map_map, Function.comp_def, if_neg hfull, List.append_assoc, List.singleton_append]
    · rw [hgroup, hrest]
      rfl

end

/-- Settles O35: the decoder's buffer is its output so far and the rest of its input (`Dec.decoded`), from the first group
to the last. -/
theorem inPlaceDecodingIsDecoding : Obligations.InPlaceDecodingIsDecoding := by
  intro b rest
  obtain rfl | hb := eq_or_ne b []
  · rfl
  have hpos := List.length_pos_of_ne_nil hb
  have hloop := decodeLoop_decoded (B := b ++ rest) (n := b.length) (fuel := b.length) (out := []) (r := 0)
    (by simp) hpos le_rfl (Nat.sub_le _ _)
  rw [cobsDecode, if_neg hpos.ne', show (⟨b ++ rest, 0, 0⟩ : Dec) = Dec.decoded (b ++ rest) [] 0 from rfl, hloop,
    Option.map_map, inputFrom, List.take_left, List.drop_zero]
  rfl

/-! ### COBS.DEC -/

/-- A buffer is decoded in place as its bytes decode, and the bytes past the decoded length stay (41_cobs.md R476). -/
theorem cobsDecode_self (b : List Byte) :
    cobsDecode b b.length = (cobsDec b).map fun d => (d ++ b.drop d.length, d.length) := by
  simpa using inPlaceDecodingIsDecoding b []

/-- COBS.DEC past its checks: the decoded bytes go to the front of the buffer, or the buffer is unspecified
(41_cobs.md R480). -/
theorem exec_cobsDec_admitted {s : State} (h : s.ready .cobsDec) (hpass : s.statusChecksPass .cobsDec)
    (hout : s.writableSpan (s.span .a0 .a1)) :
    (∀ d, cobsDec (s.readSpan (s.span .a0 .a1)) = some d →
      exec .cobsDec s =
        .next (completeWith (BitVec.ofNat 32 d.length) (storeBytes (s.span .a0 .a1).ptr.toNat d s))) ∧
    (cobsDec (s.readSpan (s.span .a0 .a1)) = none →
      exec .cobsDec s = .next (complete .cobsDecodeFailed (scrambleSpan (s.span .a0 .a1) s))) := by
  obtain ⟨hlen, hptr⟩ := hpass
  have hsize : (s.readSpan (s.span .a0 .a1)).length = (s.span .a0 .a1).len.toNat := bytesFrom_length _ _ _
  have hexec : exec .cobsDec s = _ := guarded_ready h _
  dsimp only at hexec
  rw [if_neg hlen, if_neg hptr, writeFault_none.2 hout, onceAdmitted_none, ← hsize, cobsDecode_self] at hexec
  constructor
  · intro d hd
    rw [hexec, hd]
    simp
  · intro hnone
    rw [hexec, hnone]
    rfl

/-- A failed status check of COBS.DEC (41_cobs.md R480). -/
theorem exec_cobsDec_failed {s : State} (h : s.ready .cobsDec) (hnot : ¬ s.statusChecksPass .cobsDec) :
    exec .cobsDec s =
      .next (complete (if (s.arg .a1).value = 0 then .cobsDecodeFailed else .invalidParameter) s) := by
  rw [failedStatusChecksHaveNoEffect .cobsDec s h hnot]
  exact congrArg _ (checksFailed_cobsDec s)

/-- Settles O36: the length is checked before the pointer; past the checks the command decodes as `cobsDec`. -/
theorem decCommandDecodesInPlace : Obligations.DecCommandDecodesInPlace := by
  intro s h
  refine ⟨fun hlen => ?_, fun hlen hptr => ?_, fun hlen hptr hout => ?_⟩
  · rw [exec_cobsDec_failed h (fun hpass => hpass.1 hlen), if_pos hlen]
    rfl
  · rw [exec_cobsDec_failed h (fun hpass => hpass.2 hptr), if_neg hlen]
    rfl
  · obtain ⟨hdecoded, hfailed⟩ := exec_cobsDec_admitted h ⟨hlen, hptr⟩ hout
    obtain ⟨hdraws, hframe⟩ := scrambleSpan_read (s.span .a0 .a1) s
    exact ⟨hdecoded, fun hnone => ⟨_, hfailed hnone, rfl, hdraws, hframe⟩⟩

/-! ### COBS.BEGIN, COBS.PUT and COBS.END -/

/-- COBS.BEGIN past its checks (41_cobs.md R451). -/
theorem exec_cobsBegin_admitted {s : State} (h : s.ready .cobsBegin) (hpass : s.statusChecksPass .cobsBegin)
    (hout : s.writableSpan (s.span .a0 .a1)) :
    exec .cobsBegin s = .next (complete .ok
      (withEnc (encBegin (s.arg .a0).value (s.arg .a1).value (Config.freeByte s.draws) s.mem)
        { s with draws := s.draws + 1 })) := by
  have hexec : exec .cobsBegin s = _ := guarded_ready h _
  dsimp only at hexec
  rw [hexec, if_neg (not_or.2 hpass), writeFault_none.2 hout, onceAdmitted_none]
  rfl

/-- Settles O26: past its checks the command is EncBegin; a failed check leaves the context Failed. -/
theorem cobsBeginOpensTheContext : Obligations.CobsBeginOpensTheContext := by
  intro s h
  refine ⟨fun hptr hlen hout => exec_cobsBegin_admitted h ⟨hptr, hlen⟩ hout, fun hz => ?_⟩
  have hnot : ¬ s.statusChecksPass .cobsBegin := fun ⟨hptr, hlen⟩ => hz.elim hptr hlen
  rw [failedStatusChecksHaveNoEffect .cobsBegin s h hnot]
  rfl

section
variable {s : State} (hf : s.fault = none)
include hf

/-- COBS.PUT on an active context is EncPut (41_cobs.md R455). -/
theorem exec_cobsPut_active (ha : s.enc.state = .active) (b : Byte) :
    exec (.cobsPut b) s = .next (complete (if (encPut s.enc s.mem b).ok then .ok else .invalidParameter)
      (withEnc (encPut s.enc s.mem b) s)) := by
  show execCobsPut b s = _
  rw [execCobsPut, unlessFaulted_none hf, commandArgs, withArgs_nil, if_neg (not_not.2 ha)]

theorem exec_cobsPut_inactive (ha : s.enc.state ≠ .active) (b : Byte) :
    exec (.cobsPut b) s = .next (complete .invalidParameter s) := by
  show execCobsPut b s = _
  rw [execCobsPut, unlessFaulted_none hf, commandArgs, withArgs_nil, if_pos ha]

/-- COBS.END on an active context is EncEnd (41_cobs.md R460). -/
theorem exec_cobsEnd_active (ha : s.enc.state = .active) :
    exec .cobsEnd s = .next (completeWith s.enc.wi (withEnc (encEnd s.enc s.mem) s)) := by
  show execCobsEnd s = _
  rw [execCobsEnd, unlessFaulted_none hf, commandArgs, withArgs_nil, if_neg (not_not.2 ha)]

theorem exec_cobsEnd_inactive (ha : s.enc.state ≠ .active) :
    exec .cobsEnd s = .next (complete .invalidParameter s) := by
  show execCobsEnd s = _
  rw [execCobsEnd, unlessFaulted_none hf, commandArgs, withArgs_nil, if_pos ha]

end

/-- Settles O28: the two cases of ENC_STATE. -/
theorem cobsEndGivesTheLength : Obligations.CobsEndGivesTheLength :=
  fun _ hf => ⟨exec_cobsEnd_active hf, exec_cobsEnd_inactive hf⟩

/-- EncPut of the 254th data byte of a group (41_cobs.md R450, R456): the byte and the code 0xFF are stored, and the next
group is opened if a slot is left for it. -/
theorem encPut_fullRun {e : Enc} {b : Byte} (ha : e.state = .active) (hb : b ≠ 0) (hc : e.code = 0xFE) (m : Memory) :
    (e.wi.toNat + 1 < e.cap.toNat → encPut e m b =
      ⟨true, { e with ci := e.wi + 1, wi := e.wi + 2, code := 1 },
        (m.write (e.out.toNat + e.wi.toNat) b).write (e.out.toNat + e.ci.toNat) 0xFF⟩) ∧
    (e.wi.toNat + 1 = e.cap.toNat → encPut e m b =
      ⟨false, { e with state := .failed, ci := e.wi + 1, wi := e.wi + 1, code := 0xFF },
        (m.write (e.out.toNat + e.wi.toNat) b).write (e.out.toNat + e.ci.toNat) 0xFF⟩) := by
  have hcap := e.cap.isLt
  have hff : e.code + 1 = 0xFF := by rw [hc]; rfl
  have hnext (h : e.wi.toNat < e.cap.toNat) : (e.wi + 1).toNat = e.wi.toNat + 1 :=
    BitVec.toNat_add_of_lt (by simp; omega)
  constructor
  · intro hroom
    have hlt : e.wi.toNat < e.cap.toNat := by omega
    rw [encPut_run ha hb hlt hff, encFlush_room (by rw [hnext hlt]; exact hroom), hff, BitVec.add_assoc]
    rfl
  · intro hlast
    have hlt : e.wi.toNat < e.cap.toNat := by omega
    rw [encPut_run ha hb hlt hff, encFlush_full (by rw [hnext hlt]; exact hlast.ge), hff]

/-- Settles O27: the status check, then EncPut case by case. -/
theorem cobsPutStores : Obligations.CobsPutStores := by
  intro s b hf
  refine ⟨fun ha => exec_cobsPut_inactive hf ha b, fun ha => ?_⟩
  rw [exec_cobsPut_active hf ha]
  refine ⟨fun hb hfull => ?_, fun hb hroom hc => ?_, fun hb hroom hc => ?_, fun hb hlast hc => ?_,
    fun hb hroom => ?_, fun hb hfull => ?_⟩
  · rw [encPut_full ha hb hfull]
    rfl
  · rw [encPut_data ha hb hroom (fun hff => hc (by bv_omega))]
    rfl
  · rw [(encPut_fullRun ha hb hc s.mem).1 hroom]
    rfl
  · rw [(encPut_fullRun ha hb hc s.mem).2 hlast]
    rfl
  · rw [hb, encPut_flush ha, encFlush_room hroom]
    rfl
  · rw [hb, encPut_flush ha, encFlush_full hfull]
    rfl

/-! ### A whole encoding -/

/-- Commands after commands (20_memory.md R231). -/
theorem execAll_append {is js : List Instr} {s t : State} (h : execAll is s = .next t) :
    execAll (is ++ js) s = execAll js t := by
  induction is generalizing s with
  | nil => cases h; rfl
  | cons i is ih =>
    rw [execAll] at h
    rw [List.cons_append, execAll]
    split at h
    · exact ih h
    · cases h
    · cases h

theorem execAll_cons {i : Instr} {is : List Instr} {s t : State} (h : exec i s = .next t) :
    execAll (i :: is) s = execAll is t := by
  rw [execAll, h]

/-- EncPut over a sequence leaves an active context active, or fails and leaves it Failed (41_cobs.md R450). -/
theorem encPutAll_state {e : Enc} (h : e.state = .active) (m : Memory) (bs : List Byte) :
    ((encPutAll e m bs).ok = true ∧ (encPutAll e m bs).enc.state = .active) ∨
    ((encPutAll e m bs).ok = false ∧ (encPutAll e m bs).enc.state = .failed) := by
  induction bs generalizing e m with
  | nil => exact .inl ⟨rfl, h⟩
  | cons b bs ih =>
    rw [encPutAll]
    obtain ⟨hok, hstate⟩ | ⟨hok, hstate⟩ := encPut_state h m b
    · rw [if_pos hok]
      exact ih hstate _
    · rw [if_neg (by simp [hok])]
      exact .inr ⟨hok, hstate⟩

/-- COBS.PUT of bytes outside Active changes the status at most (41_cobs.md R455). -/
theorem execAll_cobsPut_inactive {s : State} (hf : s.fault = none) (ha : s.enc.state ≠ .active) (bs : List Byte) :
    ∃ c, execAll (bs.map .cobsPut) s = .next (complete c s) := by
  induction bs generalizing s with
  | nil => exact ⟨s.code, rfl⟩
  | cons b bs ih =>
    obtain ⟨c, hc⟩ := ih (s := complete .invalidParameter s) hf ha
    exact ⟨c, (execAll_cons (exec_cobsPut_inactive hf ha b)).trans hc⟩

/-- COBS.PUT of bytes on an active context is EncPut over them: after a failure the rest changes nothing more
(41_cobs.md R455). -/
theorem execAll_cobsPut_active {s : State} (hf : s.fault = none) (ha : s.enc.state = .active) (bs : List Byte) :
    ∃ c, execAll (bs.map .cobsPut) s = .next (complete c (withEnc (encPutAll s.enc s.mem bs) s)) := by
  induction bs generalizing s with
  | nil => exact ⟨s.code, rfl⟩
  | cons b bs ih =>
    rw [List.map_cons, execAll_cons (exec_cobsPut_active hf ha b), encPutAll]
    generalize (if (encPut s.enc s.mem b).ok = true then Status.ok else .invalidParameter) = code
    obtain ⟨hok, hstate⟩ | ⟨hok, hstate⟩ := encPut_state ha s.mem b
    · rw [if_pos hok]
      exact ih (s := complete code (withEnc (encPut s.enc s.mem b) s)) hf hstate
    · rw [if_neg (by simp [hok])]
      exact execAll_cobsPut_inactive (s := complete code (withEnc (encPut s.enc s.mem b) s)) hf
        (by simp [hstate]) bs

/-- EncBegin and EncPut over `bs`, into the span of A0 and A1 (41_cobs.md R450). -/
def encodeInto (s : State) (bs : List Byte) : EncStep :=
  let b := encBegin (s.arg .a0).value (s.arg .a1).value (Config.freeByte s.draws) s.mem
  encPutAll b.enc b.mem bs

theorem encodeInto_state (s : State) (bs : List Byte) :
    ((encodeInto s bs).ok = true ∧ (encodeInto s bs).enc.state = .active) ∨
    ((encodeInto s bs).ok = false ∧ (encodeInto s bs).enc.state = .failed) :=
  encPutAll_state rfl _ bs

/-- COBS.BEGIN and COBS.PUT of each byte. -/
theorem execAll_encodeInto {s : State} (h : s.ready .cobsBegin) (hpass : s.statusChecksPass .cobsBegin)
    (hout : s.writableSpan (s.span .a0 .a1)) (bs : List Byte) :
    ∃ c, execAll (.cobsBegin :: bs.map .cobsPut) s =
      .next (complete c (withEnc (encodeInto s bs) { s with draws := s.draws + 1 })) := by
  rw [execAll_cons (exec_cobsBegin_admitted h hpass hout)]
  exact execAll_cobsPut_active (s := complete .ok
    (withEnc (encBegin (s.arg .a0).value (s.arg .a1).value (Config.freeByte s.draws) s.mem)
      { s with draws := s.draws + 1 })) h.1 rfl bs

section
variable {s : State} {bs : List Byte} (hcap : (s.arg .a1).value ≠ 0)
include hcap

/-- An encoding that fits the capacity (41_cobs.md R467, R470). -/
theorem encodeInto_fits (hfits : (cobsEnc bs).length ≤ (s.arg .a1).value.toNat) :
    (encodeInto s bs).ok = true ∧ (encodeInto s bs).enc.wi.toNat = (cobsEnc bs).length ∧
    (∀ k (h : k < (cobsEnc bs).length),
      (encEnd (encodeInto s bs).enc (encodeInto s bs).mem).mem.read ((s.arg .a0).value.toNat + k) =
        (cobsEnc bs)[k]) ∧
    Memory.Within (s.arg .a0).value.toNat (cobsEnc bs).length s.mem
      (encEnd (encodeInto s bs).enc (encodeInto s bs).mem).mem := by
  obtain ⟨m, hspan, hbytes, hframe⟩ := (encodeSpan_spec (out := (s.arg .a0).value) hcap bs s).1 hfits
  obtain ⟨m', hm, hok, hlen, rfl⟩ := encodeSpan_some hspan
  obtain rfl : m = _ := congrArg State.mem hm
  have hwi : (encodeInto s bs).enc.wi = BitVec.ofNat 32 (cobsEnc bs).length := hlen.symm
  refine ⟨hok, ?_, hbytes, hframe⟩
  rw [hwi, BitVec.toNat_ofNat, Nat.mod_eq_of_lt (hfits.trans_lt (s.arg .a1).value.isLt)]

/-- An encoding that does not fit the capacity (41_cobs.md R456, R467). -/
theorem encodeInto_overflows (hlong : (s.arg .a1).value.toNat < (cobsEnc bs).length) :
    (encodeInto s bs).enc.state = .failed ∧
    Memory.Within (s.arg .a0).value.toNat (s.arg .a1).value.toNat s.mem (encodeInto s bs).mem := by
  have hbegin := encBegin_holds (out := (s.arg .a0).value) hcap (Config.freeByte s.draws) s.mem
  obtain ⟨-, -, -, hfull⟩ := encPutAll_spec hbegin bs
  obtain ⟨-, hstate, hin⟩ := hfull hlong
  have hfirst : Memory.Within (s.arg .a0).value.toNat (s.arg .a1).value.toNat s.mem
      (s.mem.write ((s.arg .a0).value.toNat + 0) (Config.freeByte s.draws)) :=
    Memory.within_write s.mem (BitVec.toNat_pos_of_ne_zero hcap) _
  exact ⟨hstate, hfirst.trans hin⟩

end

/-- Settles O29: every EncPut succeeds exactly when the encoding fits; then COBS.END is EncEnd, and otherwise it finds
the context Failed. -/
theorem incrementalEncodingIsEnc : Obligations.IncrementalEncodingIsEnc := by
  intro s bs h hptr hcap hout
  obtain ⟨c, hputs⟩ := execAll_encodeInto h ⟨hptr, hcap⟩ hout bs
  have hall (t : State) (hend : exec .cobsEnd
      (complete c (withEnc (encodeInto s bs) { s with draws := s.draws + 1 })) = .next t) :
      execAll (.cobsBegin :: bs.map .cobsPut ++ [.cobsEnd]) s = .next t := by
    rw [execAll_append hputs, execAll_cons hend, execAll]
  obtain hfits | hlong := le_or_gt (cobsEnc bs).length (s.arg .a1).value.toNat
  · obtain ⟨hok, hlen, hbytes, hframe, -, -⟩ := encodeInto_fits hcap hfits
    have hactive : (encodeInto s bs).enc.state = .active := by
      simpa [hok] using encodeInto_state s bs
    exact ⟨_, hall _ (exec_cobsEnd_active h.1 hactive), h.1,
      fun _ => ⟨rfl, hlen, rfl, rfl, hbytes, hframe⟩, fun hlong => absurd hfits (Nat.not_le.2 hlong)⟩
  · obtain ⟨hfailed, hframe, -, -⟩ := encodeInto_overflows hcap hlong
    exact ⟨_, hall _ (exec_cobsEnd_inactive h.1 (by simp [hfailed])), h.1,
      fun hfits => absurd hfits (Nat.not_le.2 hlong), fun _ => ⟨rfl, hfailed, rfl, hframe⟩⟩

/-! ### COBS.ENC2 -/

/-- COBS.ENC2 past its checks: the encoding of both inputs succeeds, or the output span is unspecified (41_cobs.md
R465, R466). -/
theorem exec_cobsEnc2_admitted {s : State} (h : s.ready .cobsEnc2) (hpass : s.statusChecksPass .cobsEnc2)
    (hin1 : s.readableSpan (s.span .a0 .a1)) (hin2 : s.readableSpan (s.span .a2 .a3))
    (hout : s.writableSpan (s.span .a4 .a5)) (hapart1 : (s.span .a4 .a5).apart (s.span .a0 .a1))
    (hapart2 : (s.span .a4 .a5).apart (s.span .a2 .a3)) :
    (∀ len u, encodeSpan (s.span .a4 .a5).ptr (s.span .a4 .a5).len
        (s.readSpan (s.span .a0 .a1) ++ s.readSpan (s.span .a2 .a3)) s = some (len, u) →
      exec .cobsEnc2 s = .next (completeWith len u)) ∧
    (encodeSpan (s.span .a4 .a5).ptr (s.span .a4 .a5).len
        (s.readSpan (s.span .a0 .a1) ++ s.readSpan (s.span .a2 .a3)) s = none →
      exec .cobsEnc2 s = .next (complete .invalidParameter (scrambleSpan (s.span .a4 .a5) s))) := by
  obtain ⟨hptr, hcap, hnull1, hnull2⟩ := hpass
  have hadmitted : copyFault s [s.span .a0 .a1, s.span .a2 .a3] (s.span .a4 .a5) = none :=
    copyFault_none.2 ⟨by simpa using ⟨hin1, hin2⟩, hout, by simpa using ⟨hapart1, hapart2⟩⟩
  have hexec : exec .cobsEnc2 s = _ := guarded_ready h _
  dsimp only at hexec
  rw [if_neg (not_or.2 ⟨hptr, hcap⟩), if_neg (Span.nullOk_iff.1 hnull1), if_neg (Span.nullOk_iff.1 hnull2), hadmitted,
    onceAdmitted_none] at hexec
  exact ⟨fun len u he => by rw [hexec, he], fun he => by rw [hexec, he]⟩

/-- Settles O30: `encodeSpan_spec` at the concatenation of the inputs. -/
theorem enc2CommandIsEnc : Obligations.Enc2CommandIsEnc := by
  intro s h hpass hin1 hin2 hout hapart1 hapart2
  obtain ⟨hencoded, hfailed⟩ := exec_cobsEnc2_admitted h hpass hin1 hin2 hout hapart1 hapart2
  obtain ⟨-, hcap, -, -⟩ := hpass
  generalize s.readSpan (s.span .a0 .a1) ++ s.readSpan (s.span .a2 .a3) = bs at hencoded hfailed ⊢
  obtain ⟨hfits, hfull⟩ := encodeSpan_spec (out := (s.span .a4 .a5).ptr) hcap bs s
  obtain hle | hlt := le_or_gt (cobsEnc bs).length (s.arg .a5).value.toNat
  · obtain ⟨m, he, hbytes, hframe, -, -⟩ := hfits hle
    exact ⟨_, hencoded _ _ he, fun _ => ⟨rfl, hbytes, hframe⟩, fun hlt => absurd hle (Nat.not_le.2 hlt)⟩
  · obtain ⟨hdraws, hframe⟩ := scrambleSpan_read (s.span .a4 .a5) s
    exact ⟨_, hfailed (hfull hlt), fun hle => absurd hlt (Nat.not_lt.2 hle), fun _ => ⟨rfl, hdraws, hframe⟩⟩

end Sys2Proof.Machine
end

section
/-! Proofs about the framer (42_framer.md): what FR.BYTE does with a byte of a packet and with a delimiter, runs of bytes
and whole packets, the acknowledgement, and what a delivery keeps. -/

namespace Sys2Proof.Machine

/-! ### What only FR.BYTE writes -/

/-- RXBUF, RX_INDEX, DELIV_LEN and PHASE are in the frame of FR.BYTE alone (42_framer.md R523). -/
theorem exec_keepsFramer {i : Instr} {s t : State} (hi : ∀ b, i ≠ .frByte b) (h : exec i s = .next t) :
    t.rxbuf = s.rxbuf ∧ t.rxIndex = s.rxIndex ∧ t.delivLen = s.delivLen ∧ t.phase = s.phase := by
  rw [exec_frame h]
  cases i with
  | frByte b => exact absurd rfl (hi b)
  | crc32 | cobsBegin | cobsPut b | cobsEnd | cobsEnc2 | cobsDec | frPkt | frReg | fbBuild id =>
    exact ⟨rfl, rfl, rfl, rfl⟩

/-- FR.BYTE during a delivery raises Reentrant (30_encoding.md R307). -/
theorem execFrByte_delivering {b : Byte} {s t : State} (h : execFrByte b s = .next t) (hp : s.phase = .delivering) :
    Raised s t := by
  obtain ⟨-, ⟨-, hraised⟩ | ⟨hidle, -⟩⟩ := execFrByte_cases h
  · exact hraised
  · cases hp.symm.trans hidle

/-- Settles O22: FR.BYTE in a delivery only raises a fault, and no other command has the four fields in its frame. -/
theorem deliveryIsUndisturbedByCommands : Obligations.DeliveryIsUndisturbedByCommands := by
  refine ⟨fun i s t hwhen h => ?_, fun s t h => (congrArg State.enc (exec_frame h) :)⟩
  by_cases hi : ∃ b, i = .frByte b
  · obtain ⟨b, rfl⟩ := hi
    obtain hp | hne := hwhen
    · obtain ⟨r, rfl⟩ := execFrByte_delivering h hp
      exact ⟨rfl, rfl, rfl, rfl⟩
    · exact absurd rfl (hne b)
  · exact exec_keepsFramer (fun b hb => hi ⟨b, hb⟩) h

/-! ### One byte in PHASE Idle -/

/-- FR.BYTE past its guards (42_framer.md R510). -/
theorem exec_frByte {s : State} (hf : s.fault = none) (hp : s.phase = .idle) (b : Byte) :
    exec (.frByte b) s = if b = 0 then frDelimiter s else frAppend b s := by
  show execFrByte b s = _
  rw [execFrByte, unlessFaulted_none hf, unlessDelivering_idle hp, commandArgs, withArgs_nil]

section
variable {s : State} (hf : s.fault = none) (hp : s.phase = .idle)
include hf hp

theorem exec_frByte_zero : exec (.frByte 0) s = frDelimiter s := by
  rw [exec_frByte hf hp, if_pos rfl]

/-- An idle delimiter (42_framer.md R511). -/
theorem exec_frByte_idleDelimiter (hidx : s.rxIndex = 0) : exec (.frByte 0) s = .next (complete .ok s) := by
  rw [exec_frByte_zero hf hp, frDelimiter, if_pos hidx]

/-- An appended byte (42_framer.md R514). -/
theorem exec_frByte_append {b : Byte} (hb : b ≠ 0) (hroom : s.rxIndex ≠ s.cfg.maxPacketSize) :
    exec (.frByte b) s =
      .next (complete .ok { s with rxbuf := s.rxbuf.set s.rxIndex b, rxIndex := s.rxIndex + 1 }) := by
  rw [exec_frByte hf hp, if_neg hb, frAppend, if_neg hroom]

/-- A byte past a full RXBUF (42_framer.md R515). -/
theorem exec_frByte_overflow {b : Byte} (hb : b ≠ 0) (hfull : s.rxIndex = s.cfg.maxPacketSize) :
    exec (.frByte b) s = .next (complete .frameTooLarge { s with rxIndex := 0 }) := by
  rw [exec_frByte hf hp, if_neg hb, frAppend, if_pos hfull]

/-- RX_INDEX turns over after MaxPacketSize + 1 non-zero bytes (42_framer.md R514, R515). -/
theorem exec_frByte_nonzero {b : Byte} (hb : b ≠ 0) (hle : s.rxIndex ≤ s.cfg.maxPacketSize) :
    ∃ t, exec (.frByte b) s = .next t ∧ t.fault = none ∧ t.phase = .idle ∧
      t.rxIndex = (s.rxIndex + 1) % (s.cfg.maxPacketSize + 1) ∧
      t.code = if (s.rxIndex + 1) % (s.cfg.maxPacketSize + 1) = 0 then .frameTooLarge else .ok := by
  obtain hlt | heq := Nat.lt_or_eq_of_le hle
  · have hmod : (s.rxIndex + 1) % (s.cfg.maxPacketSize + 1) = s.rxIndex + 1 := Nat.mod_eq_of_lt (by omega)
    exact ⟨_, exec_frByte_append hf hp hb hlt.ne, hf, hp, hmod.symm, by rw [hmod, if_neg (Nat.succ_ne_zero _)]; rfl⟩
  · have hmod : (s.rxIndex + 1) % (s.cfg.maxPacketSize + 1) = 0 := by rw [heq, Nat.mod_self]
    exact ⟨_, exec_frByte_overflow hf hp hb heq, hf, hp, hmod.symm, by rw [if_pos hmod]; rfl⟩

end

/-- Settles O38: the byte goes to RXBUF at RX_INDEX. -/
theorem frByteAppends : Obligations.FrByteAppends := by
  intro s b hf hp ⟨hlen, _⟩ hb hroom
  refine ⟨_, exec_frByte_append hf hp hb hroom.ne, rfl, List.length_set, ?_, fun k hk => ?_⟩
  · rw [complete_rxbuf, List.getD_eq_getElem?_getD, List.getElem?_set_self (hlen ▸ hroom), Option.getD_some]
  · rw [complete_rxbuf, List.getD_eq_getElem?_getD, List.getElem?_set_ne hk.symm, List.getD_eq_getElem?_getD]

/-- Settles O39: at RX_INDEX = MaxPacketSize the byte is not stored. -/
theorem frByteOverflows : Obligations.FrByteOverflows :=
  fun _ _ hf hp hb hfull => exec_frByte_overflow hf hp hb hfull

/-! ### Runs of bytes -/

/-- Settles O37: after one idle delimiter the state is one that the next leaves as it is. -/
theorem idleDelimiterIsIgnored : Obligations.IdleDelimiterIsIgnored := by
  intro s hf hp hidx
  have hone := exec_frByte_idleDelimiter hf hp hidx
  refine ⟨hone, fun n => ?_⟩
  rw [execAll_cons hone]
  induction n with
  | zero => rfl
  | succ n ih =>
    have hnext : exec (.frByte 0) (complete .ok s) = .next (complete .ok s) := exec_frByte_idleDelimiter hf hp hidx
    rw [List.replicate_succ, execAll_cons hnext, ih]

/-- One byte more at the end of a run of bytes (20_memory.md R231). -/
theorem execAll_frByte_snoc {bs : List Byte} {b : Byte} {s t u : State} (h : execAll (bs.map .frByte) s = .next t)
    (hb : exec (.frByte b) t = .next u) : execAll ((bs ++ [b]).map .frByte) s = .next u := by
  rw [List.map_append, execAll_append h]
  exact execAll_cons hb

/-- Commands keep the construction constants and the receive buffer's invariant (10_state.md R114, R115, R142). -/
theorem execAll_keeps {is : List Instr} {s t : State} (h : execAll is s = .next t) :
    t.cfg = s.cfg ∧ (s.rxInv → t.rxInv) := by
  induction is generalizing s with
  | nil => cases h; exact ⟨rfl, id⟩
  | cons i is ih =>
    rw [execAll] at h
    split at h
    · rename_i u hexec
      obtain ⟨hcfg, hinv⟩ := ih h
      exact ⟨hcfg.trans (exec_cfg hexec), fun hs => hinv (exec_rxInv hs hexec)⟩
    · cases h
    · cases h

section
variable {s : State} (hf : s.fault = none) (hp : s.phase = .idle) (hinv : s.rxInv) (hidx : s.rxIndex = 0)
include hf hp hinv hidx

/-- RX_INDEX counts the non-zero bytes of a run modulo MaxPacketSize + 1 (42_framer.md R516). -/
theorem execAll_frByte_run (bs : List Byte) (hbs : ∀ b ∈ bs, b ≠ 0) :
    ∃ t, execAll (bs.map .frByte) s = .next t ∧ t.fault = none ∧ t.phase = .idle ∧
      t.rxIndex = bs.length % (s.cfg.maxPacketSize + 1) ∧
      (bs ≠ [] → t.code = if bs.length % (s.cfg.maxPacketSize + 1) = 0 then .frameTooLarge else .ok) := by
  induction bs using List.reverseRecOn with
  | nil => exact ⟨s, rfl, hf, hp, hidx, fun hne => absurd rfl hne⟩
  | append_singleton bs b ih =>
    rw [List.forall_mem_append, List.forall_mem_singleton] at hbs
    obtain ⟨u, hu, hfu, hpu, hidxu, -⟩ := ih hbs.1
    obtain ⟨hcfg, hkept⟩ := execAll_keeps hu
    obtain ⟨-, hle, -⟩ := hkept hinv
    obtain ⟨t, ht, hft, hpt, hidxt, hcode⟩ := exec_frByte_nonzero hfu hpu hbs.2 hle
    have hmod : (u.rxIndex + 1) % (u.cfg.maxPacketSize + 1) = (bs ++ [b]).length % (s.cfg.maxPacketSize + 1) := by
      rw [hidxu, hcfg, List.length_append, List.length_singleton, Nat.mod_add_mod]
    rw [hmod] at hidxt hcode
    exact ⟨t, execAll_frByte_snoc hu ht, hft, hpt, hidxt, fun _ => hcode⟩

/-- The bytes of a packet before its delimiter, from an empty RXBUF with room for them: each is appended
(42_framer.md R514). -/
theorem execAll_frByte_body (bs : List Byte) (hbs : (0 : Byte) ∉ bs) (hfits : bs.length ≤ s.cfg.maxPacketSize) :
    ∃ t, execAll (bs.map .frByte) s = .next t ∧ t.fault = none ∧ t.phase = .idle ∧ t.cbValid = s.cbValid ∧
      t.rxIndex = bs.length ∧ t.rxbuf.take bs.length = bs ∧ (bs ≠ [] → t.code = .ok) := by
  induction bs using List.reverseRecOn with
  | nil => exact ⟨s, rfl, hf, hp, rfl, hidx, rfl, fun hne => absurd rfl hne⟩
  | append_singleton bs b ih =>
    simp only [List.mem_append, List.mem_singleton, not_or, List.length_append, List.length_singleton] at hbs hfits ⊢
    obtain ⟨u, hu, hfu, hpu, hvu, hidxu, hbufu, -⟩ := ih hbs.1 (by omega)
    obtain ⟨hcfg, hkept⟩ := execAll_keeps hu
    obtain ⟨hlen, -, -⟩ := hkept hinv
    have hroom : bs.length < u.rxbuf.length := by rw [hlen, hcfg]; omega
    have ht := exec_frByte_append hfu hpu (Ne.symm hbs.2) (by rw [hidxu, hcfg]; omega)
    refine ⟨_, execAll_frByte_snoc hu ht, hfu, hpu, hvu, congrArg (· + 1) hidxu, ?_, fun _ => rfl⟩
    rw [complete_rxbuf, hidxu, List.take_succ_eq_append_getElem (by rwa [List.length_set]), List.getElem_set_self,
      List.take_set_of_le le_rfl, hbufu]

end

/-- Settles O40: RX_INDEX counts the run (`execAll_frByte_run`), and the last byte overflows where the count turns over. -/
theorem overflowsFallEveryMaxPacketSizePlusOne : Obligations.OverflowsFallEveryMaxPacketSizePlusOne := by
  intro bs s hf hp hinv hidx hne hbs
  obtain ⟨t, ht, hft, hpt, hidxt, hcode⟩ := execAll_frByte_run hf hp hinv hidx bs hbs
  exact ⟨t, ht, hft, hpt, hidxt, hcode hne⟩

/-! ### The delimiter that ends a packet -/

/-- The four bytes of a word, big-endian (00_scope.md R21). -/
theorem bytesBe32_be32 (b0 b1 b2 b3 : Byte) : bytesBe32 (be32 b0 b1 b2 b3) = [b0, b1, b2, b3] := by
  have h0 : (be32 b0 b1 b2 b3).extractLsb' 0 8 = b3 := BitVec.extractLsb'_append_eq_right
  have h8 : (be32 b0 b1 b2 b3).extractLsb' 8 8 = b2 :=
    (BitVec.extractLsb'_append_eq_of_le le_rfl).trans BitVec.extractLsb'_append_eq_right
  have h16 : (be32 b0 b1 b2 b3).extractLsb' 16 8 = b1 :=
    (BitVec.extractLsb'_append_eq_of_le (by decide)).trans
      ((BitVec.extractLsb'_append_eq_of_le le_rfl).trans BitVec.extractLsb'_append_eq_right)
  have h24 : (be32 b0 b1 b2 b3).extractLsb' 24 8 = b0 :=
    (BitVec.extractLsb'_append_eq_of_le (by decide)).trans
      ((BitVec.extractLsb'_append_eq_of_le (by decide)).trans BitVec.extractLsb'_append_eq_left)
  rw [bytesBe32, h0, h8, h16, h24]

/-- A word is its four bytes, big-endian (00_scope.md R21). -/
theorem be32_extractLsb' (w : Word) :
    be32 (w.extractLsb' 24 8) (w.extractLsb' 16 8) (w.extractLsb' 8 8) (w.extractLsb' 0 8) = w := by
  have hhigh : w.extractLsb' 24 8 ++ w.extractLsb' 16 8 = w.extractLsb' 16 16 :=
    BitVec.extractLsb'_append_extractLsb'_eq_extractLsb' rfl
  rw [be32, hhigh]
  exact append_fields w

theorem be32_eq_iff {b0 b1 b2 b3 : Byte} {w : Word} : be32 b0 b1 b2 b3 = w ↔ [b0, b1, b2, b3] = bytesBe32 w := by
  constructor
  · rintro rfl
    exact (bytesBe32_be32 b0 b1 b2 b3).symm
  · intro h
    simp only [bytesBe32, List.cons.injEq, and_true] at h
    obtain ⟨rfl, rfl, rfl, rfl⟩ := h
    exact be32_extractLsb' w

/-- The CRC of a decoded packet is the word of its last four bytes (42_framer.md R512). -/
theorem receivedCrc_eq_iff {frame trailer : List Byte} (h : trailer.length = 4) (rest : List Byte) (w : Word) :
    receivedCrc (frame ++ (trailer ++ rest)) (frame.length + 4) = w ↔ trailer = bytesBe32 w := by
  obtain ⟨b0, b1, b2, b3, rfl⟩ : ∃ b0 b1 b2 b3, trailer = [b0, b1, b2, b3] := List.length_eq_four.1 h
  rw [← be32_eq_iff]
  simp [receivedCrc, List.getD_eq_getElem?_getD]

/-- The first bytes of a buffer are decoded in place as they decode (41_cobs.md R475, R476). -/
theorem cobsDecode_take {buf : List Byte} {n : Nat} (h : n ≤ buf.length) :
    cobsDecode buf n = (cobsDec (buf.take n)).map fun d => (d ++ buf.drop d.length, d.length) := by
  simpa [List.length_take_of_le h] using inPlaceDecodingIsDecoding (buf.take n) (buf.drop n)

/-- The state past the CRC check: the frame and its CRC stand at the front of RXBUF (42_framer.md R512, R520). -/
def accepted (d : List Byte) (s : State) : State := { s with rxIndex := 0, rxbuf := d ++ s.rxbuf.drop d.length }

section
variable {s : State} (hlen : s.rxIndex ≤ s.rxbuf.length) (hne : s.rxIndex ≠ 0)
include hlen hne

/-- A packet that does not decode (42_framer.md R512). -/
theorem frDelimiter_undecodable (h : cobsDec (s.rxbuf.take s.rxIndex) = none) :
    frDelimiter s = .next (dropPacket .cobsDecodeFailed s) := by
  rw [frDelimiter, if_neg hne, cobsDecode_take hlen, h, Option.map_none]

/-- A packet too short for a CRC (42_framer.md R512). -/
theorem frDelimiter_short {d : List Byte} (h : cobsDec (s.rxbuf.take s.rxIndex) = some d) (hd : d.length < 4) :
    frDelimiter s = .next (dropPacket .frameHeaderSize s) := by
  rw [frDelimiter, if_neg hne, cobsDecode_take hlen, h, Option.map_some]
  exact if_pos hd

/-- A packet of a frame and four bytes (42_framer.md R512, R520, R521). -/
theorem frDelimiter_framed {frame trailer : List Byte} (h : cobsDec (s.rxbuf.take s.rxIndex) = some (frame ++ trailer))
    (htrailer : trailer.length = 4) :
    frDelimiter s =
      if trailer ≠ bytesBe32 (crc32 frame) then .next (dropPacket .crcMismatch s)
      else if s.cbValid then .next (handOver frame.length (accepted (frame ++ trailer) s))
      else .next (complete .invalidParameter (accepted (frame ++ trailer) s)) := by
  rw [frDelimiter, if_neg hne, cobsDecode_take hlen, h, Option.map_some]
  simp only [List.length_append, htrailer, Nat.add_sub_cancel, ne_eq, eq_comm (a := crc32 _),
    receivedCrc_eq_iff htrailer, List.append_assoc, List.take_left, accepted]
  exact if_neg (by omega)

end

/-- RX_INDEX is reset whatever the packet holds (42_framer.md R512). -/
theorem frDelimiter_rxIndex {s t : State} (h : frDelimiter s = .next t) : t.rxIndex = 0 := by
  obtain ⟨hidx, rfl⟩ | ⟨-, ⟨c, -, rfl⟩ | ⟨buf, w, -, -, ⟨-, rfl⟩ | ⟨-, rfl⟩⟩⟩ := frDelimiter_cases h
  · exact hidx
  · rfl
  · rfl
  · rfl

/-- Settles O41: a delimiter always ends, and each clause's conditions say in which of the cases. -/
theorem delimiterChecksThePacket : Obligations.DelimiterChecksThePacket := by
  intro s hf hp ⟨hsize, hle, _⟩ hne
  have hlen : s.rxIndex ≤ s.rxbuf.length := hsize ▸ hle
  obtain ⟨t, ht⟩ := frDelimiter_ends s
  have hends {u : State} (hu : frDelimiter s = .next u) : t = u :=
    Host.Outcome.next.inj (ht.symm.trans hu)
  refine ⟨t, (exec_frByte_zero hf hp).trans ht, frDelimiter_rxIndex ht, fun hnone => ?_, fun d hd =>
    ⟨fun hshort => ?_, fun frame trailer hsplit htrailer => ?_⟩⟩
  · rw [hends (frDelimiter_undecodable hlen hne hnone)]
    rfl
  · rw [hends (frDelimiter_short hlen hne hd hshort)]
    rfl
  · have hframed := frDelimiter_framed hlen hne (hsplit ▸ hd) htrailer
    refine ⟨fun hwrong => ?_, fun hright => ?_⟩
    · rw [if_pos hwrong] at hframed
      rw [hends hframed]
      rfl
    · rw [if_neg (not_not.2 hright)] at hframed
      have hfront (rest : List Byte) : (frame ++ trailer ++ rest).take frame.length = frame := by
        rw [List.append_assoc, List.take_left]
      by_cases hv : s.cbValid = true
      · rw [if_pos hv] at hframed
        obtain rfl := hends hframed
        exact ⟨hfront _, fun h => absurd (hv.symm.trans h) Bool.noConfusion, fun _ => rfl⟩
      · rw [if_neg hv] at hframed
        obtain rfl := hends hframed
        exact ⟨hfront _, fun _ => rfl, fun h => absurd h hv⟩

/-! ### A whole packet -/

/-- The window shows the front of RXBUF (20_memory.md R215). -/
theorem bytesFrom_rxBase {s : State} {n : Nat} (hlen : s.rxbuf.length = s.cfg.maxPacketSize)
    (hn : n ≤ s.cfg.maxPacketSize) : s.bytesFrom s.cfg.rxBase n = s.rxbuf.take n := by
  refine List.ext_getElem (by simp; omega) fun i hi _ => ?_
  rw [bytesFrom_length] at hi
  rw [bytesFrom_getElem, byteAt_window (by omega), List.getElem_take, List.getD_eq_getElem _ _ (by omega)]

theorem cfg_maxPacketSize_lt {c : Config} (h : c.ok = true) : c.maxPacketSize < 2 ^ 32 := by
  simp only [Config.ok, Config.sizeOk, Bool.and_eq_true, decide_eq_true_eq] at h
  omega

section
variable {s : State} (hf : s.fault = none) (hp : s.phase = .idle) (hinv : s.rxInv) (hidx : s.rxIndex = 0)
  {frame : List Byte} (hfits : (packetOf frame).length ≤ s.cfg.maxPacketSize + 1)
include hf hp hinv hidx hfits

/-- The encoded part of a packet that fits RXBUF is received (42_framer.md R514, R544). -/
theorem execAll_frByte_encoded :
    ∃ u, execAll ((cobsEnc (framed frame)).map .frByte) s = .next u ∧ u.fault = none ∧ u.phase = .idle ∧
      u.cbValid = s.cbValid ∧ u.rxIndex ≠ 0 ∧ u.rxbuf.take u.rxIndex = cobsEnc (framed frame) := by
  rw [packetOf_eq, List.length_append, List.length_singleton] at hfits
  obtain ⟨u, hu, hfu, hpu, hvu, hidxu, hbufu, -⟩ :=
    execAll_frByte_body hf hp hinv hidx _ (encodingHasNoZero (framed frame)) (by omega)
  rw [← hidxu] at hbufu
  exact ⟨u, hu, hfu, hpu, hvu, hidxu ▸ (List.length_pos_of_ne_nil (cobsEnc_ne_nil _)).ne', hbufu⟩

/-- Feeding a packet that fits RXBUF to a registered framer delivers its frame (42_framer.md R544). -/
theorem execAll_frByte_packet (hv : s.cbValid = true) (hok : s.cfg.ok = true) :
    ∃ t, execAll ((packetOf frame).map .frByte) s = .next t ∧ t.fault = none ∧ t.phase = .delivering ∧
      t.delivLen.toNat = frame.length ∧ t.bytesFrom s.cfg.rxBase frame.length = frame := by
  obtain ⟨u, hu, hfu, hpu, hvu, hidxu, hbufu⟩ := execAll_frByte_encoded hf hp hinv hidx hfits
  have hinvu := (execAll_keeps hu).2 hinv
  obtain ⟨t, ht, -, -, hdecoded⟩ := delimiterChecksThePacket u hfu hpu hinvu hidxu
  obtain ⟨-, hsplit⟩ := hdecoded _ ((congrArg cobsDec hbufu).trans (decodingInvertsEncoding _))
  obtain ⟨-, hright⟩ := hsplit frame _ rfl rfl
  obtain ⟨hfront, -, hdelivers⟩ := hright rfl
  have hdone := hdelivers (hvu.trans hv)
  have hall : execAll ((packetOf frame).map .frByte) s = .next t := execAll_frByte_snoc hu ht
  obtain ⟨hcfg, hkept⟩ := execAll_keeps hall
  obtain ⟨hlen, -, -⟩ := hkept hinv
  rw [packetOf_length] at hfits
  have hmax := cfg_maxPacketSize_lt hok
  have hdeliv : t.delivLen = BitVec.ofNat 32 frame.length := congrArg State.delivLen hdone
  refine ⟨t, hall, (congrArg State.fault hdone).trans hfu, congrArg State.phase hdone, ?_, ?_⟩
  · rw [hdeliv, BitVec.toNat_ofNat, Nat.mod_eq_of_lt (by omega)]
  · rw [← hcfg, bytesFrom_rxBase hlen (by rw [hcfg]; omega), hfront]

end

/-- Settles O47: the bytes before the last are a part of the encoding, which has no zero byte; the whole packet is
`execAll_frByte_packet`. -/
theorem packetRoundTrip : Obligations.PacketRoundTrip := by
  intro s frame hf hp hidx hv hinv hok hfits
  refine ⟨fun k hpos hk => ?_, execAll_frByte_packet hf hp hinv hidx hfits hv hok⟩
  rw [packetOf_eq, List.length_append, List.length_singleton] at hk hfits
  rw [packetOf_eq, List.take_append_of_le_length (by omega)]
  have hnonzero : (0 : Byte) ∉ (cobsEnc (framed frame)).take k := fun h =>
    encodingHasNoZero _ (List.mem_of_mem_take h)
  obtain ⟨u, hu, hfu, hpu, -, -, -, hcode⟩ :=
    execAll_frByte_body hf hp hinv hidx _ hnonzero (by rw [List.length_take]; omega)
  refine ⟨u, hu, hfu, hpu, hcode (List.ne_nil_of_length_pos ?_)⟩
  rw [List.length_take]
  omega

/-- Settles O48: the delimiter leaves an empty RXBUF and a registered consumer, from which the packet delivers. -/
theorem delimiterResynchronises : Obligations.DelimiterResynchronises := by
  intro s u frame hf hp hv hinv hok hfits hu hpu
  have hcfg := exec_cfg hu
  have hvu : u.cbValid = s.cbValid := (congrArg State.cbValid (exec_frame hu) :)
  have hdelim : frDelimiter s = .next u := (exec_frByte_zero hf hp).symm.trans hu
  rw [← hcfg] at hok hfits ⊢
  exact execAll_frByte_packet ((frDelimiter_fault hdelim).trans hf) hpu (exec_rxInv hinv hu)
    (frDelimiter_rxIndex hdelim) hfits (hvu.trans hv) hok

/-! ### The acknowledgement -/

theorem Status.toCode_le (c : Status) : c.toCode.toNat ≤ 9 := by cases c <;> decide

/-- An acknowledgement value that stands for a status is its code (42_framer.md R524, 60_exceptions.md R700). -/
theorem Status.ofWord_some {v : Word} {c : Status} (h : Status.ofWord v = some c) : c.toCode.toNat = v.toNat := by
  have hv : v = c.toCode.zeroExtend 32 := by simpa using List.find?_some h
  rw [hv, BitVec.toNat_setWidth, Nat.mod_eq_of_lt (by omega)]

/-- The acknowledgement values are 0 to 9 (42_framer.md R525). -/
theorem Status.ofWord_eq_none {v : Word} : Status.ofWord v = none ↔ 9 < v.toNat := by
  constructor
  · intro hnone
    by_contra hv
    have hcodes : ∀ n ≤ 9, ∃ c ∈ Status.all, BitVec.ofNat 32 n = c.toCode.zeroExtend 32 := by decide
    obtain ⟨c, hc, hcode⟩ := hcodes v.toNat (Nat.not_lt.1 hv)
    rw [BitVec.ofNat_toNat, BitVec.setWidth_eq] at hcode
    exact List.find?_eq_none.1 hnone c hc (beq_iff_eq.2 hcode)
  · intro hv
    cases h : Status.ofWord v with
    | none => rfl
    | some c =>
      have hcode := Status.ofWord_some h
      have hle := c.toCode_le
      omega

section
variable {s : State} {v : Word}

/-- A write of DELIV_ACK is the acknowledgement (42_framer.md R524). -/
theorem perform_wr_delivAck (hf : s.fault = none) : perform (.wr 0x4C 32 v) s = acknowledge v s := by
  have hack : Reg.forWrite 0x4C 32 = some .delivAck := Reg.forWrite_offset (r := .delivAck) rfl
  rw [perform, unlessFaulted_none hf, hostWrite, hack]

theorem acknowledge_idle (hp : s.phase = .idle) : acknowledge v s = raise (.ackWithoutDelivery v) s := by
  rw [acknowledge, hp]

theorem acknowledge_badCode (hp : s.phase = .delivering) (h : Status.ofWord v = none) :
    acknowledge v s = raise (.badAckCode v) s := by
  rw [acknowledge, hp, h]

theorem acknowledge_code {c : Status} (hp : s.phase = .delivering) (h : Status.ofWord v = some c) :
    acknowledge v s = .next (endDelivery c s) := by
  rw [acknowledge, hp, h]

end

/-- Settles O42: PHASE is checked before the value, and the ten codes are the values up to 9. -/
theorem acknowledgementEndsTheDelivery : Obligations.AcknowledgementEndsTheDelivery := by
  intro s v hf
  rw [perform_wr_delivAck hf]
  refine ⟨acknowledge_idle, fun hp => ⟨fun hlarge => acknowledge_badCode hp (Status.ofWord_eq_none.2 hlarge),
    fun hsmall => ?_⟩⟩
  cases hc : Status.ofWord v with
  | none => exact absurd (Status.ofWord_eq_none.1 hc) (Nat.not_lt.2 hsmall)
  | some c => exact ⟨c, Status.ofWord_some hc, acknowledge_code hp hc⟩

end Sys2Proof.Machine
end

section
/-! Proofs about the frame builder FB.BUILD (43_frame_builder.md): the fields of the frame it writes, as they stand in host
memory, and the command past its checks. -/

namespace Sys2Proof.Machine

/-- A half word is its two bytes, big-endian (00_scope.md R21). -/
theorem be16_extractLsb' (v : BitVec 16) : be16 (v.extractLsb' 8 8) (v.extractLsb' 0 8) = v :=
  (BitVec.extractLsb'_append_extractLsb'_eq_extractLsb' rfl).trans BitVec.extractLsb'_eq_self

@[simp] theorem frameHeader_length (version id : Byte) (hash : Word) (len : Nat) :
    (frameHeader version id hash len).length = 8 := rfl

section
variable (m : Memory) (a : Nat)

/-- Of two runs of bytes written one behind the other, the first is read back from where it starts. -/
theorem Memory.read_writeBytes_append_left {bs : List Byte} (cs : List Byte) {k : Nat} (hk : k < bs.length) :
    (m.writeBytes a (bs ++ cs)).read (a + k) = bs[k] := by
  rw [Memory.writeBytes_append, Memory.read_writeBytes_outside _ _ _ _ (.inl (by omega)),
    Memory.read_writeBytes_inside _ _ _ _ hk]

/-- Of two runs of bytes written one behind the other, the second is read back from behind the first. -/
theorem Memory.read_writeBytes_append_right (bs : List Byte) {cs : List Byte} {k : Nat} (hk : k < cs.length) :
    (m.writeBytes a (bs ++ cs)).read (a + bs.length + k) = cs[k] := by
  rw [Memory.writeBytes_append, Memory.read_writeBytes_inside _ _ _ _ hk]

/-- The fields of a frame in memory are those its header was made of, whatever the payload; LEN has 16 bits
(43_frame_builder.md R600, R602). -/
theorem Memory.writeBytes_frameHeader (version id : Byte) (hash : Word) {len : Nat} (hlen : len ≤ 65535)
    (payload : List Byte) :
    let t := m.writeBytes a (frameHeader version id hash len ++ payload)
    t.read a = version ∧ t.read (a + 1) = id ∧
      be32 (t.read (a + 2)) (t.read (a + 3)) (t.read (a + 4)) (t.read (a + 5)) = hash ∧
      (be16 (t.read (a + 6)) (t.read (a + 7))).toNat = len := by
  intro t
  have hbyte : ∀ k (hk : k < 8), t.read (a + k) = (frameHeader version id hash len)[k] := fun k hk =>
    m.read_writeBytes_append_left a payload hk
  refine ⟨hbyte 0 (by decide), hbyte 1 (by decide), ?_, ?_⟩
  · rw [hbyte 2 (by decide), hbyte 3 (by decide), hbyte 4 (by decide), hbyte 5 (by decide)]
    exact be32_extractLsb' hash
  · have hfield : be16 (t.read (a + 6)) (t.read (a + 7)) = BitVec.ofNat 16 len := by
      rw [hbyte 6 (by decide), hbyte 7 (by decide)]
      exact be16_extractLsb' _
    rw [hfield, BitVec.toNat_ofNat, Nat.mod_eq_of_lt (by omega)]

end

/-- FB.BUILD past its checks writes the header and the payload and completes with the frame's length
(43_frame_builder.md R601). -/
theorem exec_fbBuild_admitted {id : Byte} {s : State} (h : s.ready (.fbBuild id))
    (hpass : s.statusChecksPass (.fbBuild id)) (hin : s.readableSpan (s.span .a1 .a2))
    (hout : s.writableSpan (s.span .a3 .a4)) (hapart : (s.span .a3 .a4).apart (s.span .a1 .a2)) :
    exec (.fbBuild id) s = .next (completeWith (BitVec.ofNat 32 (8 + (s.arg .a2).value.toNat))
      (storeBytes (s.arg .a3).value.toNat
        (frameHeader s.version id (s.arg .a0).value (s.arg .a2).value.toNat ++ s.readSpan (s.span .a1 .a2)) s)) := by
  obtain ⟨hptr, hnull, hlen, hroom⟩ := hpass
  have hadmitted : copyFault s [s.span .a1 .a2] (s.span .a3 .a4) = none :=
    copyFault_none.2 ⟨by simpa using hin, hout, by simpa using hapart⟩
  have hexec : exec (.fbBuild id) s = _ := guarded_ready h _
  dsimp only at hexec
  rw [hexec, if_neg hptr, if_neg (Span.nullOk_iff.1 hnull), if_neg (Nat.not_lt.2 hlen), if_neg (Nat.not_lt.2 hroom),
    hadmitted, onceAdmitted_none]
  rfl

/-- Settles O49: the header's eight bytes, then the payload's, form one run of writes from A3 on. -/
theorem buildCommandWritesTheFrame : Obligations.BuildCommandWritesTheFrame := by
  intro s id hready hpass hin hout hapart hash pn out
  have hexec := exec_fbBuild_admitted hready hpass hin hout hapart
  obtain ⟨-, -, hlen : pn ≤ 65535, -⟩ := hpass
  have hsize : (s.readSpan (s.span .a1 .a2)).length = pn := bytesFrom_length _ _ _
  obtain ⟨hversion, hid, hhash, hpn⟩ :=
    s.mem.writeBytes_frameHeader out s.version id hash hlen (s.readSpan (s.span .a1 .a2))
  refine ⟨_, hexec, rfl, ?_, hversion, hid, hhash, hpn, fun k hk => ?_, fun a ha => ?_⟩
  · rw [completeWith_result, BitVec.toNat_ofNat, Nat.mod_eq_of_lt (by omega)]
  · exact (s.mem.read_writeBytes_append_right out _ (hk.trans_eq hsize.symm)).trans (bytesFrom_getElem _ _ _ _ _)
  · exact Memory.read_writeBytes_outside _ _ _ _ (by simpa [hsize, Nat.add_assoc] using ha)

end Sys2Proof.Machine
end

section
/-! Proofs about exceptions (60_exceptions.md): a faulted block performs nothing but reset, and an operation that raises a
fault changes nothing but FAULT. -/

namespace Sys2Proof.Machine

/-! ### Nothing but reset has a step in a faulted block -/

section
variable {s : State} {r : FaultReason} (h : s.fault = some r)
include h

/-- Every command checks FAULT before anything else (60_exceptions.md R721). -/
theorem exec_halted (i : Instr) : exec i s = .fault (.halted r) := by
  cases i with
  | crc32 | cobsBegin | cobsPut b | cobsEnd | cobsEnc2 | cobsDec | frPkt | frByte b | frReg | fbBuild id =>
    exact unlessFaulted_some h _

/-- Every host operation but reset checks FAULT before anything else (60_exceptions.md R721, R722). -/
theorem perform_halted {op : HostOp} (hop : op ≠ .reset) : perform op s = .fault (.halted r) := by
  cases op with
  | reset => exact absurd rfl hop
  | wr offset width v | rd offset width | chk offset mask v | memWr a bs | memRd a n => exact unlessFaulted_some h _

end

/-- A step performs the host's next operation on the state past it (20_memory.md R230). -/
theorem step_performs {s : State} {op : HostOp} {rest : List HostOp} (h : s.hostOps = op :: rest) :
    step s = perform op { s with hostOps := rest } := by
  rw [step, hostStep, h]

/-- Settles O5: the check of FAULT comes first in every command and every host operation but reset. -/
theorem faultedBlockHasNoStepButReset : Obligations.FaultedBlockHasNoStepButReset := by
  refine fun s r hf => ⟨exec_halted hf, fun op rest hops hop => ?_, fun rest hops => ?_⟩
  · rw [step_performs hops]
    exact perform_halted (s := { s with hostOps := rest }) hf hop
  · exact ⟨_, step_performs hops, rfl⟩

/-! ### A raised fault is the only effect -/

/-- A raised fault changes FAULT only (60_exceptions.md R720, R731). -/
theorem Raised.only_fault {s t : State} (h : Raised s t) : t = { s with fault := t.fault } := by
  obtain ⟨r, rfl⟩ := h
  rfl

/-- A command that ends in any way but a raised fault leaves FAULT = None. -/
theorem Ends.raised_of_fault {i : Instr} {s t : State} (h : Ends i s t) (ht : t.fault ≠ none) : Raised s t := by
  cases h with
  | raised h => exact h
  | completed _ hfault | gaveResult _ _ hfault | handedOver _ hfault => exact absurd hfault ht

/-- An operation of the host's own that raises no fault keeps FAULT. -/
theorem HostEffect.raised_of_fault {op : HostOp} {u t : State} (h : HostEffect op u t) (hu : u.fault = none)
    (ht : t.fault ≠ none) : Raised u t := by
  cases h with
  | raised h => exact h
  | wroteArg i v _ h => subst h; exact absurd ((setArg_fault i v u).trans hu) ht
  | wroteVersion _ _ h | acknowledged _ _ _ _ h | hasRead _ _ h | stored _ _ _ h => subst h; exact absurd hu ht

/-- What a host operation but reset does in a block that is not faulted: it issues a command or has an effect of the
host's own. Performing it is the step of the state in which it comes next. -/
theorem perform_cases {op : HostOp} {s t : State} (hop : op ≠ .reset) (h : perform op s = .next t) :
    s.fault = none ∧ ((∃ i, exec i s = .next t) ∨ HostEffect op s t) := by
  have hstep : step { s with hostOps := op :: s.hostOps } = .next t := h
  obtain ⟨hnil, -⟩ | ⟨_, _, hops, hcase⟩ := step_cases hstep
  · cases hnil
  cases hops
  obtain ⟨hreset, -⟩ | ⟨hf, ⟨-, i, -, -, hx⟩ | heff⟩ := hcase
  · exact absurd hreset hop
  · exact ⟨hf, .inl ⟨i, hx⟩⟩
  · exact ⟨hf, .inr heff⟩

/-- Settles O8: of the ways in which a command or a host operation can end, a raised fault alone sets FAULT. -/
theorem faultHasNoOtherEffect : Obligations.FaultHasNoOtherEffect := by
  refine ⟨fun i s t h ht => ((exec_ends h).raised_of_fault ht).only_fault, fun op s t hop h ht => ?_⟩
  obtain ⟨hf, ⟨i, hx⟩ | heff⟩ := perform_cases hop h
  · exact ((exec_ends hx).raised_of_fault ht).only_fault
  · exact (heff.raised_of_fault hf ht).only_fault

end Sys2Proof.Machine
end
